-- ==== Sys2Proof/Word.lean ====
section
/-! DEFINITION. The word types of the Ed448 core: the byte, the 32-bit bus word, the 448-bit raw
field value and the 57-byte string (00_scope.md R11, R12). -/

namespace Sys2Proof

/-- One byte. -/
abbrev Byte := BitVec 8

/-- One word of the host's 32-bit data path (20_memory.md R70); also a command word (30_encoding.md R100). -/
abbrev Word32 := BitVec 32

/-- A raw 448-bit value, as a field register or a point coordinate stores it (10_state.md R32). -/
abbrev Elem := BitVec 448

/-- A byte string of any length; byte 0 is the head (00_scope.md R12). -/
abbrev Bytes := List Byte

/-- A 57-byte string: a scalar, a point encoding, a secret key or half of a 114-byte value
(10_state.md R35). -/
abbrev Str57 := Vector Byte 57

end Sys2Proof
end

