-- ==== Sys2Proof/Syntax.lean ====
section
/-! DEFINITION. The command set: one constructor per row of the opcode map (30_encoding.md R107).
Operands are register numbers and decoded flag subfields; no raw encoding reaches the machine. -/

namespace Sys2Proof

/-- A number of the field register file FR (30_encoding.md R103). -/
abbrev FReg := Fin 16
/-- A number of the point register file PR. -/
abbrev PReg := Fin 16
/-- A number of the scalar/encoding register file SR. -/
abbrev SReg := Fin 16
/-- A number of the wNAF buffer file WB. -/
abbrev WReg := Fin 2

/-- A coordinate of a point register: the COMP subfield (30_encoding.md R104). -/
inductive Comp where
  | x
  | y
  | z
  deriving DecidableEq, Repr

/-- The table entry that PLOOK names: TSEL, BLK and IDX (30_encoding.md R104). -/
inductive TableEntry where
  /-- TSEL = 0: comb block 0..4 and index 0..15. -/
  | comb (blk : Fin 5) (idx : Fin 16)
  /-- TSEL = 1: window index 0..31. -/
  | win (idx : Fin 32)
  deriving DecidableEq, Repr

/-- The commands of the core. Operands stand destinations first, in the order of the assembler
forms (30_encoding.md R111). -/
inductive Instr where
  | nop
  | zeroize
  | fadd (d a b : FReg)
  | fsub (d a b : FReg)
  | fmul (d a b : FReg)
  | fsqr (d a : FReg)
  | finv (d a : FReg)
  | fneg (d a : FReg)
  | fnorm (d a : FReg)
  | fmov (d a : FReg)
  | fsel (d a b c : FReg)
  | fsqrtr (d u v : FReg)
  | fisz (a : FReg)
  | fldi (d : FReg) (imm : BitVec 20)
  | schk (a : SReg)
  | sprune (d a : SReg)
  | sred (d lo hi : SReg)
  | scalc (d r k t : SReg)
  | pdbl (d a : PReg)
  | padd (d a : PReg) (neg : Bool)
  | paddp (d a : PReg)
  | pneg (d a : PReg)
  | pcopy (d a : PReg)
  | psetn (d : PReg)
  | pext (d : PReg) (x y : FReg)
  | pget (d : FReg) (a : PReg) (c : Comp)
  | pput (d : PReg) (a : FReg) (c : Comp)
  | penc (d : SReg) (a : PReg)
  | pdec (d : PReg) (a : SReg) (neg : Bool)
  | pchk (a : SReg)
  | precomp
  | plook (d : PReg) (e : TableEntry)
  | wnaf (d : WReg) (a : SReg) (width : Fin 16)
  | smulb (d : PReg) (a : SReg)
  | smulsv (d : PReg) (nb np : SReg) (q : PReg)
  | smulbxy (dx dy : FReg) (a : SReg)
  | keygen (d a : SReg)
  /-- `pk` is `some c` for PKV = 1 with RC = c, and `none` for PKV = 0. -/
  | sign (dR dS sk : SReg) (pk : Option SReg) (ph : Bool)
  | verify (r t pk : SReg) (ph : Bool)
  | xofh (lo hi : SReg)
  deriving DecidableEq, Repr

end Sys2Proof
end

