-- ==== Sys2Proof/WellFormed.lean ====
section
/-! DEFINITION. The checks of 30_encoding.md R106 that the operand types of `Instr` do not already
carry: the wNAF width, and the two destinations that must differ. -/

namespace Sys2Proof

/-- The widths WNAF accepts: 2 to 8 (30_encoding.md R104, R106). -/
def legalWidth (width : Fin 16) : Bool := decide (2 ≤ width.val ∧ width.val ≤ 8)

/-- A command that some legal word encodes. -/
def Instr.wf : Instr → Bool
  | .wnaf _ _ width => legalWidth width
  | .smulbxy dx dy _ => decide (dx ≠ dy)
  | .sign dR dS _ _ _ => decide (dR ≠ dS)
  | .xofh lo hi => decide (lo ≠ hi)
  | .nop | .zeroize | .fadd .. | .fsub .. | .fmul .. | .fsqr .. | .finv .. | .fneg .. | .fnorm ..
  | .fmov .. | .fsel .. | .fsqrtr .. | .fisz .. | .fldi .. | .schk .. | .sprune .. | .sred ..
  | .scalc .. | .pdbl .. | .padd .. | .paddp .. | .pneg .. | .pcopy .. | .psetn .. | .pext ..
  | .pget .. | .pput .. | .penc .. | .pdec .. | .pchk .. | .precomp | .plook .. | .smulb ..
  | .smulsv .. | .keygen .. | .verify .. => true

end Sys2Proof
end

