-- ==== Sys2Proof/Decode.lean ====
section
/-! DEFINITION. The decoder, total on every 32-bit word and rejecting by name (30_encoding.md R100 to
R110), and the encoder written from the same opcode map. -/

namespace Sys2Proof

/-- Why a word is no command: the two encoding errors of 60_exceptions.md R301. -/
inductive DecodeError where
  /-- E_OPC: the opcode byte is not in the opcode map (30_encoding.md R108). -/
  | illegalOpcode
  /-- E_ENC: an unused field or reserved flag is nonzero, or a field value is illegal (R105, R106). -/
  | illegalEncoding
  deriving DecidableEq, Repr

/-- The fields of both formats, pulled out once (30_encoding.md R101, R102). -/
structure Fields where
  opc : BitVec 8
  rd : Fin 16
  ra : Fin 16
  rb : Fin 16
  rc : Fin 16
  flg : BitVec 8
  imm : BitVec 20
  deriving DecidableEq, Repr

/-- A 4-bit register field as a register number (30_encoding.md R103). -/
def regField (w : Word32) (lo : Nat) : Fin 16 := (w.extractLsb' lo 4).toFin

/-- The fields of a word. -/
def fieldsOf (w : Word32) : Fields where
  opc := w.extractLsb' 0 8
  rd := regField w 8
  ra := regField w 12
  rb := regField w 16
  rc := regField w 20
  flg := w.extractLsb' 24 8
  imm := w.extractLsb' 12 20

/-- Strict decoding: the command if the word keeps the encoding rules, else E_ENC (R105). -/
def strict (legal : Bool) (i : Instr) : Except DecodeError Instr :=
  if legal then .ok i else .error .illegalEncoding

/-- The COMP subfield with FLG[7:2] = 0; COMP = 3 is illegal (R104, R106). -/
def compField (flg : BitVec 8) : Option Comp :=
  match flg.toNat with
  | 0 => some .x
  | 1 => some .y
  | 2 => some .z
  | _ => none

/-- PLOOK's TSEL, BLK and IDX (R104, R106). -/
def tableField (flg : BitVec 8) : Option TableEntry :=
  if flg.getLsbD 7 then
    if flg.extractLsb' 5 2 = 0#2 then some (.win (flg.extractLsb' 0 5).toFin) else none
  else
    let blk := (flg.extractLsb' 4 3).toNat
    if h : blk < 5 then some (.comb ⟨blk, h⟩ (flg.extractLsb' 0 4).toFin) else none

/-- The fields of format R that a command of one shape does not use are 0 (R105). -/
def onlyD (f : Fields) : Bool := f.ra = 0 && f.rb = 0 && f.rc = 0
def onlyA (f : Fields) : Bool := f.rd = 0 && f.rb = 0 && f.rc = 0
def onlyDA (f : Fields) : Bool := f.rb = 0 && f.rc = 0
def onlyDAB (f : Fields) : Bool := f.rc = 0

/-- FLG holds no bit other than bit 0, the single flag of PADD, PDEC and VERIFY (R104). -/
def flagOnly (f : Fields) : Bool := f.flg.extractLsb' 1 7 = 0#7

/-- The decoding order of 30_encoding.md R110 on the fields of a word. -/
def decodeFields (f : Fields) : Except DecodeError Instr :=
  let noFlag : Bool := f.flg = 0#8
  match f.opc.toNat with
  | 0x00 => strict (f.rd = 0 && onlyD f && noFlag) .nop
  | 0x01 => strict (f.rd = 0 && onlyD f && noFlag) .zeroize
  | 0x10 => strict (onlyDAB f && noFlag) (.fadd f.rd f.ra f.rb)
  | 0x11 => strict (onlyDAB f && noFlag) (.fsub f.rd f.ra f.rb)
  | 0x12 => strict (onlyDAB f && noFlag) (.fmul f.rd f.ra f.rb)
  | 0x13 => strict (onlyDA f && noFlag) (.fsqr f.rd f.ra)
  | 0x14 => strict (onlyDA f && noFlag) (.finv f.rd f.ra)
  | 0x15 => strict (onlyDA f && noFlag) (.fneg f.rd f.ra)
  | 0x16 => strict (onlyDA f && noFlag) (.fnorm f.rd f.ra)
  | 0x17 => strict (onlyDA f && noFlag) (.fmov f.rd f.ra)
  | 0x18 => strict noFlag (.fsel f.rd f.ra f.rb f.rc)
  | 0x19 => strict (onlyDAB f && noFlag) (.fsqrtr f.rd f.ra f.rb)
  | 0x1A => strict (onlyA f && noFlag) (.fisz f.ra)
  | 0x1B => .ok (.fldi f.rd f.imm)
  | 0x20 => strict (onlyA f && noFlag) (.schk f.ra)
  | 0x21 => strict (onlyDA f && noFlag) (.sprune f.rd f.ra)
  | 0x22 => strict (onlyDAB f && noFlag) (.sred f.rd f.ra f.rb)
  | 0x23 => strict noFlag (.scalc f.rd f.ra f.rb f.rc)
  | 0x30 => strict (onlyDA f && noFlag) (.pdbl f.rd f.ra)
  | 0x31 => strict (onlyDA f && flagOnly f) (.padd f.rd f.ra (f.flg.getLsbD 0))
  | 0x32 => strict (onlyDA f && noFlag) (.paddp f.rd f.ra)
  | 0x33 => strict (onlyDA f && noFlag) (.pneg f.rd f.ra)
  | 0x34 => strict (onlyDA f && noFlag) (.pcopy f.rd f.ra)
  | 0x35 => strict (onlyD f && noFlag) (.psetn f.rd)
  | 0x36 => strict (onlyDAB f && noFlag) (.pext f.rd f.ra f.rb)
  | 0x37 =>
    match compField f.flg with
    | some c => strict (onlyDA f) (.pget f.rd f.ra c)
    | none => .error .illegalEncoding
  | 0x38 =>
    match compField f.flg with
    | some c => strict (onlyDA f) (.pput f.rd f.ra c)
    | none => .error .illegalEncoding
  | 0x39 => strict (onlyDA f && noFlag) (.penc f.rd f.ra)
  | 0x3A => strict (onlyDA f && flagOnly f) (.pdec f.rd f.ra (f.flg.getLsbD 0))
  | 0x3B => strict (onlyA f && noFlag) (.pchk f.ra)
  | 0x40 => strict (f.rd = 0 && onlyD f && noFlag) .precomp
  | 0x41 =>
    match tableField f.flg with
    | some e => strict (onlyD f) (.plook f.rd e)
    | none => .error .illegalEncoding
  | 0x42 =>
    if h : f.rd.val < 2 then
      let width := (f.flg.extractLsb' 0 4).toFin
      strict (onlyDA f && decide (f.flg.extractLsb' 4 4 = 0#4) && legalWidth width)
        (.wnaf ⟨f.rd.val, h⟩ f.ra width)
    else .error .illegalEncoding
  | 0x43 => strict (onlyDA f && noFlag) (.smulb f.rd f.ra)
  | 0x44 => strict noFlag (.smulsv f.rd f.ra f.rb f.rc)
  | 0x45 => strict (onlyDAB f && noFlag && decide (f.rd ≠ f.rb)) (.smulbxy f.rd f.rb f.ra)
  | 0x50 => strict (onlyDA f && noFlag) (.keygen f.rd f.ra)
  | 0x51 =>
    let pkv := f.flg.getLsbD 1
    strict (decide (f.flg.extractLsb' 2 6 = 0#6) && (pkv || decide (f.rc = 0)) && decide (f.rd ≠ f.rb))
      (.sign f.rd f.rb f.ra (if pkv then some f.rc else none) (f.flg.getLsbD 0))
  | 0x52 => strict (decide (f.rd = 0) && flagOnly f) (.verify f.ra f.rb f.rc (f.flg.getLsbD 0))
  | 0x53 => strict (decide (f.ra = 0) && onlyDAB f && noFlag && decide (f.rd ≠ f.rb)) (.xofh f.rd f.rb)
  | _ => .error .illegalOpcode

/-- The command a word stands for, or the encoding error it ends in (30_encoding.md R110). -/
def decode (w : Word32) : Except DecodeError Instr := decodeFields (fieldsOf w)

/-- A register number as its 4-bit field. -/
def regBits (r : Fin 16) : BitVec 4 := BitVec.ofFin r

/-- A format-R word (R101). -/
def encodeR (opc : BitVec 8) (rd ra rb rc : Fin 16) (flg : BitVec 8) : Word32 :=
  flg ++ (regBits rc ++ (regBits rb ++ (regBits ra ++ (regBits rd ++ opc))))

/-- A format-I word (R102). -/
def encodeI (opc : BitVec 8) (rd : Fin 16) (imm : BitVec 20) : Word32 :=
  imm ++ (regBits rd ++ opc)

/-- The COMP subfield of FLG (R104). -/
def compFlag : Comp → BitVec 8
  | .x => 0#8
  | .y => 1#8
  | .z => 2#8

/-- PLOOK's FLG byte (R104). -/
def tableFlag : TableEntry → BitVec 8
  | .comb blk idx => 0#1 ++ (BitVec.ofNat 3 blk.val ++ regBits idx)
  | .win idx => 1#1 ++ (0#2 ++ (BitVec.ofFin idx : BitVec 5))

/-- A single flag in FLG[0] (R104). -/
def bitFlag (b : Bool) : BitVec 8 := 0#7 ++ BitVec.ofBool b

/-- SIGN's FLG byte: PH in bit 0, PKV in bit 1 (R104). -/
def signFlag (pkv ph : Bool) : BitVec 8 := 0#6 ++ (BitVec.ofBool pkv ++ BitVec.ofBool ph)

/-- The word of a command, from the opcode map (30_encoding.md R107). -/
def encode : Instr → Word32
  | .nop => encodeR 0x00#8 0 0 0 0 0#8
  | .zeroize => encodeR 0x01#8 0 0 0 0 0#8
  | .fadd d a b => encodeR 0x10#8 d a b 0 0#8
  | .fsub d a b => encodeR 0x11#8 d a b 0 0#8
  | .fmul d a b => encodeR 0x12#8 d a b 0 0#8
  | .fsqr d a => encodeR 0x13#8 d a 0 0 0#8
  | .finv d a => encodeR 0x14#8 d a 0 0 0#8
  | .fneg d a => encodeR 0x15#8 d a 0 0 0#8
  | .fnorm d a => encodeR 0x16#8 d a 0 0 0#8
  | .fmov d a => encodeR 0x17#8 d a 0 0 0#8
  | .fsel d a b c => encodeR 0x18#8 d a b c 0#8
  | .fsqrtr d u v => encodeR 0x19#8 d u v 0 0#8
  | .fisz a => encodeR 0x1A#8 0 a 0 0 0#8
  | .fldi d imm => encodeI 0x1B#8 d imm
  | .schk a => encodeR 0x20#8 0 a 0 0 0#8
  | .sprune d a => encodeR 0x21#8 d a 0 0 0#8
  | .sred d lo hi => encodeR 0x22#8 d lo hi 0 0#8
  | .scalc d r k t => encodeR 0x23#8 d r k t 0#8
  | .pdbl d a => encodeR 0x30#8 d a 0 0 0#8
  | .padd d a neg => encodeR 0x31#8 d a 0 0 (bitFlag neg)
  | .paddp d a => encodeR 0x32#8 d a 0 0 0#8
  | .pneg d a => encodeR 0x33#8 d a 0 0 0#8
  | .pcopy d a => encodeR 0x34#8 d a 0 0 0#8
  | .psetn d => encodeR 0x35#8 d 0 0 0 0#8
  | .pext d x y => encodeR 0x36#8 d x y 0 0#8
  | .pget d a c => encodeR 0x37#8 d a 0 0 (compFlag c)
  | .pput d a c => encodeR 0x38#8 d a 0 0 (compFlag c)
  | .penc d a => encodeR 0x39#8 d a 0 0 0#8
  | .pdec d a neg => encodeR 0x3A#8 d a 0 0 (bitFlag neg)
  | .pchk a => encodeR 0x3B#8 0 a 0 0 0#8
  | .precomp => encodeR 0x40#8 0 0 0 0 0#8
  | .plook d e => encodeR 0x41#8 d 0 0 0 (tableFlag e)
  | .wnaf d a width => encodeR 0x42#8 ⟨d.val, by omega⟩ a 0 0 (0#4 ++ regBits width)
  | .smulb d a => encodeR 0x43#8 d a 0 0 0#8
  | .smulsv d nb np q => encodeR 0x44#8 d nb np q 0#8
  | .smulbxy dx dy a => encodeR 0x45#8 dx a dy 0 0#8
  | .keygen d a => encodeR 0x50#8 d a 0 0 0#8
  | .sign dR dS sk none ph => encodeR 0x51#8 dR sk dS 0 (signFlag false ph)
  | .sign dR dS sk (some c) ph => encodeR 0x51#8 dR sk dS c (signFlag true ph)
  | .verify r t pk ph => encodeR 0x52#8 0 r t pk (bitFlag ph)
  | .xofh lo hi => encodeR 0x53#8 lo 0 hi 0 0#8

/-- The decoder on a word numbered as spec/opcode_table.json numbers it. Every command is exactly one
32-bit word (30_encoding.md R100); bits that the row does not give are 0. -/
def decodeTableWord (nbits w : Nat) : Option Instr :=
  if nbits ≤ 32 then
    match decode (BitVec.ofNat 32 (w % 2 ^ nbits)) with
    | .ok i => some i
    | .error _ => none
  else none

end Sys2Proof
end

