-- ==== Sys2Proof/Config.lean ====
section
/-! DEFINITION. The fixed parameters of the Ed448 core: the field, the group order, the curve
constant, the base point and the reference message capacity (00_scope.md R5 to R11). -/

namespace Sys2Proof.Config

/-- The field's modulus p = 2^448 − 2^224 − 1 (00_scope.md R5). -/
def p : Nat :=
  0xfffffffffffffffffffffffffffffffffffffffffffffffffffffffeffffffffffffffffffffffffffffffffffffffffffffffffffffffff

/-- The group order L (00_scope.md R8). -/
def groupOrder : Nat :=
  0x3fffffffffffffffffffffffffffffffffffffffffffffffffffffff7cca23e9c44edb49aed63690216cc2728dc58f552378c292ab5844f3

/-- The curve constant d = −39081, held as p − 39081 (00_scope.md R7). -/
def curveD : Nat := p - 39081

/-- The x coordinate of the base point B (00_scope.md R9). -/
def baseX : Nat :=
  0x4f1970c66bed0ded221d15a622bf36da9e146570470f1767ea6de324a3d3a46412ae1af72ab66511433b80e18b00938e2626a82bc70cc05e

/-- The y coordinate of the base point B (00_scope.md R9). -/
def baseY : Nat :=
  0x693f46716eb6bc248876203756c9c7624bea73736ca3984087789c1e05a0c2d73ad3ff1ce67c39c4fdbd132c4ed7c8ad9808795bf230fa14

/-- The contents of the ID register (10_state.md R41). -/
def idWord : Word32 := 0x04480001#32

/-- The reference value of the open parameter MSG_CAP (00_scope.md R11, 92_eei_decisions.md D9). -/
def msgCapReference : Nat := 4096

/-- The least exponent bound that the wNAF encoder and the two-scalar multiplier refuse: a scalar
of 2^446 or more raises E_RANGE (44_scalar_mult.md R243, R245). -/
def scalarRange : Nat :=
  0x4000000000000000000000000000000000000000000000000000000000000000000000000000000000000000000000000000000000000000

end Sys2Proof.Config
end

