-- ==== Sys2Proof/Machine/State.lean ====
section
/-! DEFINITION. The state of the core as plain data: every register, buffer, flag and table of
10_state.md, the schedule of the agents and the answer of the host port; the reasons a step can
stop; and the state right after reset. -/

namespace Sys2Proof.Machine

/-- Why a step faults. There is no reason: the core raises no traps (60_exceptions.md R300), a command
error and a bus error are next states (R301, R306), and nothing gets stuck (70_reset_and_hazards.md
R349). No step raises a fault. -/
inductive Fault where
  deriving DecidableEq, Repr

/-- Why a step is refused. -/
inductive Refusal where
  /-- Raised by `exec` for an instruction that has no meaning yet; safe. -/
  | notModelled (mnemonic : String)
  deriving DecidableEq, Repr

/-- The command error codes of 60_exceptions.md R301. Codes 7 to 15 are never produced. -/
inductive ErrCode where
  /-- 0, OK. -/
  | ok
  /-- 1, E_OPC. -/
  | opc
  /-- 2, E_ENC. -/
  | enc
  /-- 3, E_CTX. -/
  | ctx
  /-- 4, E_MSG. -/
  | msg
  /-- 5, E_PH. -/
  | ph
  /-- 6, E_RANGE. -/
  | range
  deriving DecidableEq, Repr

/-- A point register: three raw 448-bit coordinates (10_state.md R33). -/
structure PointReg where
  x : Elem
  y : Elem
  z : Elem
  deriving DecidableEq, Repr

/-- An affine entry of the comb table (10_state.md R52). -/
structure AffineReg where
  x : Elem
  y : Elem
  deriving DecidableEq, Repr

/-- The capacity of MSGBUF with the limits 00_scope.md R11 sets on it. -/
structure MsgCap where
  bytes : Nat
  legal : 64 ≤ bytes ∧ bytes ≤ 49152 ∧ bytes % 4 = 0
  deriving DecidableEq, Repr

/-- A byte memory: (index, byte) cells, indices strictly rising, no zero byte listed
(`Memory.wf` in Machine/Ops.lean). An unlisted byte reads 0. -/
abbrev Memory := List Host.Cell

/-- The width of a host access (20_memory.md R71). Only `w32` is legal. -/
inductive AccessWidth where
  | w8
  | w16
  | w32
  /-- Wider than 32 bits. -/
  | wider
  deriving DecidableEq, Repr

/-- One host access to the aperture, at a byte offset from its base (20_memory.md R70, R71). -/
inductive HostAccess where
  | read (width : AccessWidth) (offset : BitVec 16)
  | write (width : AccessWidth) (offset : BitVec 16) (data : Word32)
  deriving DecidableEq, Repr

/-- What the host port answers (70_reset_and_hazards.md R340): read data, a write taken by the port
(performed, ignored or dropped), or the error response of 20_memory.md R71. -/
inductive HostResponse where
  /-- No access since reset. -/
  | none
  | data (w : Word32)
  | done
  /-- The error response to a read, with the data word it returns (20_memory.md R71). -/
  | readError (w : Word32)
  /-- The error response to a write. -/
  | writeError
  deriving DecidableEq, Repr

/-- What happens next, chosen outside the core (log 1): 70_reset_and_hazards.md R340 counts a host
access, a controller step and a reset as steps. -/
inductive Input where
  /-- RST is asserted for this step (70_reset_and_hazards.md R341). -/
  | rst
  /-- One host access arrives. -/
  | host (a : HostAccess)
  /-- The controller runs the accepted command to its completion before the next access arrives. -/
  | controller
  /-- The controller reaches the table build of the running command and shows TBLV before the
  completion (20_memory.md R87). -/
  | tableBuild
  /-- A host access arrives in the very step of the completion (60_exceptions.md R303). -/
  | completionAndHost (a : HostAccess)
  deriving DecidableEq, Repr

/-- The state of the core. INVENTORY.md lists each field with its rule and its reset value. -/
structure State where
  /-- FR (10_state.md R31). -/
  fr : Vector Elem 16
  /-- PR (10_state.md R33). -/
  pr : Vector PointReg 16
  /-- SR (10_state.md R35). -/
  sr : Vector Str57 16
  /-- WB, digits stored as bytes (10_state.md R38). -/
  wb : Vector (Vector Byte 448) 2
  /-- MSGBUF (10_state.md R39). -/
  msgbuf : Memory
  /-- CTXBUF (10_state.md R40). -/
  ctxbuf : Memory
  /-- MSG_CAP, read in CAP (10_state.md R42); no step changes it. -/
  msgCap : MsgCap
  /-- CTRL.IE_DONE (10_state.md R43). -/
  ieDone : Bool
  /-- CTRL.IE_ACCERR (10_state.md R43). -/
  ieAccerr : Bool
  /-- STATUS.BUSY (10_state.md R45), the controller's phase (R53). -/
  busy : Bool
  /-- STATUS.DONE (10_state.md R45). -/
  done : Bool
  /-- STATUS.CF (10_state.md R44). -/
  cf : Bool
  /-- STATUS.TBLV (10_state.md R50). -/
  tblv : Bool
  /-- STATUS.ACCERR (60_exceptions.md R307). -/
  accerr : Bool
  /-- STATUS.ZDIV (10_state.md R49). -/
  zdiv : Bool
  /-- STATUS.ERR (60_exceptions.md R301). -/
  err : ErrCode
  /-- CMD, the latched command word (10_state.md R46, R53). -/
  cmd : Word32
  /-- CTX_LEN (10_state.md R47). -/
  ctxLen : BitVec 16
  /-- MSG_LEN (10_state.md R48). -/
  msgLen : BitVec 16
  /-- BTAB, the base window table (10_state.md R51); read only while TBLV = 1. -/
  btab : Vector PointReg 32
  /-- CTAB, the comb table, by block and index (10_state.md R52); read only while TBLV = 1. -/
  ctab : Vector (Vector AffineReg 16) 5
  /-- The model's own: the schedule of what happens next (log 1). -/
  inputs : List Input
  /-- The model's own: the host port's answer to the last access (log 2). -/
  resp : HostResponse
  deriving DecidableEq, Repr

/-- The machine right after reset for a core whose message capacity is `cap`: every field at the
value of 10_state.md R57. The tables, which R57 leaves unspecified, are zero (log 5). -/
def State.resetOf (cap : MsgCap) : State where
  fr := Vector.replicate 16 0#448
  pr := Vector.replicate 16 ⟨0#448, 0#448, 0#448⟩
  sr := Vector.replicate 16 (Vector.replicate 57 0#8)
  wb := Vector.replicate 2 (Vector.replicate 448 0#8)
  msgbuf := []
  ctxbuf := []
  msgCap := cap
  ieDone := false
  ieAccerr := false
  busy := false
  done := false
  cf := false
  tblv := false
  accerr := false
  zdiv := false
  err := .ok
  cmd := 0#32
  ctxLen := 0#16
  msgLen := 0#16
  btab := Vector.replicate 32 ⟨0#448, 0#448, 0#448⟩
  ctab := Vector.replicate 5 (Vector.replicate 16 ⟨0#448, 0#448⟩)
  inputs := []
  resp := .none

/-- The reference capacity (log 4). -/
def MsgCap.reference : MsgCap := ⟨Config.msgCapReference, by decide⟩

/-- The machine right after reset (10_state.md R57, 70_reset_and_hazards.md R341), with the spec's
reference message capacity. -/
def State.reset : State := State.resetOf MsgCap.reference

end Sys2Proof.Machine
end

