-- ==== Sys2Proof/Machine/Ops.lean ====
section
/-! DEFINITION. The named operations over byte memories, and the command lifecycle of 40_control.md
R130: acceptance, completion without error, completion with an error (the core's counterpart of
taking an exception, 60_exceptions.md R304, R311), the host's acknowledgement (its counterpart of
the return, R312), and reset. -/

namespace Sys2Proof.Machine

/-! ### Byte memories -/

/-- The byte at index `k`; an unlisted index reads 0, the reset value (10_state.md R57). -/
def Memory.read : Memory → Nat → Byte
  | [], _ => 0#8
  | (a, b) :: m, k => if a = k then b else Memory.read m k

/-- A cell as the canonical form lists it: a zero byte is not listed. -/
def Memory.cons (k : Nat) (b : Byte) (m : Memory) : Memory := if b = 0#8 then m else (k, b) :: m

/-- The memory with byte `b` at index `k`, in canonical form. -/
def Memory.write : Memory → Nat → Byte → Memory
  | [], k, b => Memory.cons k b []
  | (a, c) :: m, k, b =>
    if k < a then Memory.cons k b ((a, c) :: m)
    else if k = a then Memory.cons k b m
    else (a, c) :: Memory.write m k b

/-- Every listed index is at least `lo`, indices rise strictly and no listed byte is 0. -/
def Memory.wfFrom : Nat → Memory → Bool
  | _, [] => true
  | lo, (a, b) :: m => decide (lo ≤ a) && decide (b ≠ 0#8) && Memory.wfFrom (a + 1) m

/-- The canonical form: equal memories are equal data. -/
def Memory.wf (m : Memory) : Bool := Memory.wfFrom 0 m

/-- Every listed index is below `n`, the size of the buffer. -/
def Memory.below (n : Nat) (m : Memory) : Bool := m.all fun c => decide (c.1 < n)

/-- Byte `t` of a word, little-endian (20_memory.md R72). -/
def wordByte (w : Word32) (t : Nat) : Byte := w.extractLsb' (8 * t) 8

/-- A word from its four bytes, little-endian (20_memory.md R72). -/
def wordOf (b0 b1 b2 b3 : Byte) : Word32 := b3 ++ (b2 ++ (b1 ++ b0))

/-- The word whose first byte has index `k`. -/
def Memory.readWord (m : Memory) (k : Nat) : Word32 :=
  wordOf (m.read k) (m.read (k + 1)) (m.read (k + 2)) (m.read (k + 3))

/-- The memory with the word whose first byte has index `k` replaced. -/
def Memory.writeWord (m : Memory) (k : Nat) (w : Word32) : Memory :=
  (((m.write k (wordByte w 0)).write (k + 1) (wordByte w 1)).write (k + 2) (wordByte w 2)).write
    (k + 3) (wordByte w 3)

/-- The first `n` bytes of a buffer: the message or the context string (10_state.md R39, R40). -/
def Memory.take (m : Memory) (n : Nat) : Bytes := (List.range n).map m.read

/-! ### The command lifecycle -/

/-- Acceptance of a command word (40_control.md R130 (1)). -/
def State.accept (s : State) (w : Word32) : State :=
  { s with cmd := w, busy := true, done := false, err := .ok }

/-- Completion without error (40_control.md R130 (3)), over a state that holds the results. -/
def State.complete (s : State) : State := { s with err := .ok, done := true, busy := false }

/-- TAKING AN EXCEPTION, as this core has it: completion with an error code, which writes ERR, DONE
and BUSY and nothing else (60_exceptions.md R304, R311). -/
def State.completeErr (s : State) (e : ErrCode) : State :=
  { s with err := e, done := true, busy := false }

/-- THE RETURN FROM ONE, as this core has it: the host's acknowledgement, a write of 1s to the W1C
bits of STATUS (10_state.md R45, 60_exceptions.md R312). -/
def State.acknowledge (s : State) (w : Word32) : State :=
  { s with
    done := s.done && !w.getLsbD 1
    accerr := s.accerr && !w.getLsbD 4
    zdiv := s.zdiv && !w.getLsbD 5 }

/-- Reset by RST or by SRST (70_reset_and_hazards.md R341): every piece of the core's state takes its
reset value. MSG_CAP is constant for a core (10_state.md R42), and what the environment does next is
not the core's to reset (log 1). -/
def State.restart (s : State) : State := { State.resetOf s.msgCap with inputs := s.inputs }

/-- The error code of a decoding error (60_exceptions.md R301). -/
def errOfDecode : DecodeError → ErrCode
  | .illegalOpcode => .opc
  | .illegalEncoding => .enc

/-- ERR as STATUS[11:8] holds it (60_exceptions.md R301). -/
def ErrCode.code : ErrCode → BitVec 4
  | .ok => 0#4
  | .opc => 1#4
  | .enc => 2#4
  | .ctx => 3#4
  | .msg => 4#4
  | .ph => 5#4
  | .range => 6#4

end Sys2Proof.Machine
end

