-- ==== Sys2Proof/Machine/Flags.lean ====
section
/-! DEFINITION. The flags and the words that show them: CF, ZDIV, the STATUS and CTRL words and the
interrupt line (10_state.md R43 to R45, R49, 60_exceptions.md R309). -/

namespace Sys2Proof.Machine

/-- CF <- b (10_state.md R44). -/
def State.setCF (s : State) (b : Bool) : State := { s with cf := b }

/-- ZDIV is sticky: a command sets it and never clears it (10_state.md R49). -/
def State.orZDIV (s : State) (b : Bool) : State := { s with zdiv := s.zdiv || b }

/-- STATUS as the host reads it (10_state.md R45). -/
def State.statusWord (s : State) : Word32 :=
  0#20 ++ (s.err.code ++ (0#2 ++ (BitVec.ofBool s.zdiv ++ (BitVec.ofBool s.accerr ++
    (BitVec.ofBool s.tblv ++ (BitVec.ofBool s.cf ++ (BitVec.ofBool s.done ++ BitVec.ofBool s.busy)))))))

/-- CTRL as the host reads it: SRST reads 0 (10_state.md R43). -/
def State.ctrlWord (s : State) : Word32 :=
  0#30 ++ (BitVec.ofBool s.ieAccerr ++ BitVec.ofBool s.ieDone)

/-- CAP as the host reads it (10_state.md R42). -/
def State.capWord (s : State) : Word32 := 0#16 ++ BitVec.ofNat 16 s.msgCap.bytes

/-- The interrupt request line (60_exceptions.md R309). -/
def State.irq (s : State) : Bool := (s.done && s.ieDone) || (s.accerr && s.ieAccerr)

end Sys2Proof.Machine
end

