-- ==== Sys2Proof/Machine/Operands.lean ====
section
/-! DEFINITION. The operand forms: reading and writing the register files (10_state.md R31 to R38),
field and scalar readings of them (R32, R36), little-endian encoding (00_scope.md R13), and the
message and context strings (R39, R40). -/

namespace Sys2Proof.Machine

open Sys2Proof.Config

/-! ### Register files -/

def State.getF (s : State) (i : FReg) : Elem := s.fr[i]
def State.setF (s : State) (i : FReg) (v : Elem) : State := { s with fr := s.fr.set i v }
def State.getP (s : State) (i : PReg) : PointReg := s.pr[i]
def State.setP (s : State) (i : PReg) (v : PointReg) : State := { s with pr := s.pr.set i v }
def State.getS (s : State) (i : SReg) : Str57 := s.sr[i]
def State.setS (s : State) (i : SReg) (v : Str57) : State := { s with sr := s.sr.set i v }
def State.getW (s : State) (i : WReg) : Vector Byte 448 := s.wb[i]
def State.setW (s : State) (i : WReg) (v : Vector Byte 448) : State := { s with wb := s.wb.set i v }

/-- The coordinate COMP names (30_encoding.md R104). -/
def PointReg.get (q : PointReg) : Comp → Elem
  | .x => q.x
  | .y => q.y
  | .z => q.z

/-- The point register with one coordinate replaced, the other two unchanged (43_point.md R205). -/
def PointReg.put (q : PointReg) (c : Comp) (v : Elem) : PointReg :=
  match c with
  | .x => { q with x := v }
  | .y => { q with y := v }
  | .z => { q with z := v }

/-! ### Field values -/

/-- The field element a raw value denotes (10_state.md R32). -/
def fieldVal (v : Elem) : Nat := v.toNat % p

/-- A canonical field value as a register holds it. -/
def elemOf (n : Nat) : Elem := BitVec.ofNat 448 n

/-- A field register read as a field element (41_field.md R140). -/
def State.fval (s : State) (i : FReg) : Nat := fieldVal (s.getF i)

/-- A projective triple of field elements. -/
structure Pt where
  x : Nat
  y : Nat
  z : Nat
  deriving DecidableEq, Repr

/-- A point register read coordinate by coordinate mod p (43_point.md R190). -/
def PointReg.val (q : PointReg) : Pt := ⟨fieldVal q.x, fieldVal q.y, fieldVal q.z⟩

/-- A triple as a point register holds it. -/
def Pt.reg (q : Pt) : PointReg := ⟨elemOf q.x, elemOf q.y, elemOf q.z⟩

/-- A point register read as a triple of field elements. -/
def State.pval (s : State) (i : PReg) : Pt := (s.getP i).val

/-! ### Byte strings and scalars -/

/-- `int_le` (00_scope.md R13). -/
def intLE : Bytes → Nat
  | [] => 0
  | b :: bs => b.toNat + 256 * intLE bs

/-- `le_n` as a list of bytes (00_scope.md R13). -/
def leBytes : Nat → Nat → Bytes
  | 0, _ => []
  | n + 1, v => BitVec.ofNat 8 v :: leBytes n (v / 256)

/-- The 57-byte string of a list of bytes; missing bytes are 0, further bytes are not taken. -/
def str57 (bs : Bytes) : Str57 := Vector.ofFn fun k => bs.getD k.val 0#8

/-- `le_57` (00_scope.md R13). -/
def le57 (v : Nat) : Str57 := str57 (leBytes 57 v)

/-- `sdec`: the integer of bytes 0 to 55; byte 56 is not part of the value (42_scalar.md R170). -/
def sdec (e : Str57) : Nat := intLE (e.toList.take 56)

/-- An SR register read as a scalar (10_state.md R36). -/
def State.sval (s : State) (i : SReg) : Nat := sdec (s.getS i)

/-! ### Message and context -/

/-- The message: MSGBUF[0 .. MSG_LEN−1] (10_state.md R39). -/
def State.message (s : State) : Bytes := s.msgbuf.take s.msgLen.toNat

/-- The context string: CTXBUF[0 .. CTX_LEN−1] (10_state.md R40). -/
def State.context (s : State) : Bytes := s.ctxbuf.take s.ctxLen.toNat

end Sys2Proof.Machine
end

