-- ==== Sys2Proof/Machine/Aperture.lean ====
section
/-! DEFINITION. The host's aperture: the address map, the windows, and what a host read and a host write
do while the core is idle and while it is busy (20_memory.md R70 to R85, 10_state.md R41 to R48). -/

namespace Sys2Proof.Machine

open Sys2Proof.Config

/-- The word an aligned offset names (20_memory.md R73). `j` counts the 32-bit words of one register
or coordinate, `k` is a buffer's byte index. -/
inductive Loc where
  | id
  | cap
  | ctrl
  | status
  | cmd
  | ctxLen
  | msgLen
  | ctxbuf (k : Nat)
  | fr (i : FReg) (j : Nat)
  | pr (i : PReg) (c : Comp) (j : Nat)
  | sr (i : SReg) (j : Nat)
  | wb (i : WReg) (j : Nat)
  | msgbuf (k : Nat)
  | reserved
  deriving DecidableEq, Repr

/-- The control registers (20_memory.md R73). -/
def locateControl (o : Nat) : Loc :=
  match o with
  | 0x00 => .id
  | 0x04 => .cap
  | 0x08 => .ctrl
  | 0x0C => .status
  | 0x10 => .cmd
  | 0x14 => .ctxLen
  | 0x18 => .msgLen
  | _ => .reserved

/-- A slot of the FR window; words 14 and 15 are reserved (20_memory.md R74). -/
def locateFR (o : Nat) : Loc :=
  if o % 64 / 4 < 14 then .fr (Fin.ofNat 16 (o / 64)) (o % 64 / 4) else .reserved

/-- The coordinate at slot 0, 1 or 2 of a point register (20_memory.md R75). -/
def compOfSlot : Nat → Comp
  | 0 => .x
  | 1 => .y
  | _ => .z

/-- A slot of the PR window; words 14 and 15 of each coordinate are reserved (20_memory.md R75). -/
def locatePR (o : Nat) : Loc :=
  if o % 64 / 4 < 14 then .pr (Fin.ofNat 16 (o / 192)) (compOfSlot (o % 192 / 64)) (o % 64 / 4)
  else .reserved

/-- A slot of the SR window; word 15 is reserved (20_memory.md R76). -/
def locateSR (o : Nat) : Loc :=
  if o % 64 / 4 < 15 then .sr (Fin.ofNat 16 (o / 64)) (o % 64 / 4) else .reserved

/-- A slot of the WB windows; bytes 448 to 511 are reserved (20_memory.md R77). -/
def locateWB (o : Nat) : Loc :=
  if o % 512 < 448 then .wb (Fin.ofNat 2 (o / 512)) (o % 512 / 4) else .reserved

/-- The address map of 20_memory.md R73, on an offset that is a multiple of 4. -/
def locate (cap o : Nat) : Loc :=
  if o < 0x100 then locateControl o
  else if o < 0x200 then .ctxbuf (o - 0x100)
  else if o < 0x1000 then .reserved
  else if o < 0x1400 then locateFR (o - 0x1000)
  else if o < 0x2000 then .reserved
  else if o < 0x2C00 then locatePR (o - 0x2000)
  else if o < 0x3000 then .reserved
  else if o < 0x3400 then locateSR (o - 0x3000)
  else if o < 0x3800 then .reserved
  else if o < 0x3C00 then locateWB (o - 0x3800)
  else if o < 0x4000 then .reserved
  else if o < 0x4000 + cap then .msgbuf (o - 0x4000)
  else .reserved

/-- The core's word at an aligned offset. -/
def State.locate (s : State) (off : BitVec 16) : Loc :=
  Sys2Proof.Machine.locate s.msgCap.bytes off.toNat

/-- The words of the CTXBUF, FR, PR, SR, WB and MSGBUF windows, which read 0 while BUSY = 1
(20_memory.md R82). -/
def Loc.isWindow : Loc → Bool
  | .ctxbuf _ | .fr .. | .pr .. | .sr .. | .wb .. | .msgbuf _ => true
  | .id | .cap | .ctrl | .status | .cmd | .ctxLen | .msgLen | .reserved => false

/-- The words whose write is dropped and sets ACCERR while BUSY = 1 (20_memory.md R82). WB windows and
reserved words ignore writes without ACCERR (R77, R80; log 8). -/
def Loc.interlocked : Loc → Bool
  | .cmd | .ctxLen | .msgLen | .ctxbuf _ | .fr .. | .pr .. | .sr .. | .msgbuf _ => true
  | .id | .cap | .ctrl | .status | .wb .. | .reserved => false

/-! ### Words of the windows -/

/-- Word j of a 448-bit value: its bits [32j+31 : 32j] (20_memory.md R72, R74). -/
def elemWord (v : Elem) (j : Nat) : Word32 := v.extractLsb' (32 * j) 32

/-- The value with word j replaced, the other bits unchanged (20_memory.md R74). -/
def setElemWord (v : Elem) (j : Nat) (w : Word32) : Elem :=
  (v &&& ~~~((0xFFFFFFFF#448) <<< (32 * j))) ||| (w.setWidth 448 <<< (32 * j))

/-- Word j of a byte string: bytes 4j to 4j+3; bytes past its end read 0 (20_memory.md R72, R76). -/
def bytesWord (bs : Bytes) (j : Nat) : Word32 :=
  wordOf (bs.getD (4 * j) 0#8) (bs.getD (4 * j + 1) 0#8) (bs.getD (4 * j + 2) 0#8)
    (bs.getD (4 * j + 3) 0#8)

/-- The 57-byte string with word j replaced; bits of word 14 above byte 56 are ignored
(20_memory.md R76). -/
def setStrWord (e : Str57) (j : Nat) (w : Word32) : Str57 :=
  Vector.ofFn fun k => if k.val / 4 = j then wordByte w (k.val % 4) else e[k]

/-- The word at a location of an idle core (20_memory.md R74 to R80, 10_state.md R41 to R48). -/
def State.wordAt (s : State) : Loc → Word32
  | .id => idWord
  | .cap => s.capWord
  | .ctrl => s.ctrlWord
  | .status => s.statusWord
  | .cmd => s.cmd
  | .ctxLen => s.ctxLen.setWidth 32
  | .msgLen => s.msgLen.setWidth 32
  | .ctxbuf k => s.ctxbuf.readWord k
  | .fr i j => elemWord (s.getF i) j
  | .pr i c j => elemWord ((s.getP i).get c) j
  | .sr i j => bytesWord (s.getS i).toList j
  | .wb i j => bytesWord (s.getW i).toList j
  | .msgbuf k => s.msgbuf.readWord k
  | .reserved => 0#32

/-- The word a legal host read returns: window words read 0 while BUSY = 1 (20_memory.md R82).
CTX_LEN and MSG_LEN are registers, not windows, and read back at all times (10_state.md R47, R48;
log 7). -/
def State.hostRead (s : State) (l : Loc) : Word32 :=
  if s.busy && l.isWindow then 0#32 else s.wordAt l

/-- A write to CTRL: bit 31 resets the core and the other bits are then not stored (10_state.md R43,
70_reset_and_hazards.md R341). -/
def State.writeCtrl (s : State) (w : Word32) : State :=
  if w.getLsbD 31 then s.restart
  else { s with ieDone := w.getLsbD 0, ieAccerr := w.getLsbD 1 }

/-- A write taken by an idle core, or to a word that the interlock does not cover: RO words, WB and
reserved words ignore it (20_memory.md R77, R80), a CMD write issues the word (10_state.md R46). -/
def State.storeWord (s : State) (w : Word32) : Loc → State
  | .ctrl => s.writeCtrl w
  | .status => s.acknowledge w
  | .cmd => s.accept w
  | .ctxLen => { s with ctxLen := w.setWidth 16 }
  | .msgLen => { s with msgLen := w.setWidth 16 }
  | .ctxbuf k => { s with ctxbuf := s.ctxbuf.writeWord k w }
  | .fr i j => s.setF i (setElemWord (s.getF i) j w)
  | .pr i c j => s.setP i ((s.getP i).put c (setElemWord ((s.getP i).get c) j w))
  | .sr i j => s.setS i (setStrWord (s.getS i) j w)
  | .msgbuf k => { s with msgbuf := s.msgbuf.writeWord k w }
  | .id | .cap | .wb .. | .reserved => s

/-- A legal host write: dropped with ACCERR while BUSY = 1 where the interlock covers the word
(20_memory.md R82, 60_exceptions.md R307). -/
def State.hostWrite (s : State) (l : Loc) (w : Word32) : State :=
  if s.busy && l.interlocked then { s with accerr := true } else s.storeWord w l

/-- Only an aligned 32-bit access is legal (20_memory.md R71). -/
def legalAccess (width : AccessWidth) (off : BitVec 16) : Bool :=
  decide (width = .w32) && decide (off.toNat % 4 = 0)

/-- One host access; any access that is not legal is answered with a bus error, a read then returning 0,
and changes nothing else (20_memory.md R71, 60_exceptions.md R306). -/
def State.hostAccess (s : State) : HostAccess → State
  | .read width off =>
    if legalAccess width off then { s with resp := .data (s.hostRead (s.locate off)) }
    else { s with resp := .readError 0#32 }
  | .write width off w =>
    if legalAccess width off then { s.hostWrite (s.locate off) w with resp := .done }
    else { s with resp := .writeError }

end Sys2Proof.Machine
end

