-- ==== Sys2Proof/Machine/Control.lean ====
section
/-! DEFINITION. The control commands NOP and ZEROIZE (40_control.md R131, R132). -/

namespace Sys2Proof.Machine

/-- NOP: the lifecycle alone (40_control.md R131). -/
def execNop (s : State) : Host.Outcome State Fault Refusal := .next s.complete

/-- All operand state cleared; TBLV, ZDIV, ACCERR, CTRL and the tables kept (40_control.md R132). -/
def State.zeroize (s : State) : State :=
  { s with
    fr := Vector.replicate 16 0#448
    pr := Vector.replicate 16 ⟨0#448, 0#448, 0#448⟩
    sr := Vector.replicate 16 (Vector.replicate 57 0#8)
    wb := Vector.replicate 2 (Vector.replicate 448 0#8)
    msgbuf := []
    ctxbuf := []
    ctxLen := 0#16
    msgLen := 0#16
    cf := false }

/-- ZEROIZE (40_control.md R132). -/
def execZeroize (s : State) : Host.Outcome State Fault Refusal := .next s.zeroize.complete

end Sys2Proof.Machine
end

