-- ==== Sys2Proof/Machine/FieldUnit.lean ====
section
/-! DEFINITION. The field unit's functions on integer arguments (41_field.md R140 to R151): every result
is exact modular arithmetic reduced to [0, p) (R154). -/

namespace Sys2Proof.Machine

open Sys2Proof.Config

/-- Field addition (41_field.md R142). -/
def fadd (a b : Nat) : Nat := (a + b) % p

/-- Field subtraction: the difference wraps modulo p (41_field.md R143). -/
def fsub (a b : Nat) : Nat := (a + (p - b % p)) % p

/-- Field multiplication (41_field.md R141, R144). -/
def fmul (a b : Nat) : Nat := a * b % p

/-- Field squaring (41_field.md R145). -/
def fsqr (a : Nat) : Nat := a * a % p

/-- Field negation: the negation of 0 is 0 (41_field.md R147). -/
def fneg (a : Nat) : Nat := (p - a % p) % p

/-- The binary exponentiation of `b` by the low `fuel` bits of `e`, times `acc`, mod p. -/
def powLoop : Nat → Nat → Nat → Nat → Nat
  | 0, _, _, acc => acc
  | fuel + 1, b, e, acc => powLoop fuel (b * b % p) (e / 2) (if e % 2 = 1 then acc * b % p else acc)

/-- a^e mod p for an exponent below 2^448. -/
def fpow (a e : Nat) : Nat := powLoop 448 (a % p) e 1

/-- Field inversion: a^(p−2) mod p, which is 0 for 0 (41_field.md R146). -/
def finv (a : Nat) : Nat := fpow a (p - 2)

/-- The side effect of an inversion: ZDIV is set when the input is ≡ 0 (10_state.md R49). -/
def invertsZero (a : Nat) : Bool := a % p = 0

/-- The candidate root u³·v·(u⁵·v³)^((p−3)/4) (41_field.md R151). -/
def sqrtCandidate (u v : Nat) : Nat :=
  let u2 := fsqr u
  let u3 := fmul u2 u
  let u5 := fmul u3 u2
  let v3 := fmul (fsqr v) v
  fmul (fmul u3 v) (fpow (fmul u5 v3) ((p - 3) / 4))

/-- The square root of a ratio: the candidate when v·x² = u (41_field.md R151). -/
def sqrtRatio (u v : Nat) : Option Nat :=
  let x := sqrtCandidate u v
  if fmul v (fsqr x) = u % p then some x else none

end Sys2Proof.Machine
end

