-- ==== Sys2Proof/Machine/Field.lean ====
section
/-! DEFINITION. The field commands (41_field.md R142 to R153). Each reads all its sources before it writes
its destination (10_state.md R37). -/

namespace Sys2Proof.Machine

/-- A field command that writes the field value `v` to FR[d]. -/
def writeField (d : FReg) (v : Nat) (s : State) : Host.Outcome State Fault Refusal :=
  .next (s.setF d (elemOf v)).complete

/-- A raw move into FR[d]. -/
def moveField (d : FReg) (v : Elem) (s : State) : Host.Outcome State Fault Refusal :=
  .next (s.setF d v).complete

/-- FADD (41_field.md R142). -/
def execFadd (d a b : FReg) (s : State) : Host.Outcome State Fault Refusal :=
  writeField d (fadd (s.fval a) (s.fval b)) s

/-- FSUB (41_field.md R143). -/
def execFsub (d a b : FReg) (s : State) : Host.Outcome State Fault Refusal :=
  writeField d (fsub (s.fval a) (s.fval b)) s

/-- FMUL (41_field.md R144). -/
def execFmul (d a b : FReg) (s : State) : Host.Outcome State Fault Refusal :=
  writeField d (fmul (s.fval a) (s.fval b)) s

/-- FSQR (41_field.md R145). -/
def execFsqr (d a : FReg) (s : State) : Host.Outcome State Fault Refusal :=
  writeField d (fsqr (s.fval a)) s

/-- FINV: 0 for an input ≡ 0, which sets ZDIV (41_field.md R146). -/
def execFinv (d a : FReg) (s : State) : Host.Outcome State Fault Refusal :=
  writeField d (finv (s.fval a)) (s.orZDIV (invertsZero (s.fval a)))

/-- FNEG (41_field.md R147). -/
def execFneg (d a : FReg) (s : State) : Host.Outcome State Fault Refusal :=
  writeField d (fneg (s.fval a)) s

/-- FNORM (41_field.md R148). -/
def execFnorm (d a : FReg) (s : State) : Host.Outcome State Fault Refusal :=
  writeField d (s.fval a) s

/-- FMOV: a raw copy (41_field.md R149). -/
def execFmov (d a : FReg) (s : State) : Host.Outcome State Fault Refusal :=
  moveField d (s.getF a) s

/-- FSEL: bit 0 of the raw selector chooses a raw source (41_field.md R150). -/
def execFsel (d a b c : FReg) (s : State) : Host.Outcome State Fault Refusal :=
  moveField d (if (s.getF c).getLsbD 0 then s.getF a else s.getF b) s

/-- The results of FSQRTR: the root and CF = 1, or CF = 0 with the destination unchanged. -/
def State.putRoot (s : State) (d : FReg) : Option Nat → State
  | some x => (s.setF d (elemOf x)).setCF true
  | none => s.setCF false

/-- FSQRTR (41_field.md R151). -/
def execFsqrtr (d u v : FReg) (s : State) : Host.Outcome State Fault Refusal :=
  .next (s.putRoot d (sqrtRatio (s.fval u) (s.fval v))).complete

/-- FISZ (41_field.md R152). -/
def execFisz (a : FReg) (s : State) : Host.Outcome State Fault Refusal :=
  .next (s.setCF (decide (s.fval a = 0))).complete

/-- FLDI: the immediate, zero-extended (41_field.md R153, 30_encoding.md R102). -/
def execFldi (d : FReg) (imm : BitVec 20) (s : State) : Host.Outcome State Fault Refusal :=
  moveField d (imm.setWidth 448) s

end Sys2Proof.Machine
end

