-- ==== Sys2Proof/Machine/PointUnit.lean ====
section
/-! DEFINITION. The point unit's functions: doubling, addition, normalisation and the 57-byte point codec
(43_point.md R191 to R196, 44_scalar_mult.md R247). The formulas run on whatever triples they are
given (R190). -/

namespace Sys2Proof.Machine

open Sys2Proof.Config

/-- The neutral element (00_scope.md R10). -/
def neutral : Pt := ⟨0, 1, 1⟩

/-- The base point (00_scope.md R9). -/
def basePoint : Pt := ⟨baseX, baseY, 1⟩

/-- The doubling function DBL (43_point.md R191). -/
def dbl (q : Pt) : Pt :=
  let b := fsqr (fadd q.x q.y)
  let c := fsqr q.x
  let d := fsqr q.y
  let e := fadd c d
  let h := fsqr q.z
  let j := fsub e (fmul 2 h)
  ⟨fmul (fsub b e) j, fmul e (fsub c d), fmul e j⟩

/-- The addition function ADD(neg, P, R) (43_point.md R192). -/
def add (neg : Bool) (q r : Pt) : Pt :=
  let x1 := if neg then fneg q.x else q.x
  let a := fmul q.z r.z
  let b := fsqr a
  let c := fmul x1 r.x
  let d := fmul q.y r.y
  let e := fmul (fmul curveD c) d
  let f := fsub b e
  let g := fadd b e
  let h := fmul (fadd x1 q.y) (fadd r.x r.y)
  ⟨fmul (fmul a f) (fsub (fsub h c) d), fmul (fmul a g) (fsub d c), fmul f g⟩

/-- The affine-precomputed addition ADDP: Z implicitly 1 (43_point.md R192). -/
def addp (x y : Nat) (r : Pt) : Pt := add false ⟨x, y, 1⟩ r

/-- The affine coordinates (X·finv(Z), Y·finv(Z)) of a triple. -/
def affine (q : Pt) : Nat × Nat :=
  let zi := finv q.z
  (fmul q.x zi, fmul q.y zi)

/-- NORM: the normalised triple, (0, 0, 1) for Z ≡ 0 (44_scalar_mult.md R247). -/
def norm (q : Pt) : Pt :=
  let a := affine q
  ⟨a.1, a.2, 1⟩

/-- The inversion inside ENC or NORM sets ZDIV when Z ≡ 0 (43_point.md R194, 44_scalar_mult.md R247). -/
def Pt.zeroZ (q : Pt) : Bool := invertsZero q.z

/-- Byte 56 of an encoding: the low bit of x in bit 7 (43_point.md R194). -/
def signByte (x : Nat) : Byte := BitVec.ofNat 8 (x % 2 * 128)

/-- The encoding function ENC (43_point.md R194). -/
def enc (q : Pt) : Str57 :=
  let a := affine q
  str57 (leBytes 56 a.2 ++ [signByte a.1])

/-- The check function CHKPT (43_point.md R195). -/
def chkpt (e : Str57) : Bool := e[56] &&& 0x7F#8 = 0#8 && decide (sdec e < p)

/-- The decoding function DECPT (43_point.md R196): the point, or nothing for an invalid encoding. -/
def decpt (e : Str57) (neg : Bool) : Option Pt :=
  if chkpt e then
    let x0 : Nat := (e[56] >>> 7).toNat
    let y := sdec e
    let yy := fsqr y
    match sqrtRatio (fsub 1 yy) (fsub 1 (fmul curveD yy)) with
    | none => none
    | some x =>
      if x0 = 1 ∧ x = 0 then none
      else some ⟨if neg ^^ decide (x0 ≠ x % 2) then fneg x else x, y, 1⟩
  else none

end Sys2Proof.Machine
end

