-- ==== Sys2Proof/Machine/Point.lean ====
section
/-! DEFINITION. The point commands (43_point.md R197 to R208). -/

namespace Sys2Proof.Machine

/-- A command that writes the triple `q` of field values to PR[d]. -/
def writePoint (d : PReg) (q : Pt) (s : State) : Host.Outcome State Fault Refusal :=
  .next (s.setP d q.reg).complete

/-- A raw move into PR[d]. -/
def movePoint (d : PReg) (q : PointReg) (s : State) : Host.Outcome State Fault Refusal :=
  .next (s.setP d q).complete

/-- PDBL (43_point.md R197). -/
def execPdbl (d a : PReg) (s : State) : Host.Outcome State Fault Refusal :=
  writePoint d (dbl (s.pval a)) s

/-- PADD: PR[d] is the accumulator and the destination (43_point.md R198). -/
def execPadd (d a : PReg) (neg : Bool) (s : State) : Host.Outcome State Fault Refusal :=
  writePoint d (add neg (s.pval a) (s.pval d)) s

/-- PADDP: Z of the source is not read (43_point.md R199). -/
def execPaddp (d a : PReg) (s : State) : Host.Outcome State Fault Refusal :=
  writePoint d (addp (fieldVal (s.getP a).x) (fieldVal (s.getP a).y) (s.pval d)) s

/-- PNEG (43_point.md R200). -/
def execPneg (d a : PReg) (s : State) : Host.Outcome State Fault Refusal :=
  writePoint d ⟨fneg (s.pval a).x, (s.pval a).y, (s.pval a).z⟩ s

/-- PCOPY: a raw copy of all three coordinates (43_point.md R201). -/
def execPcopy (d a : PReg) (s : State) : Host.Outcome State Fault Refusal :=
  movePoint d (s.getP a) s

/-- PSETN (43_point.md R202). -/
def execPsetn (d : PReg) (s : State) : Host.Outcome State Fault Refusal :=
  writePoint d neutral s

/-- PEXT: X and Y raw, Z = 1 (43_point.md R203). -/
def execPext (d : PReg) (x y : FReg) (s : State) : Host.Outcome State Fault Refusal :=
  movePoint d ⟨s.getF x, s.getF y, 1#448⟩ s

/-- PGET: one raw coordinate into the field file (43_point.md R204). -/
def execPget (d : FReg) (a : PReg) (c : Comp) (s : State) : Host.Outcome State Fault Refusal :=
  .next (s.setF d ((s.getP a).get c)).complete

/-- PPUT: one raw coordinate from the field file (43_point.md R205). -/
def execPput (d : PReg) (a : FReg) (c : Comp) (s : State) : Host.Outcome State Fault Refusal :=
  movePoint d ((s.getP d).put c (s.getF a)) s

/-- PENC (43_point.md R206). -/
def execPenc (d : SReg) (a : PReg) (s : State) : Host.Outcome State Fault Refusal :=
  .next ((s.setS d (enc (s.pval a))).orZDIV (s.pval a).zeroZ).complete

/-- The results of PDEC: the point and CF = 1, or CF = 0 with the destination unchanged. -/
def State.putDecoded (s : State) (d : PReg) : Option Pt → State
  | some q => (s.setP d q.reg).setCF true
  | none => s.setCF false

/-- PDEC (43_point.md R207). -/
def execPdec (d : PReg) (a : SReg) (neg : Bool) (s : State) : Host.Outcome State Fault Refusal :=
  .next (s.putDecoded d (decpt (s.getS a) neg)).complete

/-- PCHK (43_point.md R208). -/
def execPchk (a : SReg) (s : State) : Host.Outcome State Fault Refusal :=
  .next (s.setCF (chkpt (s.getS a))).complete

end Sys2Proof.Machine
end

