-- ==== Sys2Proof/Machine/ScalarUnit.lean ====
section
/-! DEFINITION. The scalar unit's functions on byte strings (42_scalar.md R170 to R174). -/

namespace Sys2Proof.Machine

open Sys2Proof.Config

/-- `schk`: byte 56 is 0 and the value is below L (42_scalar.md R171). -/
def schk (e : Str57) : Bool := e[56] = 0#8 && decide (sdec e < groupOrder)

/-- `sprune` on the bytes of a hash half; byte 56 of the source is ignored (42_scalar.md R172). -/
def sprune (e : Str57) : Str57 :=
  Vector.ofFn fun k =>
    if k.val = 0 then e[0] &&& 0xFC#8
    else if k.val = 55 then e[55] ||| 0x80#8
    else if k.val = 56 then 0#8
    else e[k]

/-- `sred` on a wide byte string: its value mod L (42_scalar.md R173). -/
def sred (wide : Bytes) : Str57 := le57 (intLE wide % groupOrder)

/-- `scalc`: (r + k·s) mod L (42_scalar.md R174). -/
def scalc (r k t : Str57) : Str57 := le57 ((sdec r + sdec k * sdec t) % groupOrder)

end Sys2Proof.Machine
end

