-- ==== Sys2Proof/Machine/TableUnit.lean ====
section
/-! DEFINITION. The precomputation tables, the wNAF encoder, the comb multiplier and the two-scalar
multiplier (44_scalar_mult.md R230 to R240). -/

namespace Sys2Proof.Machine

open Sys2Proof.Config

/-! ### Tables -/

/-- `f` applied `n` times. -/
def times {α : Type} (f : α → α) : Nat → α → α
  | 0, a => a
  | n + 1, a => times f n (f a)

/-- The first `n` odd multiples of P, given 2P and the multiple to start from. -/
def oddMultiplesFrom (d2 : Pt) : Nat → Pt → List Pt
  | 0, _ => []
  | n + 1, t => t :: oddMultiplesFrom d2 n (add false d2 t)

/-- PRECOMPVAR(P, n) (44_scalar_mult.md R231). -/
def precompVar (q : Pt) (n : Nat) : List Pt := oddMultiplesFrom (dbl q) n q

/-- The base window table (44_scalar_mult.md R232). -/
def buildBtab : Vector PointReg 32 :=
  let t := precompVar basePoint 32
  Vector.ofFn fun j => (t.getD j.val neutral).reg

/-- What the tooth loop of one comb block carries: the sum S, the running point Pt and the doubled teeth. -/
structure CombState where
  sum : Pt
  pt : Pt
  ds : List Pt
  deriving DecidableEq, Repr

/-- One tooth: S − Pt, the doubled tooth, and 17 further doublings (44_scalar_mult.md R233). The 17
doublings that R233 leaves out after the very last tooth change no entry: nothing reads Pt after it. -/
def combTooth (c : CombState) : CombState :=
  let d := dbl c.pt
  ⟨add true c.pt c.sum, times dbl 17 d, c.ds ++ [d]⟩

/-- The five teeth of the block whose first tooth is P (PRECOMP_TEETH, 44_scalar_mult.md R233). -/
def combTeeth (q : Pt) : CombState := times combTooth 5 ⟨neutral, q, []⟩

/-- The 16 signed combinations, each tooth of Ds[0..3] doubling the list (44_scalar_mult.md R233). -/
def combPoints (c : CombState) : List Pt :=
  (c.ds.take 4).foldl (fun q d => q ++ q.map (add false d)) [c.sum]

/-- A projective point as an affine entry of the comb table. -/
def affineEntry (q : Pt) : AffineReg :=
  let a := affine q
  ⟨elemOf a.1, elemOf a.2⟩

/-- One block of the comb table. -/
def combBlock (c : CombState) : Vector AffineReg 16 :=
  let t := combPoints c
  Vector.ofFn fun i => affineEntry (t.getD i.val neutral)

/-- The teeth of the next `n` blocks; the running point carries over from block to block. -/
def combStates : Nat → Pt → List CombState
  | 0, _ => []
  | n + 1, q => combTeeth q :: combStates n (combTeeth q).pt

/-- The comb table: 5 blocks of 16 affine points (44_scalar_mult.md R233). -/
def buildCtab : Vector (Vector AffineReg 16) 5 :=
  let teeth := combStates 5 basePoint
  Vector.ofFn fun b => combBlock (teeth.getD b.val ⟨neutral, neutral, []⟩)

/-- Precompute() (44_scalar_mult.md R230): the tables are built once; later calls change nothing. -/
def State.precompute (s : State) : State :=
  if s.tblv then s else { s with btab := buildBtab, ctab := buildCtab, tblv := true }

/-! ### wNAF -/

/-- The digit of an odd n: n mod 2^w, made negative from 2^(w−1) on; 0 for an even n
(44_scalar_mult.md R236). -/
def wnafDigit (n w : Nat) : Int :=
  if n % 2 = 1 then
    if 2 ^ (w - 1) ≤ n % 2 ^ w then (n % 2 ^ w : Nat) - (2 ^ w : Nat) else (n % 2 ^ w : Nat)
  else 0

/-- The next n: (n − digit) / 2, an exact division (44_scalar_mult.md R236). -/
def wnafNext (n w : Nat) : Nat :=
  if n % 2 = 1 then
    if 2 ^ (w - 1) ≤ n % 2 ^ w then (n - n % 2 ^ w + 2 ^ w) / 2 else (n - n % 2 ^ w) / 2
  else n / 2

/-- The first `fuel` digits; once n is 0 every further digit is 0. -/
def wnafDigits : Nat → Nat → Nat → List Int
  | 0, _, _ => []
  | fuel + 1, n, w => wnafDigit n w :: wnafDigits fuel (wnafNext n w) w

theorem wnafDigits_length (fuel n w : Nat) : (wnafDigits fuel n w).length = fuel := by
  induction fuel generalizing n with
  | zero => rfl
  | succ fuel ih => simp [wnafDigits, ih]

/-- WNAF(n, w): 448 digits (44_scalar_mult.md R236). -/
def wnafList (n w : Nat) : List Int := wnafDigits 448 n w

/-- The digits as WB stores them, one signed byte each (10_state.md R38). -/
def wnafBytes (n w : Nat) : Vector Byte 448 :=
  ⟨⟨(wnafList n w).map (BitVec.ofInt 8)⟩, by simp [wnafList, wnafDigits_length]⟩

/-! ### The comb multiplier -/

/-- LOOKUP(b, i) (44_scalar_mult.md R235), as field values. -/
def lookup (ctab : Vector (Vector AffineReg 16) 5) (b : Fin 5) (i : Fin 16) : Nat × Nat :=
  (fieldVal ctab[b][i].x, fieldVal ctab[b][i].y)

/-- The signed-digit recoding m of a scalar (44_scalar_mult.md R238). -/
def combRecode (k : Nat) : Nat :=
  let k1 := if k % 2 = 1 then k else k + groupOrder
  (k1 + 2 ^ 450) / 2

/-- Bit j of m. -/
def bitOf (m j : Nat) : Nat := m / 2 ^ j % 2

/-- The 5-bit digit of block b in column c (44_scalar_mult.md R238). -/
def combDigit (m c b : Nat) : Nat :=
  bitOf m (c + 18 * (5 * b)) + 2 * bitOf m (c + 18 * (5 * b + 1)) + 4 * bitOf m (c + 18 * (5 * b + 2))
    + 8 * bitOf m (c + 18 * (5 * b + 3)) + 16 * bitOf m (c + 18 * (5 * b + 4))

/-- The table index of a digit: (w XOR (0x1F if sgn = 1 else 0)) AND 15 (44_scalar_mult.md R238). -/
def combIndex (w : Nat) : Fin 16 := Fin.ofNat 16 (if 16 ≤ w then 31 - w else w)

/-- One block of a column: look up, negate x when the digit's sign bit is set, add. -/
def combStep (ctab : Vector (Vector AffineReg 16) 5) (m c : Nat) (r : Pt) (b : Fin 5) : Pt :=
  let w := combDigit m c b.val
  let e := lookup ctab b (combIndex w)
  addp (if 16 ≤ w then fneg e.1 else e.1) e.2 r

/-- The five blocks of one column, in order. -/
def combColumn (ctab : Vector (Vector AffineReg 16) 5) (m c : Nat) (r : Pt) : Pt :=
  [0, 1, 2, 3, 4].foldl (combStep ctab m c) r

/-- The columns from `c` down to 0, with a doubling between two columns. -/
def combLoop (ctab : Vector (Vector AffineReg 16) 5) (m : Nat) : Nat → Pt → Pt
  | 0, r => combColumn ctab m 0 r
  | c + 1, r => combLoop ctab m c (dbl (combColumn ctab m (c + 1) r))

/-- COMB(k) on the comb table given (44_scalar_mult.md R238). -/
def comb (ctab : Vector (Vector AffineReg 16) 5) (k : Nat) : Pt :=
  combLoop ctab (combRecode k) 17 neutral

/-! ### The two-scalar multiplier -/

/-- Add |d|·P with the sign of the digit d from a table of odd multiples; nothing for d = 0
(44_scalar_mult.md R240). -/
def strausAdd (table : List Pt) (d : Int) (r : Pt) : Pt :=
  if d = 0 then r else add (decide (d < 0)) (table.getD ((d.natAbs - 1) / 2) neutral) r

/-- The digit pairs of two digit lists from position 446 down to 0; position 447 holds no digit of a
scalar below 2^446 (44_scalar_mult.md R237, R240). -/
def strausDigits (wb wp : List Int) : List (Int × Int) := ((wb.zip wp).take 447).reverse

/-- Skip the leading positions whose digits are both 0, but not position 0 (44_scalar_mult.md R240). -/
def strausSkip : List (Int × Int) → List (Int × Int)
  | [] => []
  | [d] => [d]
  | d :: e :: ds => if d.1 = 0 ∧ d.2 = 0 then strausSkip (e :: ds) else d :: e :: ds

/-- Both digits of one position. -/
def strausBoth (tb tp : List Pt) (d : Int × Int) (r : Pt) : Pt :=
  strausAdd tp d.2 (strausAdd tb d.1 r)

/-- The positions from the highest down, with a doubling between two positions. -/
def strausLoop (tb tp : List Pt) : List (Int × Int) → Pt → Pt
  | [], r => r
  | [d], r => strausBoth tb tp d r
  | d :: e :: ds, r => strausLoop tb tp (e :: ds) (dbl (strausBoth tb tp d r))

/-- STRAUS(nb, np, P) on the base window table given (44_scalar_mult.md R240). -/
def straus (btab : Vector PointReg 32) (nb np : Nat) (q : Pt) : Pt :=
  strausLoop (btab.toList.map PointReg.val) (precompVar q 8)
    (strausSkip (strausDigits (wnafList nb 7) (wnafList np 5))) neutral

end Sys2Proof.Machine
end

