-- ==== Sys2Proof/Machine/ScalarMult.lean ====
section
/-! DEFINITION. The table and scalar multiplication commands (44_scalar_mult.md R241 to R246). A command
that reads a table runs Precompute() first (R230) and reads the tables of the state it leaves. -/

namespace Sys2Proof.Machine

open Sys2Proof.Config

/-- PRECOMP (44_scalar_mult.md R241). -/
def execPrecomp (s : State) : Host.Outcome State Fault Refusal := .next s.precompute.complete

/-- The table entry PLOOK reads, as a point register (44_scalar_mult.md R242). -/
def State.tableEntry (s : State) : TableEntry → PointReg
  | .comb blk idx => ⟨s.ctab[blk][idx].x, s.ctab[blk][idx].y, 1#448⟩
  | .win idx => s.btab[idx]

/-- PLOOK (44_scalar_mult.md R242). -/
def execPlook (d : PReg) (e : TableEntry) (s : State) : Host.Outcome State Fault Refusal :=
  .next (s.precompute.setP d (s.precompute.tableEntry e)).complete

/-- WNAF: E_ENC for an illegal width, E_RANGE for a scalar of 2^446 or more (44_scalar_mult.md R243). -/
def execWnaf (d : WReg) (a : SReg) (width : Fin 16) (s : State) : Host.Outcome State Fault Refusal :=
  if !legalWidth width then .next (s.completeErr .enc)
  else if scalarRange ≤ s.sval a then .next (s.completeErr .range)
  else .next (s.setW d (wnafBytes (s.sval a) width.val)).complete

/-- COMB on the state's comb table. -/
def State.comb (s : State) (k : Nat) : Pt := Sys2Proof.Machine.comb s.ctab k

/-- SMULB: any value below 2^448; byte 56 is ignored (44_scalar_mult.md R244). -/
def execSmulb (d : PReg) (a : SReg) (s : State) : Host.Outcome State Fault Refusal :=
  let r := s.precompute.comb (s.sval a)
  .next ((s.precompute.setP d (norm r).reg).orZDIV r.zeroZ).complete

/-- SMULSV: E_RANGE for a scalar of 2^446 or more; P is read before PR[d] is written
(44_scalar_mult.md R245). -/
def execSmulsv (d : PReg) (nb np : SReg) (q : PReg) (s : State) : Host.Outcome State Fault Refusal :=
  if scalarRange ≤ s.sval nb ∨ scalarRange ≤ s.sval np then .next (s.completeErr .range)
  else
    let r := straus s.precompute.btab (s.sval nb) (s.sval np) (s.pval q)
    .next ((s.precompute.setP d (norm r).reg).orZDIV r.zeroZ).complete

/-- SMULBXY: the scalar is pruned again; the two destinations must differ (44_scalar_mult.md R246,
30_encoding.md R106). -/
def execSmulbxy (dx dy : FReg) (a : SReg) (s : State) : Host.Outcome State Fault Refusal :=
  if dx = dy then .next (s.completeErr .enc)
  else
    let r := s.precompute.comb (sdec (sprune (s.getS a)))
    .next (((s.precompute.setF dx (elemOf (norm r).x)).setF dy (elemOf (norm r).y)).orZDIV
      r.zeroZ).complete

end Sys2Proof.Machine
end

