-- ==== Sys2Proof/Machine/XofPort.lean ====
section
/-! DEFINITION. The XOF port (45_protocol.md R270): the first n bytes of SHAKE256's output on a byte string.
SHAKE256 is FIPS 202's, which is not in spec/ (log 10): Keccak-f[1600] with rate 136 bytes, the
domain suffix 1111 and pad10*1. PRESUMED, and TESTED against the XOFH vector of 95_test_vectors.md. -/

namespace Sys2Proof.Machine

/-- The five lanes (0, y) to (4, y) of one plane. -/
structure Plane where
  l0 : BitVec 64
  l1 : BitVec 64
  l2 : BitVec 64
  l3 : BitVec 64
  l4 : BitVec 64
  deriving DecidableEq, Repr

/-- A Keccak state: the planes y = 0 to 4. -/
structure Lanes where
  y0 : Plane
  y1 : Plane
  y2 : Plane
  y3 : Plane
  y4 : Plane
  deriving DecidableEq, Repr

def Plane.xor (a b : Plane) : Plane :=
  ⟨a.l0 ^^^ b.l0, a.l1 ^^^ b.l1, a.l2 ^^^ b.l2, a.l3 ^^^ b.l3, a.l4 ^^^ b.l4⟩

/-- A lane rotated left. -/
def rotl (a : BitVec 64) (n : Nat) : BitVec 64 := a.rotateLeft n

/-- theta: every lane xored with the parities of the columns to its left and, rotated, to its right. -/
def theta (a : Lanes) : Lanes :=
  let c := (((a.y0.xor a.y1).xor a.y2).xor a.y3).xor a.y4
  let d : Plane := ⟨c.l4 ^^^ rotl c.l1 1, c.l0 ^^^ rotl c.l2 1, c.l1 ^^^ rotl c.l3 1,
    c.l2 ^^^ rotl c.l4 1, c.l3 ^^^ rotl c.l0 1⟩
  ⟨a.y0.xor d, a.y1.xor d, a.y2.xor d, a.y3.xor d, a.y4.xor d⟩

/-- rho and pi together: lane (x, y), rotated by its offset, moves to (y, 2x + 3y). -/
def rhoPi (a : Lanes) : Lanes where
  y0 := ⟨a.y0.l0, rotl a.y1.l1 44, rotl a.y2.l2 43, rotl a.y3.l3 21, rotl a.y4.l4 14⟩
  y1 := ⟨rotl a.y0.l3 28, rotl a.y1.l4 20, rotl a.y2.l0 3, rotl a.y3.l1 45, rotl a.y4.l2 61⟩
  y2 := ⟨rotl a.y0.l1 1, rotl a.y1.l2 6, rotl a.y2.l3 25, rotl a.y3.l4 8, rotl a.y4.l0 18⟩
  y3 := ⟨rotl a.y0.l4 27, rotl a.y1.l0 36, rotl a.y2.l1 10, rotl a.y3.l2 15, rotl a.y4.l3 56⟩
  y4 := ⟨rotl a.y0.l2 62, rotl a.y1.l3 55, rotl a.y2.l4 39, rotl a.y3.l0 41, rotl a.y4.l1 2⟩

/-- chi on one plane. -/
def chiPlane (b : Plane) : Plane :=
  ⟨b.l0 ^^^ (~~~b.l1 &&& b.l2), b.l1 ^^^ (~~~b.l2 &&& b.l3), b.l2 ^^^ (~~~b.l3 &&& b.l4),
    b.l3 ^^^ (~~~b.l4 &&& b.l0), b.l4 ^^^ (~~~b.l0 &&& b.l1)⟩

def chi (b : Lanes) : Lanes :=
  ⟨chiPlane b.y0, chiPlane b.y1, chiPlane b.y2, chiPlane b.y3, chiPlane b.y4⟩

/-- iota: the round constant on lane (0, 0). -/
def iota (rc : BitVec 64) (a : Lanes) : Lanes :=
  { a with y0 := { a.y0 with l0 := a.y0.l0 ^^^ rc } }

/-- One step of the feedback register that the round constants come from: the polynomial
x^8 + x^6 + x^5 + x^4 + 1, bit i of the byte the coefficient of x^i. -/
def feedback (r : Byte) : Byte :=
  if r.getLsbD 7 then (r <<< 1) ^^^ 0x71#8 else r <<< 1

/-- The register after `n` steps. -/
def feedbackSteps : Nat → Byte → Byte
  | 0, r => r
  | n + 1, r => feedbackSteps n (feedback r)

/-- The successive outputs of the register at the lane bits given. -/
def outputsAt : List Nat → Byte → BitVec 64
  | [], _ => 0#64
  | k :: ks, r => ((BitVec.ofBool (r.getLsbD 0)).setWidth 64 <<< k) ||| outputsAt ks (feedback r)

/-- The round constant that starts at register `r`: its bits 2^j − 1, for j = 0 to 6, are successive
outputs of the register; every other bit is 0. -/
def roundConstant (r : Byte) : BitVec 64 := outputsAt [0, 1, 3, 7, 15, 31, 63] r

/-- `n` rounds, the first with the round constant of register `r`. -/
def keccakRounds : Nat → Byte → Lanes → Lanes
  | 0, _, a => a
  | n + 1, r, a => keccakRounds n (feedbackSteps 7 r) (iota (roundConstant r) (chi (rhoPi (theta a))))

/-- The permutation: 24 rounds. -/
def keccakF (a : Lanes) : Lanes := keccakRounds 24 1#8 a

/-- The rate of SHAKE256 in bytes. -/
def xofRate : Nat := 136

/-- The lane of 8 bytes from byte `8 * i` of a block, little-endian; 0 past the rate. -/
def blockLane (block : Bytes) (i : Nat) : BitVec 64 :=
  BitVec.ofNat 64 (intLE ((block.drop (8 * i)).take 8))

/-- The plane of the lanes from lane `i` of a block. -/
def blockPlane (block : Bytes) (i : Nat) : Plane :=
  ⟨blockLane block i, blockLane block (i + 1), blockLane block (i + 2), blockLane block (i + 3),
    blockLane block (i + 4)⟩

/-- Xor a block of `xofRate` bytes into the state. -/
def xorBlock (a : Lanes) (block : Bytes) : Lanes :=
  ⟨a.y0.xor (blockPlane block 0), a.y1.xor (blockPlane block 5), a.y2.xor (blockPlane block 10),
    a.y3.xor (blockPlane block 15), a.y4.xor (blockPlane block 20)⟩

/-- The all-zero state. -/
def zeroPlane : Plane := ⟨0, 0, 0, 0, 0⟩
def zeroLanes : Lanes := ⟨zeroPlane, zeroPlane, zeroPlane, zeroPlane, zeroPlane⟩

/-- The lanes of a plane in order. -/
def Plane.toList (a : Plane) : List (BitVec 64) := [a.l0, a.l1, a.l2, a.l3, a.l4]

/-- The message with SHAKE256's suffix and padding: a multiple of the rate. -/
def xofPad (m : Bytes) : Bytes :=
  let q := xofRate - m.length % xofRate
  if q = 1 then m ++ [0x9F#8] else m ++ 0x1F#8 :: (List.replicate (q - 2) 0#8 ++ [0x80#8])

/-- Absorb `n` blocks. -/
def absorb : Nat → Bytes → Lanes → Lanes
  | 0, _, a => a
  | n + 1, m, a => absorb n (m.drop xofRate) (keccakF (xorBlock a (m.take xofRate)))

/-- The rate part of the state as bytes. -/
def squeezeBlock (a : Lanes) : Bytes := 
  (a.y0.toList ++ (a.y1.toList ++ (a.y2.toList ++ [a.y3.l0, a.y3.l1]))).flatMap fun l =>
    leBytes 8 l.toNat

/-- Squeeze `n` blocks. -/
def squeeze : Nat → Lanes → Bytes
  | 0, _ => []
  | n + 1, a => squeezeBlock a ++ squeeze n (keccakF a)

/-- XOF(m, n) (45_protocol.md R270). -/
def xof (m : Bytes) (n : Nat) : Bytes :=
  let padded := xofPad m
  let a := absorb (padded.length / xofRate) padded zeroLanes
  (squeeze ((n + xofRate - 1) / xofRate) a).take n

end Sys2Proof.Machine
end

