-- ==== Sys2Proof/Machine/Protocol.lean ====
section
/-! DEFINITION. The protocol commands KEYGEN, SIGN, VERIFY and XOFH (45_protocol.md R270 to R277). Every
hash is one call of the XOF on the concatenation of its inputs (R270). -/

namespace Sys2Proof.Machine

open Sys2Proof.Config

/-- The ASCII bytes of SigEd448 (45_protocol.md R271). -/
def domTag : Bytes := [0x53#8, 0x69#8, 0x67#8, 0x45#8, 0x64#8, 0x34#8, 0x34#8, 0x38#8]

/-- DOM4(ph, ctx) (45_protocol.md R271). -/
def dom4 (ph : Bool) (ctx : Bytes) : Bytes :=
  domTag ++ ([if ph then 1#8 else 0#8] ++ ([BitVec.ofNat 8 ctx.length] ++ ctx))

/-- The first half of a 114-byte string. -/
def lowHalf (h : Bytes) : Str57 := str57 (h.take 57)

/-- The second half of a 114-byte string. -/
def highHalf (h : Bytes) : Str57 := str57 (h.drop 57)

/-- EXPAND(sk): the pruned secret scalar and the nonce prefix (45_protocol.md R273). -/
def expand (sk : Str57) : Str57 × Bytes :=
  let h := xof sk.toList 114
  (sprune (lowHalf h), h.drop 57)

/-- The argument checks of SIGN and VERIFY, in order (45_protocol.md R272). -/
def State.protocolError (s : State) (ph : Bool) : Option ErrCode :=
  if 255 < s.ctxLen.toNat then some .ctx
  else if s.msgCap.bytes < s.msgLen.toNat then some .msg
  else if ph = true ∧ s.msgLen.toNat ≠ 64 then some .ph
  else none

/-- KEYGEN (45_protocol.md R274). -/
def execKeygen (d a : SReg) (s : State) : Host.Outcome State Fault Refusal :=
  let r := s.precompute.comb (sdec (expand (s.getS a)).1)
  .next ((s.precompute.setS d (enc r)).orZDIV r.zeroZ).complete

/-- What SIGN computes: the two halves of the signature, and whether an inversion met Z ≡ 0. -/
structure Signature where
  r : Str57
  t : Str57
  zdiv : Bool
  deriving DecidableEq, Repr

/-- The challenge hash k of signing and verifying (45_protocol.md R275, R276). -/
def State.challenge (s : State) (ph : Bool) (rb pk : Str57) : Str57 :=
  sred (xof (dom4 ph s.context ++ (rb.toList ++ (pk.toList ++ s.message))) 114)

/-- The signature of a state whose tables are built: with PKV = 1 the supplied public key is used
unchecked, else it is recomputed (45_protocol.md R275). -/
def State.signature (s : State) (sk : SReg) (pk : Option SReg) (ph : Bool) : Signature :=
  let e := expand (s.getS sk)
  let q := s.comb (sdec e.1)
  let pkStr := match pk with
    | some c => s.getS c
    | none => enc q
  let nonce := sred (xof (dom4 ph s.context ++ (e.2 ++ s.message)) 114)
  let rPt := s.comb (sdec nonce)
  let rb := enc rPt
  ⟨rb, scalc nonce (s.challenge ph rb pkStr) e.1, rPt.zeroZ || (pk.isNone && q.zeroZ)⟩

/-- SIGN: E_ENC for equal destinations, then the argument checks; on an error nothing but ERR is
written (45_protocol.md R275, 30_encoding.md R106). -/
def execSign (dR dS sk : SReg) (pk : Option SReg) (ph : Bool) (s : State) :
    Host.Outcome State Fault Refusal :=
  if dR = dS then .next (s.completeErr .enc)
  else
    match s.protocolError ph with
    | some e => .next (s.completeErr e)
    | none =>
      let g := s.precompute.signature sk pk ph
      .next (((s.precompute.setS dR g.r).setS dS g.t).orZDIV g.zdiv).complete

/-- The results of VERIFY past its argument checks: an early false result on a malformed R, S or
public key builds no table; else the recomputed R is compared byte for byte (45_protocol.md R276). -/
def State.verified (s : State) (r t pk : SReg) (ph : Bool) : State :=
  if !chkpt (s.getS r) then s.setCF false
  else if !schk (s.getS t) then s.setCF false
  else
    match decpt (s.getS pk) true with
    | none => s.setCF false
    | some a =>
      let k := s.challenge ph (s.getS r) (s.getS pk)
      let q := straus s.precompute.btab (s.sval t) (sdec k) a
      (s.precompute.setCF (decide (enc q = s.getS r))).orZDIV q.zeroZ

/-- VERIFY (45_protocol.md R276). -/
def execVerify (r t pk : SReg) (ph : Bool) (s : State) : Host.Outcome State Fault Refusal :=
  match s.protocolError ph with
  | some e => .next (s.completeErr e)
  | none => .next (s.verified r t pk ph).complete

/-- XOFH: no domain prefix (45_protocol.md R277, 30_encoding.md R106). -/
def execXofh (lo hi : SReg) (s : State) : Host.Outcome State Fault Refusal :=
  if lo = hi then .next (s.completeErr .enc)
  else if s.msgCap.bytes < s.msgLen.toNat then .next (s.completeErr .msg)
  else
    let h := xof s.message 114
    .next ((s.setS lo (lowHalf h)).setS hi (highHalf h)).complete

end Sys2Proof.Machine
end

