-- ==== Sys2Proof/Machine/Scalar.lean ====
section
/-! DEFINITION. The scalar commands (42_scalar.md R171 to R174). -/

namespace Sys2Proof.Machine

/-- A command that writes a 57-byte string to SR[d]. -/
def writeString (d : SReg) (v : Str57) (s : State) : Host.Outcome State Fault Refusal :=
  .next (s.setS d v).complete

/-- SCHK (42_scalar.md R171). -/
def execSchk (a : SReg) (s : State) : Host.Outcome State Fault Refusal :=
  .next (s.setCF (schk (s.getS a))).complete

/-- SPRUNE (42_scalar.md R172). -/
def execSprune (d a : SReg) (s : State) : Host.Outcome State Fault Refusal :=
  writeString d (sprune (s.getS a)) s

/-- SRED: all 114 bytes are used, low half first (42_scalar.md R173). -/
def execSred (d lo hi : SReg) (s : State) : Host.Outcome State Fault Refusal :=
  writeString d (sred ((s.getS lo).toList ++ (s.getS hi).toList)) s

/-- SCALC (42_scalar.md R174). -/
def execScalc (d r k t : SReg) (s : State) : Host.Outcome State Fault Refusal :=
  writeString d (scalc (s.getS r) (s.getS k) (s.getS t)) s

end Sys2Proof.Machine
end

