-- ==== Sys2Proof/Machine/Dispatch.lean ====
section
/-! DEFINITION. One arm per command: the results of a command and its completion. -/

namespace Sys2Proof.Machine

/-- The completion step of a command (40_control.md R130 (2) and (3)). -/
def exec (i : Instr) (s : State) : Host.Outcome State Fault Refusal :=
  match i with
  | .nop => Sys2Proof.Machine.execNop s
  | .zeroize => Sys2Proof.Machine.execZeroize s
  | .fadd d a b => Sys2Proof.Machine.execFadd d a b s
  | .fsub d a b => Sys2Proof.Machine.execFsub d a b s
  | .fmul d a b => Sys2Proof.Machine.execFmul d a b s
  | .fsqr d a => Sys2Proof.Machine.execFsqr d a s
  | .finv d a => Sys2Proof.Machine.execFinv d a s
  | .fneg d a => Sys2Proof.Machine.execFneg d a s
  | .fnorm d a => Sys2Proof.Machine.execFnorm d a s
  | .fmov d a => Sys2Proof.Machine.execFmov d a s
  | .fsel d a b c => Sys2Proof.Machine.execFsel d a b c s
  | .fsqrtr d u v => Sys2Proof.Machine.execFsqrtr d u v s
  | .fisz a => Sys2Proof.Machine.execFisz a s
  | .fldi d imm => Sys2Proof.Machine.execFldi d imm s
  | .schk a => Sys2Proof.Machine.execSchk a s
  | .sprune d a => Sys2Proof.Machine.execSprune d a s
  | .sred d lo hi => Sys2Proof.Machine.execSred d lo hi s
  | .scalc d r k t => Sys2Proof.Machine.execScalc d r k t s
  | .pdbl d a => Sys2Proof.Machine.execPdbl d a s
  | .padd d a neg => Sys2Proof.Machine.execPadd d a neg s
  | .paddp d a => Sys2Proof.Machine.execPaddp d a s
  | .pneg d a => Sys2Proof.Machine.execPneg d a s
  | .pcopy d a => Sys2Proof.Machine.execPcopy d a s
  | .psetn d => Sys2Proof.Machine.execPsetn d s
  | .pext d x y => Sys2Proof.Machine.execPext d x y s
  | .pget d a c => Sys2Proof.Machine.execPget d a c s
  | .pput d a c => Sys2Proof.Machine.execPput d a c s
  | .penc d a => Sys2Proof.Machine.execPenc d a s
  | .pdec d a neg => Sys2Proof.Machine.execPdec d a neg s
  | .pchk a => Sys2Proof.Machine.execPchk a s
  | .precomp => Sys2Proof.Machine.execPrecomp s
  | .plook d e => Sys2Proof.Machine.execPlook d e s
  | .wnaf d a width => Sys2Proof.Machine.execWnaf d a width s
  | .smulb d a => Sys2Proof.Machine.execSmulb d a s
  | .smulsv d nb np q => Sys2Proof.Machine.execSmulsv d nb np q s
  | .smulbxy dx dy a => Sys2Proof.Machine.execSmulbxy dx dy a s
  | .keygen d a => Sys2Proof.Machine.execKeygen d a s
  | .sign dR dS sk pk ph => Sys2Proof.Machine.execSign dR dS sk pk ph s
  | .verify r t pk ph => Sys2Proof.Machine.execVerify r t pk ph s
  | .xofh lo hi => Sys2Proof.Machine.execXofh lo hi s

end Sys2Proof.Machine
end

