-- ==== Sys2Proof/Machine/Controller.lean ====
section
/-! DEFINITION. What the controller does in a step, and the events that 20_memory.md R87 and
60_exceptions.md R303 add to it: the table build shown before the completion, and a host access in
the very step of the completion. -/

namespace Sys2Proof.Machine

/-- The command the controller runs: it decodes the latched word (10_state.md R53, 40_control.md R130). -/
def State.fetch (s : State) : Except DecodeError Instr := decode s.cmd

/-- The controller's step. Busy: it runs the latched command to its completion, and a word that is no
command completes with its encoding error (40_control.md R130, 30_encoding.md R110). Idle: nothing. -/
def State.controllerStep (s : State) : Host.Outcome State Fault Refusal :=
  if s.busy then
    match s.fetch with
    | .ok i => exec i s
    | .error e => .next (s.completeErr (errOfDecode e))
  else .next s

/-- Whether the running command builds or holds the tables at its completion: it then reaches the
point where Precompute() runs (44_scalar_mult.md R230). -/
def State.reachesTables (s : State) : Bool :=
  match s.controllerStep with
  | .next t => s.busy && t.tblv
  | .fault _ => false
  | .refused _ => false

/-- The table build of the running command, shown before its completion (20_memory.md R87). -/
def State.buildEarly (s : State) : State := if s.reachesTables then s.precompute else s

/-- A legal write to STATUS: the acknowledgement of W1C bits (10_state.md R45). -/
def HostAccess.acknowledges (s : State) : HostAccess → Bool
  | .write width off _ => legalAccess width off && decide (s.locate off = .status)
  | .read .. => false

/-- The controller's step with a host access in the same step. The access is performed after the completion
(60_exceptions.md R303), but a write to STATUS before it, so that whatever the completion sets wins
against its being cleared (10_state.md R45, 92_eei_decisions.md D25; log 9). Either way it is performed
entirely before or entirely after (20_memory.md R84). -/
def State.completeWith (s : State) (a : HostAccess) : Host.Outcome State Fault Refusal :=
  if a.acknowledges s then (s.hostAccess a).controllerStep
  else
    match s.controllerStep with
    | .next t => .next (t.hostAccess a)
    | .fault e => .fault e
    | .refused r => .refused r

/-- One scheduled event (70_reset_and_hazards.md R340). -/
def State.perform (s : State) : Input → Host.Outcome State Fault Refusal
  | .rst => .next s.restart
  | .host a => .next (s.hostAccess a)
  | .controller => s.controllerStep
  | .tableBuild => .next s.buildEarly
  | .completionAndHost a => s.completeWith a

/-- The core as the acceptance of the word `w` leaves it, with nothing scheduled before the controller
moves: how an instruction comes to run (log 3). -/
def State.latched (s : State) (w : Word32) : State := { s.accept w with inputs := [] }

end Sys2Proof.Machine
end

