-- ==== Sys2Proof/Machine/Step.lean ====
section
/-! DEFINITION. One step of the machine: one host access, one controller step or one reset
(70_reset_and_hazards.md R340). -/

namespace Sys2Proof.Machine

/-- The next scheduled event happens; with none scheduled the controller moves, so that every accepted
command completes (70_reset_and_hazards.md R349; log 1). -/
def step (s : State) : Host.Outcome State Fault Refusal :=
  match s.inputs with
  | [] => s.controllerStep
  | e :: rest => State.perform { s with inputs := rest } e

/-- The core with the command word `w` accepted and the controller to move next (log 3). -/
def State.withFetchWord (s : State) (nbits w : Nat) : State :=
  s.latched (BitVec.ofNat 32 (w % 2 ^ nbits))

end Sys2Proof.Machine
end

