-- ==== Sys2Proof/Safety.lean ====
section
/-! DEFINITION. What holds of a core in good order, and the terms the statements use: the invariant, what a
command may change and keeps, how it ends, and readings of registers as residues mod p. -/

namespace Sys2Proof.Machine

/-! ### Good order -/

/-- MSGBUF and CTXBUF are in canonical form and hold nothing beyond their sizes (10_state.md R39, R40). -/
def State.buffersWf (s : State) : Bool :=
  s.msgbuf.wf && s.msgbuf.below s.msgCap.bytes && s.ctxbuf.wf && s.ctxbuf.below 256

/-- While TBLV = 1 the tables hold exactly what Precompute() builds (10_state.md R50 to R52). -/
def State.tablesWf (s : State) : Prop := s.tblv = true → s.btab = buildBtab ∧ s.ctab = buildCtab

/-- While a command runs, DONE and ERR are as its acceptance left them (40_control.md R130). -/
def State.lifecycleWf (s : State) : Prop := s.busy = true → s.done = false ∧ s.err = .ok

/-- The invariant that every step keeps. -/
structure State.Inv (s : State) : Prop where
  buffers : s.buffersWf = true
  tables : s.tablesWf
  lifecycle : s.lifecycleWf

/-- A step answers a next state (70_reset_and_hazards.md R349: nothing in the core gets stuck). -/
def safeStep (s : State) : Prop := ∃ t, step s = .next t

/-! ### What a command changes -/

/-- What a command may write (10_state.md R58): the registers named, and the flags and tables marked.
ERR, DONE and BUSY are not named here: `endsWith` says how they end. -/
structure Writes where
  fr : List FReg := []
  pr : List PReg := []
  sr : List SReg := []
  wb : List WReg := []
  cf : Bool := false
  zdiv : Bool := false
  tables : Bool := false
  deriving DecidableEq, Repr

/-- Every register of the four files outside `w` reads as before. -/
def keepsRegisters (w : Writes) (s t : State) : Prop :=
  (∀ i, i ∉ w.fr → t.getF i = s.getF i) ∧ (∀ i, i ∉ w.pr → t.getP i = s.getP i) ∧
    (∀ i, i ∉ w.sr → t.getS i = s.getS i) ∧ (∀ i, i ∉ w.wb → t.getW i = s.getW i)

/-- CF, ZDIV and the table state are as before where `w` does not mark them. -/
def keepsFlags (w : Writes) (s t : State) : Prop :=
  (w.cf = false → t.cf = s.cf) ∧ (w.zdiv = false → t.zdiv = s.zdiv) ∧
    (w.tables = false → t.tblv = s.tblv ∧ t.btab = s.btab ∧ t.ctab = s.ctab)

/-- Every byte of MSGBUF and CTXBUF, and both lengths, are as before. -/
def keepsBuffers (s t : State) : Prop :=
  (∀ k, t.msgbuf.read k = s.msgbuf.read k) ∧ (∀ k, t.ctxbuf.read k = s.ctxbuf.read k) ∧
    t.msgLen = s.msgLen ∧ t.ctxLen = s.ctxLen

/-- CTRL, CMD, MSG_CAP, ACCERR and the model's own fields, which no command writes, are as before. -/
def keepsControl (s t : State) : Prop :=
  t.ieDone = s.ieDone ∧ t.ieAccerr = s.ieAccerr ∧ t.cmd = s.cmd ∧ t.msgCap = s.msgCap ∧
    t.accerr = s.accerr ∧ t.inputs = s.inputs ∧ t.resp = s.resp

/-- The frame of a command that writes `w`. -/
def changesOnly (w : Writes) (s t : State) : Prop :=
  keepsRegisters w s t ∧ keepsFlags w s t ∧ keepsBuffers s t ∧ keepsControl s t

/-- The state of a completion with error code `e` (40_control.md R130 (3)). -/
def endsWith (e : ErrCode) (t : State) : Prop := t.err = e ∧ t.done = true ∧ t.busy = false

/-- The state before a command with ERR, DONE and BUSY replaced: all a command error writes
(60_exceptions.md R304). -/
def errorOf (e : ErrCode) (s : State) : State := { s with err := e, done := true, busy := false }

/-- What a command that uses the tables leaves of them: TBLV = 1, kept where they were built, else built
as 44_scalar_mult.md R232 and R233 say. -/
def tablesReady (s t : State) : Prop :=
  t.tblv = true ∧ (s.tblv = true → t.btab = s.btab ∧ t.ctab = s.ctab) ∧
    (s.tblv = false → t.btab = buildBtab ∧ t.ctab = buildCtab)

/-- The comb table a command of the state `s` reads. -/
def usedCtab (s : State) : Vector (Vector AffineReg 16) 5 := if s.tblv then s.ctab else buildCtab

/-- The base window table a command of the state `s` reads. -/
def usedBtab (s : State) : Vector PointReg 32 := if s.tblv then s.btab else buildBtab

/-! ### Readings -/

/-- A raw value as a residue: the field element it denotes (10_state.md R32). -/
def residue (v : Elem) : ZMod Config.p := (v.toNat : ZMod Config.p)

/-- A canonical field value (00_scope.md R14). -/
def canonical (v : Elem) : Prop := v.toNat < Config.p

/-- A point register with three canonical coordinates. -/
def PointReg.allCanonical (q : PointReg) : Prop := canonical q.x ∧ canonical q.y ∧ canonical q.z

/-- The projective form of the curve equation of 00_scope.md R6, over all of GF(p):
(X² + Y²)·Z² = Z⁴ + d·X²·Y². It holds of the affine point (X/Z, Y/Z) when Z ≢ 0. -/
def onCurve (q : Pt) : Prop :=
  ((q.x : ZMod Config.p) ^ 2 + (q.y : ZMod Config.p) ^ 2) * (q.z : ZMod Config.p) ^ 2 =
    (q.z : ZMod Config.p) ^ 4 +
      (Config.curveD : ZMod Config.p) * (q.x : ZMod Config.p) ^ 2 * (q.y : ZMod Config.p) ^ 2

/-- The words of one opcode: those that `legal` admits decode to `i`, every other one is E_ENC
(30_encoding.md R105, R106). -/
def decodesAs (opc : BitVec 8) (legal : Fields → Prop) (i : Fields → Instr) : Prop :=
  ∀ w : Word32, w.extractLsb' 0 8 = opc →
    (legal (fieldsOf w) → decode w = .ok (i (fieldsOf w))) ∧
      (¬ legal (fieldsOf w) → decode w = .error .illegalEncoding)

/-- Every field that format R leaves unused in a command of operands RD, RA, RB is 0. -/
def unusedDAB (f : Fields) : Prop := f.rc = 0 ∧ f.flg = 0#8

/-- Likewise for operands RD, RA. -/
def unusedDA (f : Fields) : Prop := f.rb = 0 ∧ f.rc = 0 ∧ f.flg = 0#8

/-- Likewise for the operand RA alone. -/
def unusedA (f : Fields) : Prop := f.rd = 0 ∧ f.rb = 0 ∧ f.rc = 0 ∧ f.flg = 0#8

/-- The opcode values that 30_encoding.md R108 lists as illegal. -/
def unmappedOpcode (n : Nat) : Prop :=
  (0x02 ≤ n ∧ n ≤ 0x0F) ∨ (0x1C ≤ n ∧ n ≤ 0x1F) ∨ (0x24 ≤ n ∧ n ≤ 0x2F) ∨ (0x3C ≤ n ∧ n ≤ 0x3F) ∨
    (0x46 ≤ n ∧ n ≤ 0x4F) ∨ (0x54 ≤ n ∧ n ≤ 0xFF)

/-- The registers, flags and tables that 10_state.md R58 lets a command write; ZEROIZE, which writes all
operand state, has a statement of its own. -/
def writesOf : Instr → Writes
  | .fadd d _ _ | .fsub d _ _ | .fmul d _ _ | .fsqr d _ | .fneg d _ | .fnorm d _ | .fmov d _
  | .fsel d _ _ _ | .fldi d _ | .pget d _ _ => { fr := [d] }
  | .finv d _ => { fr := [d], zdiv := true }
  | .fsqrtr d _ _ => { fr := [d], cf := true }
  | .fisz _ | .schk _ | .pchk _ => { cf := true }
  | .sprune d _ | .sred d _ _ | .scalc d _ _ _ => { sr := [d] }
  | .pdbl d _ | .padd d _ _ | .paddp d _ | .pneg d _ | .pcopy d _ | .psetn d | .pext d _ _
  | .pput d _ _ => { pr := [d] }
  | .penc d _ => { sr := [d], zdiv := true }
  | .pdec d _ _ => { pr := [d], cf := true }
  | .precomp => { tables := true }
  | .plook d _ => { pr := [d], tables := true }
  | .wnaf d _ _ => { wb := [d] }
  | .smulb d _ | .smulsv d _ _ _ => { pr := [d], zdiv := true, tables := true }
  | .smulbxy dx dy _ => { fr := [dx, dy], zdiv := true, tables := true }
  | .keygen d _ => { sr := [d], zdiv := true, tables := true }
  | .sign dR dS _ _ _ => { sr := [dR, dS], zdiv := true, tables := true }
  | .verify .. => { cf := true, zdiv := true, tables := true }
  | .xofh lo hi => { sr := [lo, hi] }
  | .nop | .zeroize => {}

/-- The error codes a legal command can end in (60_exceptions.md R302). -/
def errorsOf : Instr → List ErrCode
  | .sign .. | .verify .. => [.ok, .ctx, .msg, .ph]
  | .xofh .. => [.ok, .msg]
  | .wnaf .. | .smulsv .. => [.ok, .range]
  | .nop | .zeroize | .fadd .. | .fsub .. | .fmul .. | .fsqr .. | .finv .. | .fneg .. | .fnorm ..
  | .fmov .. | .fsel .. | .fsqrtr .. | .fisz .. | .fldi .. | .schk .. | .sprune .. | .sred ..
  | .scalc .. | .pdbl .. | .padd .. | .paddp .. | .pneg .. | .pcopy .. | .psetn .. | .pext ..
  | .pget .. | .pput .. | .penc .. | .pdec .. | .pchk .. | .precomp | .plook .. | .smulb ..
  | .smulbxy .. | .keygen .. => [.ok]

/-- The candidate root u³·v·(u⁵·v³)^((p−3)/4) mod p as 41_field.md R151 writes it. -/
def rootCandidate (u v : Nat) : Nat := u ^ 3 * v * (u ^ 5 * v ^ 3) ^ ((Config.p - 3) / 4) % Config.p

/-- a·Z^(p−2) mod p: a coordinate divided by Z, 0 for Z ≡ 0 (41_field.md R146). -/
def dividedBy (a z : Nat) : Nat := a * z ^ (Config.p - 2) % Config.p

/-- W is the width-w non-adjacent form of n, by the properties of 44_scalar_mult.md R237. -/
def isWnaf (n w : Nat) (W : Vector Byte 448) : Prop :=
  (∑ k : Fin 448, W[k].toInt * 2 ^ k.val) = (n : Int) ∧
    (∀ k : Fin 448, W[k] ≠ 0#8 → W[k].toInt % 2 = 1 ∧ W[k].toInt.natAbs ≤ 2 ^ (w - 1) - 1) ∧
    (∀ j k : Fin 448, j < k → k.val < j.val + w → W[j] ≠ 0#8 → W[k] = 0#8)

/-- Protocol arguments that pass the checks of 45_protocol.md R272. -/
def argumentsPass (s : State) (ph : Bool) : Prop :=
  s.ctxLen.toNat ≤ 255 ∧ s.msgLen.toNat ≤ s.msgCap.bytes ∧ (ph = true → s.msgLen.toNat = 64)

/-- The pruned secret scalar and the nonce of `sign`, and its challenge, written from 45_protocol.md R271,
R273 and R275 over the XOF port. -/
def secretScalar (sk : Str57) : Str57 := sprune (str57 ((xof sk.toList 114).take 57))

/-- r of 45_protocol.md R275. -/
def nonceScalar (s : State) (ph : Bool) (sk : Str57) : Str57 :=
  sred (xof (dom4 ph s.context ++ (xof sk.toList 114).drop 57 ++ s.message) 114)

/-- k of 45_protocol.md R275 and R276. -/
def challengeScalar (s : State) (ph : Bool) (r pk : Str57) : Str57 :=
  sred (xof (dom4 ph s.context ++ r.toList ++ pk.toList ++ s.message) 114)

/-- `r` with d·P added for a digit `d`: nothing for 0, else the entry for |d| with the sign of `d`, where
`entry j` is (2j+1)·P (44_scalar_mult.md R240). -/
def addDigit (entry : Nat → Pt) (d : Byte) (r : Pt) : Pt :=
  if d = 0#8 then r else add (decide (d.toInt < 0)) (entry ((d.toInt.natAbs - 1) / 2)) r

/-- The tooth t of block b: 2^(90b+18t)·B by plain doubling (44_scalar_mult.md R233, R234). -/
def tooth (b t : Nat) : Pt := dbl^[90 * b + 18 * t] ⟨Config.baseX, Config.baseY, 1⟩

/-- The points of block b of the comb table before their conversion to affine form, as 44_scalar_mult.md
R233 builds them: entry 0 is minus the five teeth, and each of teeth 0 to 3 doubles the set. -/
def isCombBlock (b : Nat) (q : Nat → Pt) : Prop :=
  q 0 = add true (tooth b 4) (add true (tooth b 3) (add true (tooth b 2) (add true (tooth b 1)
    (add true (tooth b 0) ⟨0, 1, 1⟩)))) ∧
  ∀ t j : Nat, t < 4 → j < 2 ^ t → q (2 ^ t + j) = add false (dbl (tooth b t)) (q j)

/-- The run of COMB over the table `ctab` and the recoded scalar `m` (44_scalar_mult.md R238): `r c b` is
the accumulator in column c before block b. -/
def isCombRun (ctab : Vector (Vector AffineReg 16) 5) (m : Nat) (r : Nat → Nat → Pt) : Prop :=
  r 17 0 = ⟨0, 1, 1⟩ ∧ (∀ c, c < 17 → r c 0 = dbl (r (c + 1) 5)) ∧
  ∀ (c : Nat) (b : Fin 5), c < 18 → ∃ (w : Nat) (idx : Fin 16) (x y : Nat),
    w = ∑ t : Fin 5, bitOf m (c + 18 * (5 * b.val + t.val)) * 2 ^ t.val ∧
    idx.val = (w ^^^ (if w.testBit 4 then 0x1F else 0)) &&& 15 ∧
    x = ctab[b][idx].x.toNat % Config.p ∧ y = ctab[b][idx].y.toNat % Config.p ∧
    r c (b.val + 1) =
      add false ⟨if w.testBit 4 then (Config.p - x) % Config.p else x, y, 1⟩ (r c b.val)

/-- The run of STRAUS from position `top` down, over the digits V of the base point and U of P, with the
odd multiples `tb` of B and `tp` of P (44_scalar_mult.md R240): `r i` is the accumulator after position i. -/
def isStrausRun (tb tp : Nat → Pt) (V U : Vector Byte 448) (top : Nat) (r : Nat → Pt) : Prop :=
  top ≤ 446 ∧ (∀ i : Fin 448, top < i.val → V[i] = 0#8 ∧ U[i] = 0#8) ∧
  (∀ i : Fin 448, i.val = top → top = 0 ∨ V[i] ≠ 0#8 ∨ U[i] ≠ 0#8) ∧
  ∀ i : Fin 448, i.val ≤ top →
    r i.val = addDigit tp U[i] (addDigit tb V[i]
      (if i.val = top then ⟨0, 1, 1⟩ else dbl (r (i.val + 1))))

/-- The words whose write is dropped while BUSY = 1: CMD, CTX_LEN, MSG_LEN and the mapped words of the
CTXBUF, FR, PR, SR and MSGBUF windows (20_memory.md R73 to R79, R82). The reserved words inside a
window follow R80 (log 8). -/
def operandWord (cap o : Nat) : Prop :=
  o % 4 = 0 ∧ (o = 0x10 ∨ o = 0x14 ∨ o = 0x18 ∨ (0x100 ≤ o ∧ o < 0x200) ∨
    (0x1000 ≤ o ∧ o < 0x1400 ∧ o % 64 < 56) ∨ (0x2000 ≤ o ∧ o < 0x2C00 ∧ o % 64 < 56) ∨
    (0x3000 ≤ o ∧ o < 0x3400 ∧ o % 64 < 60) ∨ (0x4000 ≤ o ∧ o < 0x4000 + cap))

/-- The words that read 0 while BUSY = 1: the windows' mapped words, WB's among them (R82). -/
def windowWord (cap o : Nat) : Prop :=
  o % 4 = 0 ∧ ((0x100 ≤ o ∧ o < 0x200) ∨
    (0x1000 ≤ o ∧ o < 0x1400 ∧ o % 64 < 56) ∨ (0x2000 ≤ o ∧ o < 0x2C00 ∧ o % 64 < 56) ∨
    (0x3000 ≤ o ∧ o < 0x3400 ∧ o % 64 < 60) ∨ (0x3800 ≤ o ∧ o < 0x3C00 ∧ o % 512 < 448) ∨
    (0x4000 ≤ o ∧ o < 0x4000 + cap))

/-- The reserved words of the address map (20_memory.md R73 to R77, R80). -/
def reservedWord (cap o : Nat) : Prop :=
  o % 4 = 0 ∧ ((0x1C ≤ o ∧ o < 0x100) ∨ (0x200 ≤ o ∧ o < 0x1000) ∨
    (0x1000 ≤ o ∧ o < 0x1400 ∧ 56 ≤ o % 64) ∨ (0x1400 ≤ o ∧ o < 0x2000) ∨
    (0x2000 ≤ o ∧ o < 0x2C00 ∧ 56 ≤ o % 64) ∨ (0x2C00 ≤ o ∧ o < 0x3000) ∨
    (0x3000 ≤ o ∧ o < 0x3400 ∧ 60 ≤ o % 64) ∨ (0x3400 ≤ o ∧ o < 0x3800) ∨
    (0x3800 ≤ o ∧ o < 0x3C00 ∧ 448 ≤ o % 512) ∨ (0x3C00 ≤ o ∧ o < 0x4000) ∨
    (0x4000 + cap ≤ o ∧ o < 0x10000))

/-- The byte offset of a coordinate inside a PR window slot (20_memory.md R75). -/
def coordinateOffset : Comp → Nat
  | .x => 0
  | .y => 64
  | .z => 128

/-- A legal write to CTRL with bit 31 set: the soft reset (10_state.md R43). -/
def softReset : HostAccess → Prop
  | .write width off w => width = .w32 ∧ off = 0x0008#16 ∧ w.getLsbD 31 = true
  | .read .. => False

/-- A legal write to STATUS with bit `n` set: the acknowledgement of one W1C bit (10_state.md R45). -/
def clearsBit (n : Nat) : HostAccess → Prop
  | .write width off w => width = .w32 ∧ off = 0x000C#16 ∧ w.getLsbD n = true
  | .read .. => False

/-- The host access an event of the schedule carries. -/
def Input.access : Input → Option HostAccess
  | .host a | .completionAndHost a => some a
  | .rst | .controller | .tableBuild => none

/-- A step that resets the core: RST, or the soft reset (70_reset_and_hazards.md R341). -/
def resetEvent (e : Input) : Prop := e = .rst ∨ ∃ a, e.access = some a ∧ softReset a

/-- `t` holds what 10_state.md R57 says after reset, for the capacity `cap`. R57 leaves the contents of the
tables open, so they are not named; the schedule and the port's answer are the model's own fields. -/
def atReset (cap : MsgCap) (t : State) : Prop :=
  t = { State.resetOf cap with btab := t.btab, ctab := t.ctab, inputs := t.inputs, resp := t.resp }

/-- A host read of the word at `off` is answered with `w` and has no other effect (20_memory.md R83). -/
def reads (s : State) (off : BitVec 16) (w : Word32) : Prop :=
  s.hostAccess (.read .w32 off) = { s with resp := .data w }

/-- A host write of `w` at `off` leads to `t` and is answered as taken. -/
def storesTo (s : State) (off : BitVec 16) (w : Word32) (t : State) : Prop :=
  s.hostAccess (.write .w32 off w) = { t with resp := .done }

end Sys2Proof.Machine
end

