-- ==== Sys2Proof/Certificates/Slice0/Obligations.lean ====
section
/-! DEFINITION. The statements for the provers, file by file of spec/. A result statement has as its
conclusion that `exec` answers a next state, and `changesOnly` is its frame. -/

open Sys2Proof Sys2Proof.Machine

/-! ### Encoding (30_encoding.md) -/

/-- 30_encoding.md R107 and 95_test_vectors.md 2.1: words of each family decode to their commands. -/
def Obligations.WordsOfEachFamilyDecode : Prop :=
  decode 0x00000000#32 = .ok .nop ∧ decode 0x00000001#32 = .ok .zeroize ∧
  decode 0xFFFFF61B#32 = .ok (.fldi 6 0xFFFFF#20) ∧ decode 0x02001037#32 = .ok (.pget 0 1 .z) ∧
  decode 0x00000435#32 = .ok (.psetn 4) ∧ decode 0x80000241#32 = .ok (.plook 2 (.win 0)) ∧
  decode 0x00000040#32 = .ok .precomp ∧ decode 0x00321010#32 = .error .illegalEncoding ∧
  decode 0x00021010#32 = .ok (.fadd 0 1 2) ∧ decode 0x00432123#32 = .ok (.scalc 1 2 3 4) ∧
  decode 0x01000054#32 = .error .illegalOpcode ∧ decode 0x01321052#32 = .ok (.verify 1 2 3 true)

/-- Every command a legal word encodes is read back from its word with every operand. -/
def Obligations.DecodeOfEncodeIsTheCommand : Prop :=
  ∀ i : Instr, i.wf = true → decode (encode i) = .ok i

/-- Strict decoding (30_encoding.md R105, R106): a word that decodes is the one word of its command, so no
bit of a legal word is ignored. -/
def Obligations.LegalWordIsTheEncoding : Prop :=
  ∀ (w : Word32) (i : Instr), decode w = .ok i → i.wf = true ∧ encode i = w

/-- 30_encoding.md R108: the illegal opcodes are exactly the ranges listed, whatever the other bits hold,
and such a command ends in E_OPC with no other effect. -/
def Obligations.UnmappedOpcodesEndInEOpc : Prop :=
  (∀ w : Word32, unmappedOpcode (w.extractLsb' 0 8).toNat ↔ decode w = .error .illegalOpcode) ∧
  ∀ s : State, s.busy = true → unmappedOpcode (s.cmd.extractLsb' 0 8).toNat →
    s.controllerStep = .next (errorOf .opc s)

/-! ### Lifecycle and control (40_control.md, 60_exceptions.md) -/

/-- A step runs the decoded command (40_control.md R130): with no event scheduled, a busy core executes
the command its CMD word decodes to, or ends it with its encoding error, and an idle core stays as it
is; a scheduled event happens instead, on the state with that event taken off the schedule (log 1).
`withFetchWord` gives the state in which the next step runs the word (log 3). -/
def Obligations.StepRunsTheDecodedCommand : Prop :=
  (∀ (s : State) (i : Instr), s.inputs = [] → s.busy = true → decode s.cmd = .ok i →
    step s = exec i s) ∧
  (∀ (s : State) (e : DecodeError), s.inputs = [] → s.busy = true → decode s.cmd = .error e →
    step s = .next (errorOf (errOfDecode e) s)) ∧
  (∀ s : State, s.inputs = [] → s.busy = false → step s = .next s) ∧
  (∀ (s : State) (a : HostAccess) (rest : List Input), s.inputs = .host a :: rest →
    step s = .next ({ s with inputs := rest }.hostAccess a)) ∧
  (∀ (s : State) (w : Nat) (i : Instr), decodeTableWord 32 w = some i →
    step (s.withFetchWord 32 w) = exec i (s.withFetchWord 32 w))

/-- 40_control.md R131 and R132: NOP has one legal word and goes through the lifecycle alone; ZEROIZE clears
all operand state and keeps TBLV, ZDIV, ACCERR, CTRL, the tables and the rest. -/
def Obligations.ControlCommands : Prop :=
  ((∀ w : Word32, w.extractLsb' 0 8 = 0x00#8 →
      (w = 0x00000000#32 → decode w = .ok .nop) ∧
        (w ≠ 0x00000000#32 → decode w = .error .illegalEncoding)) ∧
    ∀ s : State, exec .nop s = .next { s with err := .ok, done := true, busy := false }) ∧
  ((∀ w : Word32, w.extractLsb' 0 8 = 0x01#8 →
      (w = 0x00000001#32 → decode w = .ok .zeroize) ∧
        (w ≠ 0x00000001#32 → decode w = .error .illegalEncoding)) ∧
    ∀ s : State, ∃ t, exec .zeroize s = .next t ∧ endsWith .ok t ∧
      (∀ i, t.getF i = 0#448) ∧ (∀ i, t.getP i = ⟨0#448, 0#448, 0#448⟩) ∧
      (∀ i (k : Fin 57), (t.getS i)[k] = 0#8) ∧ (∀ i (k : Fin 448), (t.getW i)[k] = 0#8) ∧
      (∀ k, t.msgbuf.read k = 0#8) ∧ (∀ k, t.ctxbuf.read k = 0#8) ∧
      t.ctxLen = 0#16 ∧ t.msgLen = 0#16 ∧ t.cf = false ∧
      t.tblv = s.tblv ∧ t.btab = s.btab ∧ t.ctab = s.ctab ∧ t.zdiv = s.zdiv ∧ keepsControl s t)

/-- 70_reset_and_hazards.md R349: every accepted command completes, with CMD kept, and every step of the
machine answers a next state. -/
def Obligations.EveryCommandCompletes : Prop :=
  (∀ s : State, s.busy = true →
    ∃ t, s.controllerStep = .next t ∧ t.done = true ∧ t.busy = false ∧ t.cmd = s.cmd) ∧
  ∀ s : State, safeStep s

/-- 60_exceptions.md R304: a command that ends in error writes nothing but ERR, DONE and BUSY. -/
def Obligations.CommandErrorsArePrecise : Prop :=
  ∀ s t : State, s.busy = true → s.controllerStep = .next t → t.err ≠ .ok → t = errorOf t.err s

/-- 60_exceptions.md R302: which errors each command can end in. -/
def Obligations.ErrorsByCommand : Prop :=
  (∀ w : Word32, ¬ unmappedOpcode (w.extractLsb' 0 8).toNat → decode w ≠ .error .illegalOpcode) ∧
  (∀ opc : BitVec 8, ¬ unmappedOpcode opc.toNat → opc ≠ 0x1B#8 →
    ∃ w : Word32, w.extractLsb' 0 8 = opc ∧ decode w = .error .illegalEncoding) ∧
  (∀ w : Word32, w.extractLsb' 0 8 = 0x1B#8 → ∃ i, decode w = .ok i) ∧
  (∀ (i : Instr) (s t : State), i.wf = true → exec i s = .next t → t.err ∈ errorsOf i) ∧
  (∀ e ∈ [ErrCode.ctx, .msg, .ph],
    (∃ s t, exec (.sign 0 1 2 none true) s = .next t ∧ t.err = e) ∧
      (∃ s t, exec (.verify 0 1 2 true) s = .next t ∧ t.err = e)) ∧
  (∃ s t, exec (.xofh 0 1) s = .next t ∧ t.err = .msg) ∧
  (∃ s t, exec (.wnaf 0 0 5) s = .next t ∧ t.err = .range) ∧
  (∃ s t, exec (.smulsv 0 0 1 0) s = .next t ∧ t.err = .range)

/-- 10_state.md R58, the "commands that write" column: every command other than ZEROIZE writes only the
registers, flags and tables of its row, and every byte of the buffers, the lengths and the host's
registers stay as they were. -/
def Obligations.CommandsWriteOnlyTheirOwnState : Prop :=
  ∀ (i : Instr) (s t : State), i ≠ .zeroize → exec i s = .next t → changesOnly (writesOf i) s t

/-- 10_state.md R49: ZDIV is sticky: a step clears it only by a reset or by the host's write of a 1 to
STATUS bit 5. -/
def Obligations.ZeroInversionFlagIsSticky : Prop :=
  ∀ s t : State, s.zdiv = true → step s = .next t → t.zdiv = false →
    ∃ e rest, s.inputs = e :: rest ∧ (resetEvent e ∨ ∃ a, e.access = some a ∧ clearsBit 5 a)

/-- 10_state.md R50 and 20_memory.md R89: once TBLV = 1 a step keeps TBLV and both tables, unless it
resets the core. -/
def Obligations.TableStateIsOneWay : Prop :=
  ∀ s t : State, s.tblv = true → step s = .next t →
    (t.tblv = true ∧ t.btab = s.btab ∧ t.ctab = s.ctab) ∨
      ∃ e rest, s.inputs = e :: rest ∧ resetEvent e

/-- 60_exceptions.md R309: the interrupt line, in terms of the words the host reads, in every state. -/
def Obligations.InterruptLineFormula : Prop :=
  (∀ s : State, s.irq = ((s.statusWord.getLsbD 1 && s.ctrlWord.getLsbD 0) ||
    (s.statusWord.getLsbD 4 && s.ctrlWord.getLsbD 1))) ∧
  ∀ cap : MsgCap, (State.resetOf cap).irq = false

/-- 60_exceptions.md R303, its sentences on simultaneous events, with 10_state.md R45's and
92_eei_decisions.md D25's on W1C bits and 20_memory.md R84 (log 9): a host access in the step of a
completion is performed entirely after the completion, a write to STATUS entirely before it, so that
what the completion sets wins: DONE = 1 after it, and ZDIV where the command sets it. A soft reset in
that step wins over the completion. -/
def Obligations.AccessInTheCompletionStep : Prop :=
  (∀ (s t : State) (a : HostAccess) (rest : List Input), s.busy = true →
    s.inputs = .completionAndHost a :: rest → (∀ w, a ≠ .write .w32 0x000C#16 w) →
    State.controllerStep { s with inputs := rest } = .next t → step s = .next (t.hostAccess a)) ∧
  (∀ (s t : State) (w : Word32) (rest : List Input), s.busy = true →
    s.inputs = .completionAndHost (.write .w32 0x000C#16 w) :: rest →
    State.controllerStep { s with inputs := rest, zdiv := s.zdiv && !w.getLsbD 5 } = .next t →
    t.done = true ∧
      step s = .next { t with accerr := s.accerr && !w.getLsbD 4, resp := .done }) ∧
  (∀ (s : State) (w : Word32) (rest : List Input), w.getLsbD 31 = true →
    s.inputs = .completionAndHost (.write .w32 0x0008#16 w) :: rest →
    ∃ t, step s = .next t ∧ atReset s.msgCap t ∧ t.inputs = rest)

/-! ### Reset (10_state.md R57, 70_reset_and_hazards.md R341) -/

/-- 10_state.md R57, for every message capacity: what each piece of state holds after reset. The contents
of the tables are the model's choice (log 5) and are not stated. -/
def Obligations.ResetValues : Prop :=
  ∀ cap : MsgCap, ∃ s, s = State.resetOf cap ∧
    (∀ i, s.getF i = 0#448) ∧ (∀ i, s.getP i = ⟨0#448, 0#448, 0#448⟩) ∧
    (∀ i (k : Fin 57), (s.getS i)[k] = 0#8) ∧ (∀ i (k : Fin 448), (s.getW i)[k] = 0#8) ∧
    (∀ k, s.msgbuf.read k = 0#8) ∧ (∀ k, s.ctxbuf.read k = 0#8) ∧
    s.wordAt .id = 0x04480001#32 ∧ s.wordAt .cap = BitVec.ofNat 32 cap.bytes ∧
    s.ctrlWord = 0#32 ∧ s.statusWord = 0#32 ∧ s.cmd = 0#32 ∧ s.ctxLen = 0#16 ∧ s.msgLen = 0#16 ∧
    s.tblv = false ∧ s.busy = false ∧ s.irq = false

/-- 70_reset_and_hazards.md R341: RST, and a write of CTRL with bit 31 set whether BUSY is 0 or 1, put
every piece of state at its reset value; a running command leaves no result, no DONE and no IRQ. The
contents of the tables, which R57 leaves open, are not stated. -/
def Obligations.BothResetsRestoreResetState : Prop :=
  (∀ (s : State) (rest : List Input), s.inputs = .rst :: rest →
    ∃ t, step s = .next t ∧ atReset s.msgCap t ∧ t.inputs = rest) ∧
  (∀ (s : State) (w : Word32), w.getLsbD 31 = true →
    ∃ t, storesTo s 0x0008#16 w t ∧ atReset s.msgCap t ∧ t.inputs = s.inputs) ∧
  (∀ (cap : MsgCap) (t : State), atReset cap t →
    t.done = false ∧ t.busy = false ∧ t.tblv = false ∧ t.irq = false)

/-- The invariant holds after reset, whatever the message capacity. -/
def Obligations.InvariantHoldsAfterReset : Prop := ∀ cap : MsgCap, (State.resetOf cap).Inv

/-- Every step of the machine keeps the invariant: the buffers stay in canonical form within their sizes,
the tables hold exactly what Precompute() builds while TBLV = 1 (10_state.md R50), and DONE and ERR stay
0 while a command runs (40_control.md R130). -/
def Obligations.EveryStepKeepsTheInvariant : Prop :=
  ∀ s t : State, s.Inv → step s = .next t → t.Inv

/-! ### The host's aperture (20_memory.md, 10_state.md) -/

/-- 60_exceptions.md R306 and 20_memory.md R71: an access of another width or a misaligned one is answered
with a bus error, a read then returning 0, and changes no state of the core. -/
def Obligations.IllegalAccessIsABusError : Prop :=
  ∀ (s : State) (width : AccessWidth) (off : BitVec 16) (w : Word32),
    width ≠ .w32 ∨ off.toNat % 4 ≠ 0 →
    s.hostAccess (.read width off) = { s with resp := .readError 0#32 } ∧
      s.hostAccess (.write width off w) = { s with resp := .writeError }

/-- 10_state.md R41 to R43: ID and CAP read their constants at all times and ignore writes; CTRL at all
times and after reset. -/
def Obligations.IdentityAndControlRegisters : Prop :=
  (∀ (s : State) (w : Word32),
      reads s 0x0000#16 0x04480001#32 ∧ reads s 0x0004#16 (BitVec.ofNat 32 s.msgCap.bytes) ∧
      s.msgCap.bytes < 2 ^ 16 ∧ storesTo s 0x0000#16 w s ∧ storesTo s 0x0004#16 w s) ∧
  (∀ (s : State) (w : Word32),
      (∃ v, reads s 0x0008#16 v ∧ v.getLsbD 0 = s.ieDone ∧ v.getLsbD 1 = s.ieAccerr ∧
        ∀ k, 2 ≤ k → v.getLsbD k = false) ∧
      (w.getLsbD 31 = false →
        storesTo s 0x0008#16 w { s with ieDone := w.getLsbD 0, ieAccerr := w.getLsbD 1 }) ∧
      (w.getLsbD 31 = true →
        ∃ t, storesTo s 0x0008#16 w t ∧ atReset s.msgCap t ∧ t.inputs = s.inputs)) ∧
  ∀ cap : MsgCap, reads (State.resetOf cap) 0x0008#16 0#32

/-- 10_state.md R45, the layout of STATUS and its W1C bits, at all times; R47 and R48, the register side:
any 16-bit length is stored while the core is idle and is read back. That it reads back while BUSY = 1
too is the model's reading (log 7). -/
def Obligations.StatusAndLengthRegisters : Prop :=
  (∀ (s : State) (w : Word32),
      (∃ v, reads s 0x000C#16 v ∧ v.getLsbD 0 = s.busy ∧ v.getLsbD 1 = s.done ∧ v.getLsbD 2 = s.cf ∧
        v.getLsbD 3 = s.tblv ∧ v.getLsbD 4 = s.accerr ∧ v.getLsbD 5 = s.zdiv ∧
        v.extractLsb' 6 2 = 0#2 ∧ v.extractLsb' 8 4 = s.err.code ∧ v.extractLsb' 12 20 = 0#20) ∧
      ∃ t, storesTo s 0x000C#16 w t ∧
        t.done = (if w.getLsbD 1 then false else s.done) ∧
        t.accerr = (if w.getLsbD 4 then false else s.accerr) ∧
        t.zdiv = (if w.getLsbD 5 then false else s.zdiv) ∧
        t = { s with done := t.done, accerr := t.accerr, zdiv := t.zdiv }) ∧
  (∀ (s : State) (w : Word32),
      reads s 0x0014#16 (BitVec.ofNat 32 s.ctxLen.toNat) ∧
      reads s 0x0018#16 (BitVec.ofNat 32 s.msgLen.toNat) ∧
      (s.busy = false →
        storesTo s 0x0014#16 w { s with ctxLen := w.extractLsb' 0 16 } ∧
        storesTo s 0x0018#16 w { s with msgLen := w.extractLsb' 0 16 }))

/-- 10_state.md R46 and 40_control.md R130 (1): a write of CMD issues the word while BUSY = 0 and is
dropped with ACCERR while BUSY = 1; CMD reads the last accepted word, which no command changes. -/
def Obligations.CommandRegisterIssuesCommands : Prop :=
  (∀ (s : State) (w : Word32), s.busy = false →
    storesTo s 0x0010#16 w { s with cmd := w, busy := true, done := false, err := .ok }) ∧
  (∀ (s : State) (w : Word32), s.busy = true → storesTo s 0x0010#16 w { s with accerr := true }) ∧
  (∀ s : State, reads s 0x0010#16 s.cmd) ∧
  (∀ (i : Instr) (s t : State), exec i s = .next t → t.cmd = s.cmd) ∧
  ∀ cap : MsgCap, reads (State.resetOf cap) 0x0010#16 0x00000000#32

/-- 20_memory.md R74 and R75, while the core is idle: word j of FR[i], and of a coordinate of PR[i] with X
at +0, Y at +64 and Z at +128; words 14 and 15 of each slot are reserved. -/
def Obligations.FieldAndPointWindows : Prop :=
  (∀ (s : State) (i : FReg) (j : Nat) (w : Word32), s.busy = false → j < 16 →
      ∃ off : BitVec 16, off.toNat = 0x1000 + 64 * i.val + 4 * j ∧
        (j < 14 → reads s off ((s.getF i).extractLsb' (32 * j) 32) ∧
          ∃ t, storesTo s off w t ∧ t = s.setF i (t.getF i) ∧
            ∀ b : Nat, (t.getF i).getLsbD b =
              if 32 * j ≤ b ∧ b < 32 * j + 32 then w.getLsbD (b - 32 * j) else (s.getF i).getLsbD b) ∧
        (14 ≤ j → reads s off 0#32 ∧ storesTo s off w s)) ∧
  (∀ (s : State) (i : PReg) (c : Comp) (j : Nat) (w : Word32), s.busy = false → j < 16 →
      ∃ off : BitVec 16,
        off.toNat = 0x2000 + 192 * i.val + coordinateOffset c + 4 * j ∧
        (j < 14 → reads s off (((s.getP i).get c).extractLsb' (32 * j) 32) ∧
          ∃ v : Elem, storesTo s off w (s.setP i ((s.getP i).put c v)) ∧
            ∀ b : Nat, v.getLsbD b =
              if 32 * j ≤ b ∧ b < 32 * j + 32 then w.getLsbD (b - 32 * j)
              else ((s.getP i).get c).getLsbD b) ∧
        (14 ≤ j → reads s off 0#32 ∧ storesTo s off w s))

/-- 20_memory.md R76 and R77: word j of SR[i] holds bytes 4j to 4j+3, the bits above byte 56 and word 15
are reserved; word j of WB[i] holds digits 4j to 4j+3, bytes 448 to 511 are reserved, and at all times
a write is ignored without ACCERR. The windows read and the SR window writes while the core is idle. -/
def Obligations.ScalarAndDigitWindows : Prop :=
  (∀ (s : State) (i : SReg) (j : Nat) (w : Word32), s.busy = false → j < 16 →
      ∃ off : BitVec 16, off.toNat = 0x3000 + 64 * i.val + 4 * j ∧
        (∃ v, reads s off v ∧ ∀ k < 4, wordByte v k =
          if h : 4 * j + k < 57 then (s.getS i)[4 * j + k] else 0#8) ∧
        ∃ t, storesTo s off w t ∧ t = s.setS i (t.getS i) ∧
          ∀ k : Fin 57, (t.getS i)[k] =
            if 4 * j ≤ k.val ∧ k.val < 4 * j + 4 then wordByte w (k.val - 4 * j) else (s.getS i)[k]) ∧
  (∀ (s : State) (i : WReg) (j : Nat) (w : Word32), j < 128 →
      ∃ off : BitVec 16, off.toNat = 0x3800 + 512 * i.val + 4 * j ∧ storesTo s off w s ∧
        (s.busy = false → ∃ v, reads s off v ∧ ∀ k < 4, wordByte v k =
          if h : 4 * j + k < 448 then (s.getW i)[4 * j + k] else 0#8))

/-- 20_memory.md R78 and R79, while the core is idle: a word of MSGBUF or CTXBUF reads its four bytes, and
a write replaces them, leaves every other byte as it was and keeps the buffers in good order. -/
def Obligations.BufferWindows : Prop :=
  ∀ (s : State) (j : Nat) (w : Word32), s.busy = false → s.buffersWf = true →
    (4 * j < s.msgCap.bytes → ∃ off : BitVec 16, off.toNat = 0x4000 + 4 * j ∧
      (∃ v, reads s off v ∧ ∀ k < 4, wordByte v k = s.msgbuf.read (4 * j + k)) ∧
      ∃ t, storesTo s off w t ∧ t = { s with msgbuf := t.msgbuf } ∧ t.buffersWf = true ∧
        ∀ k, t.msgbuf.read k =
          if 4 * j ≤ k ∧ k < 4 * j + 4 then wordByte w (k - 4 * j) else s.msgbuf.read k) ∧
    (4 * j < 256 → ∃ off : BitVec 16, off.toNat = 0x0100 + 4 * j ∧
      (∃ v, reads s off v ∧ ∀ k < 4, wordByte v k = s.ctxbuf.read (4 * j + k)) ∧
      ∃ t, storesTo s off w t ∧ t = { s with ctxbuf := t.ctxbuf } ∧ t.buffersWf = true ∧
        ∀ k, t.ctxbuf.read k =
          if 4 * j ≤ k ∧ k < 4 * j + 4 then wordByte w (k - 4 * j) else s.ctxbuf.read k)

/-- 20_memory.md R80, the reserved offsets of R73 to R77: at all times they read 0 and ignore writes
without ACCERR. That this holds while BUSY = 1 of the reserved words inside a window is the model's
reading of R80 beside R82 (log 8). -/
def Obligations.ReservedWordsReadZero : Prop :=
  ∀ (s : State) (off : BitVec 16) (w : Word32), reservedWord s.msgCap.bytes off.toNat →
    reads s off 0#32 ∧ storesTo s off w s

/-- 20_memory.md R82 on the mapped words (the reserved words inside a window follow R80, log 8): while
BUSY = 1 an operand write is dropped and sets ACCERR, a window reads 0, and ID, CAP, CTRL, STATUS and
the CMD read behave as while BUSY = 0. -/
def Obligations.BusyInterlock : Prop :=
  ∀ (s : State) (off : BitVec 16) (w : Word32), s.busy = true →
    (operandWord s.msgCap.bytes off.toNat → storesTo s off w { s with accerr := true }) ∧
    (windowWord s.msgCap.bytes off.toNat → reads s off 0#32) ∧
    reads s 0x0000#16 0x04480001#32 ∧ reads s 0x0004#16 s.capWord ∧ reads s 0x0008#16 s.ctrlWord ∧
    reads s 0x000C#16 s.statusWord ∧ reads s 0x0010#16 s.cmd ∧
    storesTo s 0x0000#16 w s ∧ storesTo s 0x0004#16 w s ∧
    (w.getLsbD 31 = false →
      storesTo s 0x0008#16 w { s with ieDone := w.getLsbD 0, ieAccerr := w.getLsbD 1 }) ∧
    (w.getLsbD 31 = true → ∃ t, storesTo s 0x0008#16 w t ∧ atReset s.msgCap t ∧ t.inputs = s.inputs) ∧
    storesTo s 0x000C#16 w (s.acknowledge w)

/-- 20_memory.md R86 and 70_reset_and_hazards.md R348: whatever accesses other than a soft reset the host
makes while a command runs, the command leaves the same registers, digits, buffers, CF, tables, ERR and
DONE as if none had been made. -/
def Obligations.HostCannotDisturbARunningCommand : Prop :=
  ∀ (s : State) (l : List HostAccess), s.busy = true → (∀ a ∈ l, ¬ softReset a) →
    ∃ t u, s.controllerStep = .next t ∧ (l.foldl State.hostAccess s).controllerStep = .next u ∧
      u.fr = t.fr ∧ u.pr = t.pr ∧ u.sr = t.sr ∧ u.wb = t.wb ∧ u.msgbuf = t.msgbuf ∧
      u.ctxbuf = t.ctxbuf ∧ u.msgLen = t.msgLen ∧ u.ctxLen = t.ctxLen ∧ u.cf = t.cf ∧
      u.tblv = t.tblv ∧ u.btab = t.btab ∧ u.ctab = t.ctab ∧ u.err = t.err ∧ u.done = t.done ∧
      u.busy = t.busy ∧ u.cmd = t.cmd

/-! ### The field unit (41_field.md) -/

/-- 41_field.md R142, R143, R147 and R148: FADD, FSUB, FNEG and FNORM. -/
def Obligations.FieldSumsAndNegation : Prop :=
  decodesAs 0x10#8 unusedDAB (fun f => .fadd f.rd f.ra f.rb) ∧
  decodesAs 0x11#8 unusedDAB (fun f => .fsub f.rd f.ra f.rb) ∧
  decodesAs 0x15#8 unusedDA (fun f => .fneg f.rd f.ra) ∧
  decodesAs 0x16#8 unusedDA (fun f => .fnorm f.rd f.ra) ∧
  ∀ (d a b : FReg) (s : State),
    (∃ t, exec (.fadd d a b) s = .next t ∧ endsWith .ok t ∧ changesOnly { fr := [d] } s t ∧
      (t.getF d).toNat =
        ((s.getF a).toNat % Config.p + (s.getF b).toNat % Config.p) % Config.p) ∧
    (∃ t, exec (.fsub d a b) s = .next t ∧ endsWith .ok t ∧ changesOnly { fr := [d] } s t ∧
      ((t.getF d).toNat : Int) =
        (((s.getF a).toNat % Config.p : Nat) - ((s.getF b).toNat % Config.p : Nat) : Int) % Config.p) ∧
    (∃ t, exec (.fneg d a) s = .next t ∧ endsWith .ok t ∧ changesOnly { fr := [d] } s t ∧
      (t.getF d).toNat = (Config.p - (s.getF a).toNat % Config.p) % Config.p) ∧
    (∃ t, exec (.fnorm d a) s = .next t ∧ endsWith .ok t ∧ changesOnly { fr := [d] } s t ∧
      (t.getF d).toNat = (s.getF a).toNat % Config.p)

/-- 41_field.md R144 and R145: FMUL and FSQR give the exact product reduced. -/
def Obligations.FieldProducts : Prop :=
  decodesAs 0x12#8 unusedDAB (fun f => .fmul f.rd f.ra f.rb) ∧
  decodesAs 0x13#8 unusedDA (fun f => .fsqr f.rd f.ra) ∧
  ∀ (d a b : FReg) (s : State),
    (∃ t, exec (.fmul d a b) s = .next t ∧ endsWith .ok t ∧ changesOnly { fr := [d] } s t ∧
      (t.getF d).toNat = (s.getF a).toNat * (s.getF b).toNat % Config.p) ∧
    (∃ t, exec (.fsqr d a) s = .next t ∧ endsWith .ok t ∧ changesOnly { fr := [d] } s t ∧
      (t.getF d).toNat = (s.getF a).toNat ^ 2 % Config.p)

/-- 41_field.md R146: FINV writes a^(p−2) mod p, which is 0 for a ≡ 0, and then sets ZDIV. -/
def Obligations.FieldInversion : Prop :=
  decodesAs 0x14#8 unusedDA (fun f => .finv f.rd f.ra) ∧
  ∀ (d a : FReg) (s : State),
    ∃ t, exec (.finv d a) s = .next t ∧ endsWith .ok t ∧
      changesOnly { fr := [d], zdiv := true } s t ∧
      (t.getF d).toNat = ((s.getF a).toNat % Config.p) ^ (Config.p - 2) % Config.p ∧
      ((s.getF a).toNat % Config.p = 0 → t.getF d = 0#448 ∧ t.zdiv = true) ∧
      ((s.getF a).toNat % Config.p ≠ 0 → t.zdiv = s.zdiv)

/-- 41_field.md R149, R150 and R153: FMOV copies the raw value, FLDI loads the zero-extended immediate,
FSEL selects a raw source by bit 0 of the raw selector (its timing is not stated). -/
def Obligations.FieldMovesAndSelect : Prop :=
  (decodesAs 0x17#8 unusedDA (fun f => .fmov f.rd f.ra) ∧
    decodesAs 0x1B#8 (fun _ => True) (fun f => .fldi f.rd f.imm) ∧
    ∀ (d a : FReg) (imm : BitVec 20) (s : State),
      (∃ t, exec (.fmov d a) s = .next t ∧ endsWith .ok t ∧ changesOnly { fr := [d] } s t ∧
        t.getF d = s.getF a) ∧
      (∃ t, exec (.fldi d imm) s = .next t ∧ endsWith .ok t ∧ changesOnly { fr := [d] } s t ∧
        (t.getF d).toNat = imm.toNat)) ∧
  (decodesAs 0x18#8 (fun f => f.flg = 0#8) (fun f => .fsel f.rd f.ra f.rb f.rc) ∧
    ∀ (d a b c : FReg) (s : State),
      ∃ t, exec (.fsel d a b c) s = .next t ∧ endsWith .ok t ∧ changesOnly { fr := [d] } s t ∧
        t.getF d = if (s.getF c).toNat % 2 = 1 then s.getF a else s.getF b)

/-- 41_field.md R151: FSQRTR writes the candidate root and CF = 1 when v·x² = u, else CF = 0 alone. -/
def Obligations.SquareRootOfRatio : Prop :=
  decodesAs 0x19#8 unusedDAB (fun f => .fsqrtr f.rd f.ra f.rb) ∧
  ∀ (d a b : FReg) (s : State),
    ∃ t, exec (.fsqrtr d a b) s = .next t ∧ endsWith .ok t ∧
      ∃ u v x, u = (s.getF a).toNat % Config.p ∧ v = (s.getF b).toNat % Config.p ∧
        x = rootCandidate u v ∧
        (v * x ^ 2 % Config.p = u →
          (t.getF d).toNat = x ∧ t.cf = true ∧ changesOnly { fr := [d], cf := true } s t) ∧
        (v * x ^ 2 % Config.p ≠ u → t.cf = false ∧ changesOnly { cf := true } s t)

/-- 41_field.md R152, 42_scalar.md R171 and 43_point.md R208 with R195: FISZ, SCHK and PCHK write CF alone. -/
def Obligations.ChecksOfRegisters : Prop :=
  (decodesAs 0x1A#8 unusedA (fun f => .fisz f.ra) ∧
    ∀ (a : FReg) (s : State),
      ∃ t, exec (.fisz a) s = .next t ∧ endsWith .ok t ∧ changesOnly { cf := true } s t ∧
        (t.cf = true ↔ (s.getF a).toNat % Config.p = 0)) ∧
  (decodesAs 0x20#8 unusedA (fun f => .schk f.ra) ∧
    ∀ (a : SReg) (s : State),
      ∃ t, exec (.schk a) s = .next t ∧ endsWith .ok t ∧ changesOnly { cf := true } s t ∧
        (t.cf = true ↔ (s.getS a)[56] = 0#8 ∧ sdec (s.getS a) < Config.groupOrder)) ∧
  (decodesAs 0x3B#8 unusedA (fun f => .pchk f.ra) ∧
    ∀ (a : SReg) (s : State),
      ∃ t, exec (.pchk a) s = .next t ∧ endsWith .ok t ∧ changesOnly { cf := true } s t ∧
        (t.cf = true ↔ (s.getS a)[56] &&& 0x7F#8 = 0#8 ∧ sdec (s.getS a) < Config.p))

/-! ### The scalar unit (42_scalar.md) -/

/-- 42_scalar.md R172: SPRUNE byte by byte, the range of its result, and pruning twice. -/
def Obligations.ScalarPrune : Prop :=
  decodesAs 0x21#8 unusedDA (fun f => .sprune f.rd f.ra) ∧
  (∀ (d a : SReg) (s : State),
    ∃ t, exec (.sprune d a) s = .next t ∧ endsWith .ok t ∧ changesOnly { sr := [d] } s t ∧
      (t.getS d)[0] = (s.getS a)[0] &&& 0xFC#8 ∧ (t.getS d)[55] = (s.getS a)[55] ||| 0x80#8 ∧
      (t.getS d)[56] = 0#8 ∧
      (∀ k : Fin 57, 1 ≤ k.val → k.val ≤ 54 → (t.getS d)[k] = (s.getS a)[k]) ∧
      2 ^ 447 ≤ sdec (t.getS d) ∧ sdec (t.getS d) < 2 ^ 448 ∧ sdec (t.getS d) % 4 = 0) ∧
  ∀ e : Str57, sprune (sprune e) = sprune e

/-- 42_scalar.md R173 and R174: SRED and SCALC reduce exactly and write a canonical scalar. -/
def Obligations.ScalarReductions : Prop :=
  decodesAs 0x22#8 unusedDAB (fun f => .sred f.rd f.ra f.rb) ∧
  decodesAs 0x23#8 (fun f => f.flg = 0#8) (fun f => .scalc f.rd f.ra f.rb f.rc) ∧
  ∀ (d a b c : SReg) (s : State),
    (∃ t, exec (.sred d a b) s = .next t ∧ endsWith .ok t ∧ changesOnly { sr := [d] } s t ∧
      (t.getS d)[56] = 0#8 ∧
      sdec (t.getS d) =
        intLE ((s.getS a).toList ++ (s.getS b).toList) % Config.groupOrder) ∧
    (∃ t, exec (.scalc d a b c) s = .next t ∧ endsWith .ok t ∧ changesOnly { sr := [d] } s t ∧
      (t.getS d)[56] = 0#8 ∧
      sdec (t.getS d) =
        (sdec (s.getS a) + sdec (s.getS b) * sdec (s.getS c)) % Config.groupOrder)

/-! ### The point unit (43_point.md) -/

/-- 43_point.md R197 with R191: PDBL, in GF(p), on whatever triple the register holds. -/
def Obligations.PointDoubling : Prop :=
  decodesAs 0x30#8 unusedDA (fun f => .pdbl f.rd f.ra) ∧
  ∀ (d a : PReg) (s : State),
    ∃ t, exec (.pdbl d a) s = .next t ∧ endsWith .ok t ∧ changesOnly { pr := [d] } s t ∧
      (t.getP d).allCanonical ∧
      ∃ X Y Z B C D E H J : ZMod Config.p,
        X = residue (s.getP a).x ∧ Y = residue (s.getP a).y ∧ Z = residue (s.getP a).z ∧
        B = (X + Y) ^ 2 ∧ C = X ^ 2 ∧ D = Y ^ 2 ∧ E = C + D ∧ H = Z ^ 2 ∧ J = E - 2 * H ∧
        residue (t.getP d).x = (B - E) * J ∧ residue (t.getP d).y = E * (C - D) ∧
        residue (t.getP d).z = E * J

/-- 43_point.md R198 and R199 with R192: PADD adds PR[a], negated when NEG = 1, into the accumulator PR[d];
PADDP takes Z1 = 1. -/
def Obligations.PointAdditions : Prop :=
  decodesAs 0x31#8 (fun f => f.rb = 0 ∧ f.rc = 0 ∧ f.flg.extractLsb' 1 7 = 0#7)
    (fun f => .padd f.rd f.ra (f.flg.getLsbD 0)) ∧
  decodesAs 0x32#8 unusedDA (fun f => .paddp f.rd f.ra) ∧
  ∀ (d a : PReg) (neg affine : Bool) (s : State),
    ∃ t, (if affine then exec (.paddp d a) s else exec (.padd d a neg) s) = .next t ∧
      endsWith .ok t ∧ changesOnly { pr := [d] } s t ∧ (t.getP d).allCanonical ∧
      ∃ X1 Y1 Z1 X2 Y2 Z2 A B C D E F G H : ZMod Config.p,
        X1 = (if neg && !affine then -residue (s.getP a).x else residue (s.getP a).x) ∧
        Y1 = residue (s.getP a).y ∧ Z1 = (if affine then 1 else residue (s.getP a).z) ∧
        X2 = residue (s.getP d).x ∧ Y2 = residue (s.getP d).y ∧ Z2 = residue (s.getP d).z ∧
        A = Z1 * Z2 ∧ B = A ^ 2 ∧ C = X1 * X2 ∧ D = Y1 * Y2 ∧
        E = -39081 * C * D ∧ F = B - E ∧ G = B + E ∧ H = (X1 + Y1) * (X2 + Y2) ∧
        residue (t.getP d).x = A * F * (H - C - D) ∧ residue (t.getP d).y = A * G * (D - C) ∧
        residue (t.getP d).z = F * G

/-- 43_point.md R200 to R205: the raw moves PCOPY, PEXT, PGET and PPUT, PSETN, and PNEG. -/
def Obligations.PointMovesAndNegation : Prop :=
  (decodesAs 0x34#8 unusedDA (fun f => .pcopy f.rd f.ra) ∧
    decodesAs 0x35#8 (fun f => f.ra = 0 ∧ f.rb = 0 ∧ f.rc = 0 ∧ f.flg = 0#8) (fun f => .psetn f.rd) ∧
    decodesAs 0x36#8 unusedDAB (fun f => .pext f.rd f.ra f.rb) ∧
    (∀ w : Word32, ∀ c : Comp, w.extractLsb' 0 8 = 0x37#8 →
      ((fieldsOf w).rb = 0 ∧ (fieldsOf w).rc = 0 ∧
        (fieldsOf w).flg = (match c with | .x => 0#8 | .y => 1#8 | .z => 2#8) →
        decode w = .ok (.pget (fieldsOf w).rd (fieldsOf w).ra c)) ∧
      (¬ ((fieldsOf w).rb = 0 ∧ (fieldsOf w).rc = 0 ∧ (fieldsOf w).flg.toNat < 3) →
        decode w = .error .illegalEncoding)) ∧
    (∀ w : Word32, ∀ c : Comp, w.extractLsb' 0 8 = 0x38#8 →
      ((fieldsOf w).rb = 0 ∧ (fieldsOf w).rc = 0 ∧
        (fieldsOf w).flg = (match c with | .x => 0#8 | .y => 1#8 | .z => 2#8) →
        decode w = .ok (.pput (fieldsOf w).rd (fieldsOf w).ra c)) ∧
      (¬ ((fieldsOf w).rb = 0 ∧ (fieldsOf w).rc = 0 ∧ (fieldsOf w).flg.toNat < 3) →
        decode w = .error .illegalEncoding)) ∧
    ∀ (d a : PReg) (f g : FReg) (s : State),
      (∃ t, exec (.pcopy d a) s = .next t ∧ endsWith .ok t ∧ changesOnly { pr := [d] } s t ∧
        t.getP d = s.getP a) ∧
      (∃ t, exec (.psetn d) s = .next t ∧ endsWith .ok t ∧ changesOnly { pr := [d] } s t ∧
        t.getP d = ⟨0#448, 1#448, 1#448⟩) ∧
      (∃ t, exec (.pext d f g) s = .next t ∧ endsWith .ok t ∧ changesOnly { pr := [d] } s t ∧
        t.getP d = ⟨s.getF f, s.getF g, 1#448⟩) ∧
      (∃ t, exec (.pget f a .x) s = .next t ∧ endsWith .ok t ∧ changesOnly { fr := [f] } s t ∧
        t.getF f = (s.getP a).x) ∧
      (∃ t, exec (.pget f a .y) s = .next t ∧ endsWith .ok t ∧ changesOnly { fr := [f] } s t ∧
        t.getF f = (s.getP a).y) ∧
      (∃ t, exec (.pget f a .z) s = .next t ∧ endsWith .ok t ∧ changesOnly { fr := [f] } s t ∧
        t.getF f = (s.getP a).z) ∧
      (∃ t, exec (.pput d f .x) s = .next t ∧ endsWith .ok t ∧ changesOnly { pr := [d] } s t ∧
        t.getP d = ⟨s.getF f, (s.getP d).y, (s.getP d).z⟩) ∧
      (∃ t, exec (.pput d f .y) s = .next t ∧ endsWith .ok t ∧ changesOnly { pr := [d] } s t ∧
        t.getP d = ⟨(s.getP d).x, s.getF f, (s.getP d).z⟩) ∧
      (∃ t, exec (.pput d f .z) s = .next t ∧ endsWith .ok t ∧ changesOnly { pr := [d] } s t ∧
        t.getP d = ⟨(s.getP d).x, (s.getP d).y, s.getF f⟩)) ∧
  (decodesAs 0x33#8 unusedDA (fun f => .pneg f.rd f.ra) ∧
    ∀ (d a : PReg) (s : State),
      ∃ t, exec (.pneg d a) s = .next t ∧ endsWith .ok t ∧ changesOnly { pr := [d] } s t ∧
        (t.getP d).x.toNat = (Config.p - (s.getP a).x.toNat % Config.p) % Config.p ∧
        (t.getP d).y.toNat = (s.getP a).y.toNat % Config.p ∧
        (t.getP d).z.toNat = (s.getP a).z.toNat % Config.p)

/-- 43_point.md R194 with PENC (R206): the affine y in bytes 0 to 55, the parity of the affine x in bit 7
of byte 56, 57 zero bytes and ZDIV for Z ≡ 0. -/
def Obligations.PointEncoding : Prop :=
  decodesAs 0x39#8 unusedDA (fun f => .penc f.rd f.ra) ∧
  ∀ (d : SReg) (a : PReg) (s : State),
    ∃ t, exec (.penc d a) s = .next t ∧ endsWith .ok t ∧
      changesOnly { sr := [d], zdiv := true } s t ∧
      ∃ x y z, z = (s.getP a).z.toNat % Config.p ∧
        x = dividedBy ((s.getP a).x.toNat % Config.p) z ∧
        y = dividedBy ((s.getP a).y.toNat % Config.p) z ∧
        sdec (t.getS d) = y ∧ (t.getS d)[56] = (if x % 2 = 1 then 0x80#8 else 0x00#8) ∧
        (z = 0 → (∀ k : Fin 57, (t.getS d)[k] = 0#8) ∧ t.zdiv = true) ∧
        (z ≠ 0 → t.zdiv = s.zdiv)

/-- 43_point.md R196 with PDEC (R207): the tests in their order, the root of the parity asked for, its
negation for NEG = 1; on a failure only CF is written. -/
def Obligations.PointDecoding : Prop :=
  decodesAs 0x3A#8 (fun f => f.rb = 0 ∧ f.rc = 0 ∧ f.flg.extractLsb' 1 7 = 0#7)
    (fun f => .pdec f.rd f.ra (f.flg.getLsbD 0)) ∧
  ∀ (d : PReg) (a : SReg) (neg : Bool) (s : State),
    ∃ t, exec (.pdec d a neg) s = .next t ∧ endsWith .ok t ∧
      ∃ (e : Str57) (y u v x : Nat) (x0 : Bool) (ok : Prop),
        e = s.getS a ∧ y = sdec e ∧ x0 = (e[56]).getLsbD 7 ∧
        (u : Int) = (1 - (y : Int) ^ 2) % Config.p ∧ v = (1 + 39081 * y ^ 2) % Config.p ∧
        x = rootCandidate u v ∧
        (ok ↔ e[56] &&& 0x7F#8 = 0#8 ∧ y < Config.p ∧ v * x ^ 2 % Config.p = u ∧
          ¬ (x0 = true ∧ x = 0)) ∧
        (¬ ok → t.cf = false ∧ changesOnly { cf := true } s t) ∧
        (ok → t.cf = true ∧ changesOnly { pr := [d], cf := true } s t ∧
          (t.getP d).y.toNat = y ∧ (t.getP d).z = 1#448 ∧
          (t.getP d).x.toNat =
            if xor neg (decide ((x % 2 = 1) ≠ (x0 = true))) = true then (Config.p - x) % Config.p
            else x)

/-- 43_point.md R193, its part that the formulas stay on the curve: PDBL, PADD, PNEG and PSETN leave a point
of the curve (in projective form) where their sources are points of the curve. -/
def Obligations.PointCommandsStayOnTheCurve : Prop :=
  (∀ (d a : PReg) (s : State), onCurve (s.pval a) →
    ∃ t, exec (.pdbl d a) s = .next t ∧ onCurve (t.pval d)) ∧
  (∀ (d a : PReg) (neg : Bool) (s : State), onCurve (s.pval a) → onCurve (s.pval d) →
    ∃ t, exec (.padd d a neg) s = .next t ∧ onCurve (t.pval d)) ∧
  (∀ (d a : PReg) (s : State), onCurve (s.pval a) →
    ∃ t, exec (.pneg d a) s = .next t ∧ onCurve (t.pval d)) ∧
  (∀ (d : PReg) (s : State), ∃ t, exec (.psetn d) s = .next t ∧ onCurve (t.pval d))

/-- 43_point.md R196: a point that PDEC accepts lies on the curve and has the encoded y; with NEG = 0 its
x has the encoded parity unless x = 0, and NEG = 1 gives the negation of the point of NEG = 0. -/
def Obligations.DecodedPointIsOnTheCurve : Prop :=
  ∀ (d : PReg) (a : SReg) (s : State),
    ∃ t n, exec (.pdec d a false) s = .next t ∧ exec (.pdec d a true) s = .next n ∧ n.cf = t.cf ∧
      (t.cf = true →
        onCurve (t.pval d) ∧ (t.pval d).y = sdec (s.getS a) ∧ (t.pval d).z = 1 ∧
        ((t.pval d).x ≠ 0 → ((t.pval d).x % 2 = 1 ↔ ((s.getS a)[56]).getLsbD 7 = true)) ∧
        onCurve (n.pval d) ∧ (n.pval d).y = (t.pval d).y ∧ (n.pval d).z = 1 ∧
        ((n.pval d).x + (t.pval d).x) % Config.p = 0)

/-- What the core writes passes its own checks: PCHK accepts every encoding PENC writes, SCHK every scalar
SRED and SCALC write (43_point.md R194, R195, 42_scalar.md R171, R173, R174). -/
def Obligations.ChecksAcceptWhatTheCoreWrites : Prop :=
  (∀ (d : SReg) (a : PReg) (s : State),
    ∃ t u, exec (.penc d a) s = .next t ∧ exec (.pchk d) t = .next u ∧ u.cf = true) ∧
  (∀ (d a b : SReg) (s : State),
    ∃ t u, exec (.sred d a b) s = .next t ∧ exec (.schk d) t = .next u ∧ u.cf = true) ∧
  (∀ (d a b c : SReg) (s : State),
    ∃ t u, exec (.scalc d a b c) s = .next t ∧ exec (.schk d) t = .next u ∧ u.cf = true)

/-! ### Tables, wNAF and scalar multiplication (44_scalar_mult.md) -/

/-- 44_scalar_mult.md R241 and R242: PRECOMP builds the tables once; PLOOK reads an entry of either table,
building them first. -/
def Obligations.PrecompAndTableLookup : Prop :=
  ((∀ w : Word32, w.extractLsb' 0 8 = 0x40#8 →
      (w = 0x00000040#32 → decode w = .ok .precomp) ∧
        (w ≠ 0x00000040#32 → decode w = .error .illegalEncoding)) ∧
    ∀ s : State, ∃ t, exec .precomp s = .next t ∧ endsWith .ok t ∧
      changesOnly { tables := true } s t ∧ tablesReady s t) ∧
  ((∀ (d : PReg) (b : Fin 5) (i : Fin 16) (s : State),
      ∃ t, exec (.plook d (.comb b i)) s = .next t ∧ endsWith .ok t ∧
        changesOnly { pr := [d], tables := true } s t ∧ tablesReady s t ∧
        t.getP d = ⟨(usedCtab s)[b][i].x, (usedCtab s)[b][i].y, 1#448⟩) ∧
    (∀ (d : PReg) (i : Fin 32) (s : State),
      ∃ t, exec (.plook d (.win i)) s = .next t ∧ endsWith .ok t ∧
        changesOnly { pr := [d], tables := true } s t ∧ tablesReady s t ∧
        t.getP d = (usedBtab s)[i]))

/-- 44_scalar_mult.md R232 with R231: the base window table holds B and, from there on, sums with 2B.
R233: the comb table holds, block by block, the affine forms of the points built from the teeth, each
with Z ≢ 0. Every entry of both is canonical and on the curve. -/
def Obligations.WindowAndCombTables : Prop :=
  buildBtab[0] = ⟨BitVec.ofNat 448 Config.baseX, BitVec.ofNat 448 Config.baseY, 1#448⟩ ∧
  (∀ (j : Nat) (h : j + 1 < 32),
    (buildBtab[j + 1]).val = add false (dbl ⟨Config.baseX, Config.baseY, 1⟩) (buildBtab[j]).val) ∧
  (∀ j : Fin 32, (buildBtab[j]).allCanonical ∧ onCurve (buildBtab[j]).val) ∧
  ∀ b : Fin 5, ∃ q : Nat → Pt, isCombBlock b.val q ∧
    ∀ i : Fin 16, (q i.val).z % Config.p ≠ 0 ∧
      (buildCtab[b][i]).x.toNat = dividedBy (q i.val).x (q i.val).z ∧
      (buildCtab[b][i]).y.toNat = dividedBy (q i.val).y (q i.val).z ∧
      canonical (buildCtab[b][i]).x ∧ canonical (buildCtab[b][i]).y ∧
      onCurve ⟨(buildCtab[b][i]).x.toNat, (buildCtab[b][i]).y.toNat, 1⟩

/-- 44_scalar_mult.md R243 with R237: WNAF writes digits that sum to the scalar, odd, bounded and sparse,
with none at position 447; a scalar of 2^446 or more ends in E_RANGE. A width outside 2..8 is no legal
word; a term that holds one ends in E_ENC (log 13). -/
def Obligations.WnafCommand : Prop :=
  ∀ (d : WReg) (a : SReg) (width : Fin 16) (s : State),
    ((2 ≤ width.val ∧ width.val ≤ 8) → sdec (s.getS a) < 2 ^ 446 →
      ∃ t, exec (.wnaf d a width) s = .next t ∧ endsWith .ok t ∧ changesOnly { wb := [d] } s t ∧
        isWnaf (sdec (s.getS a)) width.val (t.getW d) ∧ (t.getW d)[447] = 0#8) ∧
    ((2 ≤ width.val ∧ width.val ≤ 8) → 2 ^ 446 ≤ sdec (s.getS a) →
      exec (.wnaf d a width) s = .next (errorOf .range s)) ∧
    (¬ (2 ≤ width.val ∧ width.val ≤ 8) →
      exec (.wnaf d a width) s = .next (errorOf .enc s))

/-- 44_scalar_mult.md R237, its last clause: the digits that WNAF writes are the only ones with these
properties. -/
def Obligations.WnafIsUnique : Prop :=
  ∀ (n w : Nat) (V : Vector Byte 448), 2 ≤ w → w ≤ 8 → n < 2 ^ 446 → isWnaf n w V → V = wnafBytes n w

/-- 44_scalar_mult.md R239, its arithmetic: for every k below 2^448 the digits 2·m_j − 1 of the comb
recoding sum to k, or to k + L for an even k, and the columns of 5 blocks of 5 bits regroup them. R238:
COMB runs over exactly these columns and blocks, whatever table it is given. -/
def Obligations.CombRunsOverTheRecodedScalar : Prop :=
  (∀ k : Nat, k < 2 ^ 448 →
    combRecode k < 2 ^ 450 ∧
    (∑ j : Fin 450, (2 * (bitOf (combRecode k) j.val : Int) - 1) * 2 ^ j.val) =
      (if k % 2 = 1 then (k : Int) else k + Config.groupOrder) ∧
    (∑ c : Fin 18, ∑ b : Fin 5, ∑ t : Fin 5,
      (2 * (bitOf (combDigit (combRecode k) c.val b.val) t.val : Int) - 1) *
        2 ^ (c.val + 18 * (5 * b.val + t.val))) =
      (if k % 2 = 1 then (k : Int) else k + Config.groupOrder)) ∧
  ∀ (ctab : Vector (Vector AffineReg 16) 5) (k : Nat),
    ∃ r : Nat → Nat → Pt, isCombRun ctab (combRecode k) r ∧ comb ctab k = r 0 5

/-- The comb multiplier and the two-scalar multiplier, run on the tables Precompute() builds, give a
triple that meets the projective equation of the curve (which admits Z = 0) for every scalar
(44_scalar_mult.md R238, R240, 43_point.md R193). -/
def Obligations.MultipliersStayOnTheCurve : Prop :=
  (∀ k : Nat, onCurve (comb buildCtab k)) ∧
  ∀ (nb np : Nat) (q : Pt), onCurve q → onCurve (straus buildBtab nb np q)

/-- 44_scalar_mult.md R244 and R246 with R247: SMULB writes COMB(k) normalised, SMULBXY its affine
coordinates for the pruned scalar. Equal destinations are no legal word; a term that holds them ends in
E_ENC (log 13). -/
def Obligations.FixedBaseMultiplications : Prop :=
  (∀ (d : PReg) (a : SReg) (s : State),
    ∃ t r, exec (.smulb d a) s = .next t ∧ endsWith .ok t ∧
      changesOnly { pr := [d], zdiv := true, tables := true } s t ∧ tablesReady s t ∧
      r = comb (usedCtab s) (sdec (s.getS a)) ∧
      (t.getP d).x.toNat = dividedBy r.x r.z ∧ (t.getP d).y.toNat = dividedBy r.y r.z ∧
      (t.getP d).z = 1#448 ∧ t.zdiv = (s.zdiv || decide (r.z % Config.p = 0))) ∧
  (∀ (dx dy : FReg) (a : SReg) (s : State), dx ≠ dy →
    ∃ t r, exec (.smulbxy dx dy a) s = .next t ∧ endsWith .ok t ∧
      changesOnly { fr := [dx, dy], zdiv := true, tables := true } s t ∧ tablesReady s t ∧
      r = comb (usedCtab s) (sdec (sprune (s.getS a))) ∧
      (t.getF dx).toNat = dividedBy r.x r.z ∧ (t.getF dy).toNat = dividedBy r.y r.z ∧
      t.zdiv = (s.zdiv || decide (r.z % Config.p = 0))) ∧
  (∀ (dx : FReg) (a : SReg) (s : State), exec (.smulbxy dx dx a) s = .next (errorOf .enc s))

/-- 44_scalar_mult.md R245 with R247: SMULSV writes STRAUS(nb, np, P) normalised, or ends in E_RANGE.
R240: STRAUS is one pass over both digit strings from the highest nonzero position down. -/
def Obligations.TwoScalarMultiplication : Prop :=
  (∀ (d : PReg) (nb np : SReg) (q : PReg) (s : State),
    (sdec (s.getS nb) < 2 ^ 446 → sdec (s.getS np) < 2 ^ 446 →
      ∃ t r, exec (.smulsv d nb np q) s = .next t ∧ endsWith .ok t ∧
        changesOnly { pr := [d], zdiv := true, tables := true } s t ∧ tablesReady s t ∧
        r = straus (usedBtab s) (sdec (s.getS nb)) (sdec (s.getS np)) (s.pval q) ∧
        (t.getP d).x.toNat = dividedBy r.x r.z ∧ (t.getP d).y.toNat = dividedBy r.y r.z ∧
        (t.getP d).z = 1#448 ∧ t.zdiv = (s.zdiv || decide (r.z % Config.p = 0))) ∧
    ((2 ^ 446 ≤ sdec (s.getS nb) ∨ 2 ^ 446 ≤ sdec (s.getS np)) →
      exec (.smulsv d nb np q) s = .next (errorOf .range s))) ∧
  ∀ (btab : Vector PointReg 32) (nb np : Nat) (q : Pt), nb < 2 ^ 446 → np < 2 ^ 446 →
    ∃ (top : Nat) (tb tp r : Nat → Pt), (∀ j : Fin 32, tb j.val = (btab[j]).val) ∧
      tp 0 = q ∧ (∀ j, j < 7 → tp (j + 1) = add false (dbl q) (tp j)) ∧
      isStrausRun tb tp (wnafBytes nb 7) (wnafBytes np 5) top r ∧ straus btab nb np q = r 0

/-- 70_reset_and_hazards.md R344: every command leaves the same state whether the tables were built by it
or earlier, up to the tables themselves. 10_state.md R50 and R57: what they hold while TBLV = 0 is not
observable: a command that leaves TBLV = 0 leaves all else the same, and one that sets TBLV leaves the
very same state. -/
def Obligations.TablesAreInvisible : Prop :=
  (∀ (i : Instr) (s : State),
      ∃ t u, exec i s = .next t ∧ exec i s.precompute = .next u ∧ u.precompute = t.precompute) ∧
  (∀ (i : Instr) (s : State) (bt : Vector PointReg 32) (ct : Vector (Vector AffineReg 16) 5),
      s.tblv = false →
      ∃ t u, exec i s = .next t ∧ exec i { s with btab := bt, ctab := ct } = .next u ∧
        (t.tblv = true → u = t) ∧ (t.tblv = false → u = { t with btab := bt, ctab := ct }))

/-! ### The protocol (45_protocol.md) -/

/-- 45_protocol.md R277, XOFH, over an XOF that always returns n bytes, the first n of its output (R270).
That the output is SHAKE256's is log 10's. -/
def Obligations.HashCommand : Prop :=
  (decodesAs 0x53#8 (fun f => f.ra = 0 ∧ f.rc = 0 ∧ f.flg = 0#8 ∧ f.rd ≠ f.rb)
      (fun f => .xofh f.rd f.rb) ∧
    ∀ (lo hi : SReg) (s : State), lo ≠ hi →
      (s.msgLen.toNat ≤ s.msgCap.bytes →
        ∃ t, exec (.xofh lo hi) s = .next t ∧ endsWith .ok t ∧
          changesOnly { sr := [lo, hi] } s t ∧
          (t.getS lo).toList = (xof s.message 114).take 57 ∧
          (t.getS hi).toList = (xof s.message 114).drop 57) ∧
      (s.msgCap.bytes < s.msgLen.toNat → exec (.xofh lo hi) s = .next (errorOf .msg s))) ∧
  (∀ (m : Bytes) (n k : Nat), (xof m n).length = n ∧ (k ≤ n → (xof m n).take k = xof m k))

/-- 45_protocol.md R272: the argument checks of the protocol commands, in their order. -/
def Obligations.ProtocolArgumentChecks : Prop :=
  ∀ (s : State) (ph : Bool) (dR dS sk r t pk : SReg) (sup : Option SReg), dR ≠ dS →
    (255 < s.ctxLen.toNat →
      exec (.sign dR dS sk sup ph) s = .next (errorOf .ctx s) ∧
      exec (.verify r t pk ph) s = .next (errorOf .ctx s)) ∧
    (s.ctxLen.toNat ≤ 255 → s.msgCap.bytes < s.msgLen.toNat →
      exec (.sign dR dS sk sup ph) s = .next (errorOf .msg s) ∧
      exec (.verify r t pk ph) s = .next (errorOf .msg s)) ∧
    (s.msgCap.bytes < s.msgLen.toNat → exec (.xofh dR dS) s = .next (errorOf .msg s)) ∧
    (s.ctxLen.toNat ≤ 255 → s.msgLen.toNat ≤ s.msgCap.bytes → ph = true → s.msgLen.toNat ≠ 64 →
      exec (.sign dR dS sk sup ph) s = .next (errorOf .ph s) ∧
      exec (.verify r t pk ph) s = .next (errorOf .ph s)) ∧
    (argumentsPass s ph →
      (∃ u, exec (.sign dR dS sk sup ph) s = .next u ∧ u.err = .ok) ∧
      (∃ u, exec (.verify r t pk ph) s = .next u ∧ u.err = .ok)) ∧
    (s.msgLen.toNat ≤ s.msgCap.bytes → ∃ u, exec (.xofh dR dS) s = .next u ∧ u.err = .ok)

/-- 45_protocol.md R274: KEYGEN encodes the comb product of the secret scalar. -/
def Obligations.KeyGeneration : Prop :=
  decodesAs 0x50#8 unusedDA (fun f => .keygen f.rd f.ra) ∧
  ∀ (d a : SReg) (s : State),
    ∃ t r, exec (.keygen d a) s = .next t ∧ endsWith .ok t ∧
      changesOnly { sr := [d], zdiv := true, tables := true } s t ∧ tablesReady s t ∧
      r = comb (usedCtab s) (sdec (secretScalar (s.getS a))) ∧
      t.getS d = enc r ∧ t.zdiv = (s.zdiv || decide (r.z % Config.p = 0))

/-- 45_protocol.md R275: SIGN past its argument checks; the public key hashed is the one supplied when
PKV = 1, else the recomputed one. -/
def Obligations.Signing : Prop :=
  ∀ (dR dS sk : SReg) (sup : Option SReg) (ph : Bool) (s : State), dR ≠ dS → argumentsPass s ph →
    ∃ (t : State) (q rPt : Pt) (pk rb : Str57), exec (.sign dR dS sk sup ph) s = .next t ∧
      endsWith .ok t ∧ changesOnly { sr := [dR, dS], zdiv := true, tables := true } s t ∧
      tablesReady s t ∧
      q = comb (usedCtab s) (sdec (secretScalar (s.getS sk))) ∧
      (sup = none → pk = enc q) ∧ (∀ c, sup = some c → pk = s.getS c) ∧
      rPt = comb (usedCtab s) (sdec (nonceScalar s ph (s.getS sk))) ∧ rb = enc rPt ∧
      t.getS dR = rb ∧
      t.getS dS =
        scalc (nonceScalar s ph (s.getS sk)) (challengeScalar s ph rb pk) (secretScalar (s.getS sk)) ∧
      t.zdiv = (s.zdiv || decide (rPt.z % Config.p = 0) ||
        (sup.isNone && decide (q.z % Config.p = 0)))

/-- 45_protocol.md R275 with R274: a supplied public key that is the one KEYGEN derives gives the same
signature as PKV = 0. -/
def Obligations.SuppliedKeyGivesTheSameSignature : Prop :=
  ∀ (dR dS sk c : SReg) (ph : Bool) (s : State), dR ≠ dS → argumentsPass s ph →
    (∃ k, exec (.keygen c sk) s = .next k ∧ s.getS c = k.getS c) →
    ∃ t u, exec (.sign dR dS sk none ph) s = .next t ∧ exec (.sign dR dS sk (some c) ph) s = .next u ∧
      u.getS dR = t.getS dR ∧ u.getS dS = t.getS dS ∧ u.cf = t.cf ∧ u.tblv = t.tblv

/-- 45_protocol.md R276: VERIFY past its argument checks. CF = 1 exactly when R, S and the public key pass
their checks and the recomputed R has R's bytes; tables and ZDIV change only past the early checks. -/
def Obligations.Verification : Prop :=
  decodesAs 0x52#8 (fun f => f.rd = 0 ∧ f.flg.extractLsb' 1 7 = 0#7)
    (fun f => .verify f.ra f.rb f.rc (f.flg.getLsbD 0)) ∧
  ∀ (r sv pk : SReg) (ph : Bool) (s : State), argumentsPass s ph →
    ∃ t, exec (.verify r sv pk ph) s = .next t ∧ endsWith .ok t ∧
      (¬ (chkpt (s.getS r) = true ∧ schk (s.getS sv) = true ∧ (decpt (s.getS pk) true).isSome) →
        t.cf = false ∧ changesOnly { cf := true } s t) ∧
      ∀ A : Pt, chkpt (s.getS r) = true → schk (s.getS sv) = true →
        decpt (s.getS pk) true = some A →
        ∃ q, q = straus (usedBtab s) (sdec (s.getS sv))
            (sdec (challengeScalar s ph (s.getS r) (s.getS pk))) A ∧
          changesOnly { cf := true, zdiv := true, tables := true } s t ∧ tablesReady s t ∧
          (t.cf = true ↔ enc q = s.getS r) ∧
          t.zdiv = (s.zdiv || decide (q.z % Config.p = 0))

/-- 45_protocol.md R281, the malformed inputs: an S with a nonzero byte 56 or a value of L or more, an R or
a public key with y ≥ p, or a public key with no x on the curve is rejected with CF = 0 and ERR = 0, and
nothing but CF changes. -/
def Obligations.MalformedSignaturesAreRejected : Prop :=
  ∀ (r sv pk : SReg) (ph : Bool) (s : State), argumentsPass s ph →
    ((s.getS sv)[56] ≠ 0#8 ∨ Config.groupOrder ≤ sdec (s.getS sv) ∨
      Config.p ≤ sdec (s.getS r) ∨ Config.p ≤ sdec (s.getS pk) ∨
      (∀ x : Nat, ¬ onCurve ⟨x, sdec (s.getS pk), 1⟩)) →
    ∃ t, exec (.verify r sv pk ph) s = .next t ∧ endsWith .ok t ∧ t.cf = false ∧
      changesOnly { cf := true } s t
end

