-- ==== Sys2Proof/Laws/Memory.lean ====
section
/-! SUPPORT. The byte memories: a read after a write, and the canonical form that every operation keeps. -/

namespace Sys2Proof.Machine

/-- Nothing below `lo` is listed. -/
theorem Memory.read_of_wfFrom {m : Memory} {lo k : Nat} (h : Memory.wfFrom lo m = true) (hk : k < lo) :
    m.read k = 0#8 := by
  induction m generalizing lo with
  | nil => rfl
  | cons c m ih =>
    obtain ⟨a, b⟩ := c
    simp only [Memory.wfFrom, Bool.and_eq_true, decide_eq_true_eq] at h
    have : a ≠ k := by omega
    simp only [Memory.read, this, if_false]
    exact ih h.2 (by omega)

theorem Memory.wfFrom_mono {m : Memory} {lo lo' : Nat} (h : Memory.wfFrom lo m = true) (hl : lo' ≤ lo) :
    Memory.wfFrom lo' m = true := by
  cases m with
  | nil => rfl
  | cons c m =>
    obtain ⟨a, b⟩ := c
    simp only [Memory.wfFrom, Bool.and_eq_true, decide_eq_true_eq] at h ⊢
    exact ⟨⟨by omega, h.1.2⟩, h.2⟩

theorem Memory.read_cons {m : Memory} {k j : Nat} {b : Byte} (h : Memory.wfFrom (k + 1) m = true) :
    Memory.read (Memory.cons k b m) j = if j = k then b else m.read j := by
  unfold Memory.cons
  by_cases hb : b = 0#8
  · by_cases hj : j = k
    · simp [hb, hj, Memory.read_of_wfFrom h]
    · simp [hb, hj]
  · by_cases hj : j = k
    · simp [hb, hj, Memory.read]
    · have : k ≠ j := fun e => hj e.symm
      simp [hb, hj, Memory.read, this]

theorem Memory.wfFrom_cons {m : Memory} {lo k : Nat} {b : Byte} (h : Memory.wfFrom (k + 1) m = true)
    (hk : lo ≤ k) : Memory.wfFrom lo (Memory.cons k b m) = true := by
  unfold Memory.cons
  by_cases hb : b = 0#8
  · simp only [hb, if_true]
    exact Memory.wfFrom_mono h (by omega)
  · simp [hb, Memory.wfFrom, hk, h]

/-- A write keeps the canonical form. -/
theorem Memory.wfFrom_write {m : Memory} {lo k : Nat} (b : Byte) (h : Memory.wfFrom lo m = true)
    (hk : lo ≤ k) : Memory.wfFrom lo (m.write k b) = true := by
  induction m generalizing lo with
  | nil => exact Memory.wfFrom_cons rfl hk
  | cons c m ih =>
    obtain ⟨a, d⟩ := c
    have h' := h
    simp only [Memory.wfFrom, Bool.and_eq_true, decide_eq_true_eq] at h'
    simp only [Memory.write]
    split
    · refine Memory.wfFrom_cons ?_ hk
      simp only [Memory.wfFrom, Bool.and_eq_true, decide_eq_true_eq]
      exact ⟨⟨by omega, h'.1.2⟩, h'.2⟩
    · split
      · exact Memory.wfFrom_cons (Memory.wfFrom_mono h'.2 (by omega)) hk
      · simp only [Memory.wfFrom, Bool.and_eq_true, decide_eq_true_eq]
        exact ⟨h'.1, ih h'.2 (by omega)⟩

/-- A write keeps the canonical form (from index 0). -/
theorem Memory.wf_write {m : Memory} (k : Nat) (b : Byte) (h : m.wf = true) : (m.write k b).wf = true :=
  Memory.wfFrom_write b h (Nat.zero_le k)

theorem Memory.wf_nil : Memory.wf [] = true := rfl

theorem Memory.read_write_from {m : Memory} {lo k : Nat} (b : Byte) (j : Nat)
    (h : Memory.wfFrom lo m = true) : (m.write k b).read j = if j = k then b else m.read j := by
  induction m generalizing lo with
  | nil => exact Memory.read_cons rfl
  | cons c m ih =>
    obtain ⟨a, d⟩ := c
    have h' := h
    simp only [Memory.wfFrom, Bool.and_eq_true, decide_eq_true_eq] at h'
    simp only [Memory.write]
    split
    · rename_i hlt
      refine Memory.read_cons ?_
      simp only [Memory.wfFrom, Bool.and_eq_true, decide_eq_true_eq]
      exact ⟨⟨by omega, h'.1.2⟩, h'.2⟩
    · split
      · rename_i e
        subst e
        rw [Memory.read_cons h'.2]
        by_cases hj : j = k
        · simp [hj]
        · have : k ≠ j := fun e => hj e.symm
          simp [hj, Memory.read, this]
      · rename_i hlt hne
        simp only [Memory.read]
        rw [ih h'.2]
        by_cases ha : a = j
        · have : j ≠ k := by omega
          simp [ha, this]
        · simp [ha]

/-- A read after a write: the byte written at its index, the old byte everywhere else. -/
theorem Memory.read_write {m : Memory} (k : Nat) (b : Byte) (j : Nat) (h : m.wf = true) :
    (m.write k b).read j = if j = k then b else m.read j :=
  Memory.read_write_from b j h

theorem Memory.below_cons {m : Memory} {n k : Nat} (b : Byte) (h : m.below n = true) (hk : k < n) :
    Memory.below n (Memory.cons k b m) = true := by
  unfold Memory.cons
  split
  · exact h
  · simp only [Memory.below, List.all_cons, decide_eq_true_eq, Bool.and_eq_true] at h ⊢
    exact ⟨hk, h⟩

/-- A write inside the buffer lists nothing beyond its size. -/
theorem Memory.below_write {m : Memory} {n k : Nat} (b : Byte) (h : m.below n = true) (hk : k < n) :
    (m.write k b).below n = true := by
  induction m with
  | nil => exact Memory.below_cons b rfl hk
  | cons c m ih =>
    obtain ⟨a, d⟩ := c
    have h' := h
    simp only [Memory.below, List.all_cons, decide_eq_true_eq, Bool.and_eq_true] at h'
    simp only [Memory.write]
    split
    · exact Memory.below_cons b h hk
    · split
      · exact Memory.below_cons b h'.2 hk
      · have := ih h'.2
        simp only [Memory.below, List.all_cons, decide_eq_true_eq, Bool.and_eq_true] at this ⊢
        exact ⟨h'.1, this⟩

/-- A word write keeps the canonical form. -/
theorem Memory.wf_writeWord {m : Memory} (k : Nat) (w : Word32) (h : m.wf = true) :
    (m.writeWord k w).wf = true :=
  Memory.wf_write _ _ (Memory.wf_write _ _ (Memory.wf_write _ _ (Memory.wf_write _ _ h)))

/-- A word write inside the buffer lists nothing beyond its size. -/
theorem Memory.below_writeWord {m : Memory} {n k : Nat} (w : Word32) (h : m.below n = true)
    (hk : k + 3 < n) : (m.writeWord k w).below n = true := by
  unfold Memory.writeWord
  exact Memory.below_write _ (Memory.below_write _ (Memory.below_write _ (Memory.below_write _ h
    (by omega)) (by omega)) (by omega)) (by omega)

/-- A byte read after a word write: one of the word's bytes, or the old byte. -/
theorem Memory.read_writeWord {m : Memory} (k : Nat) (w : Word32) (j : Nat) (h : m.wf = true) :
    (m.writeWord k w).read j = if k ≤ j ∧ j < k + 4 then wordByte w (j - k) else m.read j := by
  have h0 := Memory.wf_write k (wordByte w 0) h
  have h1 := Memory.wf_write (k + 1) (wordByte w 1) h0
  have h2 := Memory.wf_write (k + 2) (wordByte w 2) h1
  unfold Memory.writeWord
  rw [Memory.read_write _ _ _ h2, Memory.read_write _ _ _ h1, Memory.read_write _ _ _ h0,
    Memory.read_write _ _ _ h]
  by_cases hj : k ≤ j ∧ j < k + 4
  · rw [if_pos hj]
    obtain ⟨t, rfl⟩ : ∃ t, j = k + t := ⟨j - k, by omega⟩
    have ht : t < 4 := by omega
    interval_cases t <;> simp
  · rw [if_neg hj, if_neg (by omega), if_neg (by omega), if_neg (by omega), if_neg (by omega)]

end Sys2Proof.Machine
end

