-- ==== Sys2Proof/Laws/State.lean ====
section
/-! SUPPORT. One lemma per field per update of the state, true by rfl, and the register files read after
they are written. -/

namespace Sys2Proof.Machine

variable (s : State)

/-! ### accept -/

@[simp] theorem State.accept_fr (w : Word32) : (s.accept w).fr = s.fr := rfl
@[simp] theorem State.accept_pr (w : Word32) : (s.accept w).pr = s.pr := rfl
@[simp] theorem State.accept_sr (w : Word32) : (s.accept w).sr = s.sr := rfl
@[simp] theorem State.accept_wb (w : Word32) : (s.accept w).wb = s.wb := rfl
@[simp] theorem State.accept_msgbuf (w : Word32) : (s.accept w).msgbuf = s.msgbuf := rfl
@[simp] theorem State.accept_ctxbuf (w : Word32) : (s.accept w).ctxbuf = s.ctxbuf := rfl
@[simp] theorem State.accept_msgCap (w : Word32) : (s.accept w).msgCap = s.msgCap := rfl
@[simp] theorem State.accept_ieDone (w : Word32) : (s.accept w).ieDone = s.ieDone := rfl
@[simp] theorem State.accept_ieAccerr (w : Word32) : (s.accept w).ieAccerr = s.ieAccerr := rfl
@[simp] theorem State.accept_busy (w : Word32) : (s.accept w).busy = true := rfl
@[simp] theorem State.accept_done (w : Word32) : (s.accept w).done = false := rfl
@[simp] theorem State.accept_cf (w : Word32) : (s.accept w).cf = s.cf := rfl
@[simp] theorem State.accept_tblv (w : Word32) : (s.accept w).tblv = s.tblv := rfl
@[simp] theorem State.accept_accerr (w : Word32) : (s.accept w).accerr = s.accerr := rfl
@[simp] theorem State.accept_zdiv (w : Word32) : (s.accept w).zdiv = s.zdiv := rfl
@[simp] theorem State.accept_err (w : Word32) : (s.accept w).err = .ok := rfl
@[simp] theorem State.accept_cmd (w : Word32) : (s.accept w).cmd = w := rfl
@[simp] theorem State.accept_ctxLen (w : Word32) : (s.accept w).ctxLen = s.ctxLen := rfl
@[simp] theorem State.accept_msgLen (w : Word32) : (s.accept w).msgLen = s.msgLen := rfl
@[simp] theorem State.accept_btab (w : Word32) : (s.accept w).btab = s.btab := rfl
@[simp] theorem State.accept_ctab (w : Word32) : (s.accept w).ctab = s.ctab := rfl
@[simp] theorem State.accept_inputs (w : Word32) : (s.accept w).inputs = s.inputs := rfl
@[simp] theorem State.accept_resp (w : Word32) : (s.accept w).resp = s.resp := rfl

/-! ### complete -/

@[simp] theorem State.complete_fr : (s.complete).fr = s.fr := rfl
@[simp] theorem State.complete_pr : (s.complete).pr = s.pr := rfl
@[simp] theorem State.complete_sr : (s.complete).sr = s.sr := rfl
@[simp] theorem State.complete_wb : (s.complete).wb = s.wb := rfl
@[simp] theorem State.complete_msgbuf : (s.complete).msgbuf = s.msgbuf := rfl
@[simp] theorem State.complete_ctxbuf : (s.complete).ctxbuf = s.ctxbuf := rfl
@[simp] theorem State.complete_msgCap : (s.complete).msgCap = s.msgCap := rfl
@[simp] theorem State.complete_ieDone : (s.complete).ieDone = s.ieDone := rfl
@[simp] theorem State.complete_ieAccerr : (s.complete).ieAccerr = s.ieAccerr := rfl
@[simp] theorem State.complete_busy : (s.complete).busy = false := rfl
@[simp] theorem State.complete_done : (s.complete).done = true := rfl
@[simp] theorem State.complete_cf : (s.complete).cf = s.cf := rfl
@[simp] theorem State.complete_tblv : (s.complete).tblv = s.tblv := rfl
@[simp] theorem State.complete_accerr : (s.complete).accerr = s.accerr := rfl
@[simp] theorem State.complete_zdiv : (s.complete).zdiv = s.zdiv := rfl
@[simp] theorem State.complete_err : (s.complete).err = .ok := rfl
@[simp] theorem State.complete_cmd : (s.complete).cmd = s.cmd := rfl
@[simp] theorem State.complete_ctxLen : (s.complete).ctxLen = s.ctxLen := rfl
@[simp] theorem State.complete_msgLen : (s.complete).msgLen = s.msgLen := rfl
@[simp] theorem State.complete_btab : (s.complete).btab = s.btab := rfl
@[simp] theorem State.complete_ctab : (s.complete).ctab = s.ctab := rfl
@[simp] theorem State.complete_inputs : (s.complete).inputs = s.inputs := rfl
@[simp] theorem State.complete_resp : (s.complete).resp = s.resp := rfl

/-! ### completeErr -/

@[simp] theorem State.completeErr_fr (e : ErrCode) : (s.completeErr e).fr = s.fr := rfl
@[simp] theorem State.completeErr_pr (e : ErrCode) : (s.completeErr e).pr = s.pr := rfl
@[simp] theorem State.completeErr_sr (e : ErrCode) : (s.completeErr e).sr = s.sr := rfl
@[simp] theorem State.completeErr_wb (e : ErrCode) : (s.completeErr e).wb = s.wb := rfl
@[simp] theorem State.completeErr_msgbuf (e : ErrCode) : (s.completeErr e).msgbuf = s.msgbuf := rfl
@[simp] theorem State.completeErr_ctxbuf (e : ErrCode) : (s.completeErr e).ctxbuf = s.ctxbuf := rfl
@[simp] theorem State.completeErr_msgCap (e : ErrCode) : (s.completeErr e).msgCap = s.msgCap := rfl
@[simp] theorem State.completeErr_ieDone (e : ErrCode) : (s.completeErr e).ieDone = s.ieDone := rfl
@[simp] theorem State.completeErr_ieAccerr (e : ErrCode) : (s.completeErr e).ieAccerr = s.ieAccerr := rfl
@[simp] theorem State.completeErr_busy (e : ErrCode) : (s.completeErr e).busy = false := rfl
@[simp] theorem State.completeErr_done (e : ErrCode) : (s.completeErr e).done = true := rfl
@[simp] theorem State.completeErr_cf (e : ErrCode) : (s.completeErr e).cf = s.cf := rfl
@[simp] theorem State.completeErr_tblv (e : ErrCode) : (s.completeErr e).tblv = s.tblv := rfl
@[simp] theorem State.completeErr_accerr (e : ErrCode) : (s.completeErr e).accerr = s.accerr := rfl
@[simp] theorem State.completeErr_zdiv (e : ErrCode) : (s.completeErr e).zdiv = s.zdiv := rfl
@[simp] theorem State.completeErr_err (e : ErrCode) : (s.completeErr e).err = e := rfl
@[simp] theorem State.completeErr_cmd (e : ErrCode) : (s.completeErr e).cmd = s.cmd := rfl
@[simp] theorem State.completeErr_ctxLen (e : ErrCode) : (s.completeErr e).ctxLen = s.ctxLen := rfl
@[simp] theorem State.completeErr_msgLen (e : ErrCode) : (s.completeErr e).msgLen = s.msgLen := rfl
@[simp] theorem State.completeErr_btab (e : ErrCode) : (s.completeErr e).btab = s.btab := rfl
@[simp] theorem State.completeErr_ctab (e : ErrCode) : (s.completeErr e).ctab = s.ctab := rfl
@[simp] theorem State.completeErr_inputs (e : ErrCode) : (s.completeErr e).inputs = s.inputs := rfl
@[simp] theorem State.completeErr_resp (e : ErrCode) : (s.completeErr e).resp = s.resp := rfl

/-! ### acknowledge -/

@[simp] theorem State.acknowledge_fr (w : Word32) : (s.acknowledge w).fr = s.fr := rfl
@[simp] theorem State.acknowledge_pr (w : Word32) : (s.acknowledge w).pr = s.pr := rfl
@[simp] theorem State.acknowledge_sr (w : Word32) : (s.acknowledge w).sr = s.sr := rfl
@[simp] theorem State.acknowledge_wb (w : Word32) : (s.acknowledge w).wb = s.wb := rfl
@[simp] theorem State.acknowledge_msgbuf (w : Word32) : (s.acknowledge w).msgbuf = s.msgbuf := rfl
@[simp] theorem State.acknowledge_ctxbuf (w : Word32) : (s.acknowledge w).ctxbuf = s.ctxbuf := rfl
@[simp] theorem State.acknowledge_msgCap (w : Word32) : (s.acknowledge w).msgCap = s.msgCap := rfl
@[simp] theorem State.acknowledge_ieDone (w : Word32) : (s.acknowledge w).ieDone = s.ieDone := rfl
@[simp] theorem State.acknowledge_ieAccerr (w : Word32) : (s.acknowledge w).ieAccerr = s.ieAccerr := rfl
@[simp] theorem State.acknowledge_busy (w : Word32) : (s.acknowledge w).busy = s.busy := rfl
@[simp] theorem State.acknowledge_done (w : Word32) : (s.acknowledge w).done = (s.done && !w.getLsbD 1) := rfl
@[simp] theorem State.acknowledge_cf (w : Word32) : (s.acknowledge w).cf = s.cf := rfl
@[simp] theorem State.acknowledge_tblv (w : Word32) : (s.acknowledge w).tblv = s.tblv := rfl
@[simp] theorem State.acknowledge_accerr (w : Word32) : (s.acknowledge w).accerr = (s.accerr && !w.getLsbD 4) := rfl
@[simp] theorem State.acknowledge_zdiv (w : Word32) : (s.acknowledge w).zdiv = (s.zdiv && !w.getLsbD 5) := rfl
@[simp] theorem State.acknowledge_err (w : Word32) : (s.acknowledge w).err = s.err := rfl
@[simp] theorem State.acknowledge_cmd (w : Word32) : (s.acknowledge w).cmd = s.cmd := rfl
@[simp] theorem State.acknowledge_ctxLen (w : Word32) : (s.acknowledge w).ctxLen = s.ctxLen := rfl
@[simp] theorem State.acknowledge_msgLen (w : Word32) : (s.acknowledge w).msgLen = s.msgLen := rfl
@[simp] theorem State.acknowledge_btab (w : Word32) : (s.acknowledge w).btab = s.btab := rfl
@[simp] theorem State.acknowledge_ctab (w : Word32) : (s.acknowledge w).ctab = s.ctab := rfl
@[simp] theorem State.acknowledge_inputs (w : Word32) : (s.acknowledge w).inputs = s.inputs := rfl
@[simp] theorem State.acknowledge_resp (w : Word32) : (s.acknowledge w).resp = s.resp := rfl

/-! ### setCF -/

@[simp] theorem State.setCF_fr (b : Bool) : (s.setCF b).fr = s.fr := rfl
@[simp] theorem State.setCF_pr (b : Bool) : (s.setCF b).pr = s.pr := rfl
@[simp] theorem State.setCF_sr (b : Bool) : (s.setCF b).sr = s.sr := rfl
@[simp] theorem State.setCF_wb (b : Bool) : (s.setCF b).wb = s.wb := rfl
@[simp] theorem State.setCF_msgbuf (b : Bool) : (s.setCF b).msgbuf = s.msgbuf := rfl
@[simp] theorem State.setCF_ctxbuf (b : Bool) : (s.setCF b).ctxbuf = s.ctxbuf := rfl
@[simp] theorem State.setCF_msgCap (b : Bool) : (s.setCF b).msgCap = s.msgCap := rfl
@[simp] theorem State.setCF_ieDone (b : Bool) : (s.setCF b).ieDone = s.ieDone := rfl
@[simp] theorem State.setCF_ieAccerr (b : Bool) : (s.setCF b).ieAccerr = s.ieAccerr := rfl
@[simp] theorem State.setCF_busy (b : Bool) : (s.setCF b).busy = s.busy := rfl
@[simp] theorem State.setCF_done (b : Bool) : (s.setCF b).done = s.done := rfl
@[simp] theorem State.setCF_cf (b : Bool) : (s.setCF b).cf = b := rfl
@[simp] theorem State.setCF_tblv (b : Bool) : (s.setCF b).tblv = s.tblv := rfl
@[simp] theorem State.setCF_accerr (b : Bool) : (s.setCF b).accerr = s.accerr := rfl
@[simp] theorem State.setCF_zdiv (b : Bool) : (s.setCF b).zdiv = s.zdiv := rfl
@[simp] theorem State.setCF_err (b : Bool) : (s.setCF b).err = s.err := rfl
@[simp] theorem State.setCF_cmd (b : Bool) : (s.setCF b).cmd = s.cmd := rfl
@[simp] theorem State.setCF_ctxLen (b : Bool) : (s.setCF b).ctxLen = s.ctxLen := rfl
@[simp] theorem State.setCF_msgLen (b : Bool) : (s.setCF b).msgLen = s.msgLen := rfl
@[simp] theorem State.setCF_btab (b : Bool) : (s.setCF b).btab = s.btab := rfl
@[simp] theorem State.setCF_ctab (b : Bool) : (s.setCF b).ctab = s.ctab := rfl
@[simp] theorem State.setCF_inputs (b : Bool) : (s.setCF b).inputs = s.inputs := rfl
@[simp] theorem State.setCF_resp (b : Bool) : (s.setCF b).resp = s.resp := rfl

/-! ### orZDIV -/

@[simp] theorem State.orZDIV_fr (b : Bool) : (s.orZDIV b).fr = s.fr := rfl
@[simp] theorem State.orZDIV_pr (b : Bool) : (s.orZDIV b).pr = s.pr := rfl
@[simp] theorem State.orZDIV_sr (b : Bool) : (s.orZDIV b).sr = s.sr := rfl
@[simp] theorem State.orZDIV_wb (b : Bool) : (s.orZDIV b).wb = s.wb := rfl
@[simp] theorem State.orZDIV_msgbuf (b : Bool) : (s.orZDIV b).msgbuf = s.msgbuf := rfl
@[simp] theorem State.orZDIV_ctxbuf (b : Bool) : (s.orZDIV b).ctxbuf = s.ctxbuf := rfl
@[simp] theorem State.orZDIV_msgCap (b : Bool) : (s.orZDIV b).msgCap = s.msgCap := rfl
@[simp] theorem State.orZDIV_ieDone (b : Bool) : (s.orZDIV b).ieDone = s.ieDone := rfl
@[simp] theorem State.orZDIV_ieAccerr (b : Bool) : (s.orZDIV b).ieAccerr = s.ieAccerr := rfl
@[simp] theorem State.orZDIV_busy (b : Bool) : (s.orZDIV b).busy = s.busy := rfl
@[simp] theorem State.orZDIV_done (b : Bool) : (s.orZDIV b).done = s.done := rfl
@[simp] theorem State.orZDIV_cf (b : Bool) : (s.orZDIV b).cf = s.cf := rfl
@[simp] theorem State.orZDIV_tblv (b : Bool) : (s.orZDIV b).tblv = s.tblv := rfl
@[simp] theorem State.orZDIV_accerr (b : Bool) : (s.orZDIV b).accerr = s.accerr := rfl
@[simp] theorem State.orZDIV_zdiv (b : Bool) : (s.orZDIV b).zdiv = (s.zdiv || b) := rfl
@[simp] theorem State.orZDIV_err (b : Bool) : (s.orZDIV b).err = s.err := rfl
@[simp] theorem State.orZDIV_cmd (b : Bool) : (s.orZDIV b).cmd = s.cmd := rfl
@[simp] theorem State.orZDIV_ctxLen (b : Bool) : (s.orZDIV b).ctxLen = s.ctxLen := rfl
@[simp] theorem State.orZDIV_msgLen (b : Bool) : (s.orZDIV b).msgLen = s.msgLen := rfl
@[simp] theorem State.orZDIV_btab (b : Bool) : (s.orZDIV b).btab = s.btab := rfl
@[simp] theorem State.orZDIV_ctab (b : Bool) : (s.orZDIV b).ctab = s.ctab := rfl
@[simp] theorem State.orZDIV_inputs (b : Bool) : (s.orZDIV b).inputs = s.inputs := rfl
@[simp] theorem State.orZDIV_resp (b : Bool) : (s.orZDIV b).resp = s.resp := rfl

/-! ### setF -/

@[simp] theorem State.setF_fr (i : FReg) (v : Elem) : (s.setF i v).fr = s.fr.set i v := rfl
@[simp] theorem State.setF_pr (i : FReg) (v : Elem) : (s.setF i v).pr = s.pr := rfl
@[simp] theorem State.setF_sr (i : FReg) (v : Elem) : (s.setF i v).sr = s.sr := rfl
@[simp] theorem State.setF_wb (i : FReg) (v : Elem) : (s.setF i v).wb = s.wb := rfl
@[simp] theorem State.setF_msgbuf (i : FReg) (v : Elem) : (s.setF i v).msgbuf = s.msgbuf := rfl
@[simp] theorem State.setF_ctxbuf (i : FReg) (v : Elem) : (s.setF i v).ctxbuf = s.ctxbuf := rfl
@[simp] theorem State.setF_msgCap (i : FReg) (v : Elem) : (s.setF i v).msgCap = s.msgCap := rfl
@[simp] theorem State.setF_ieDone (i : FReg) (v : Elem) : (s.setF i v).ieDone = s.ieDone := rfl
@[simp] theorem State.setF_ieAccerr (i : FReg) (v : Elem) : (s.setF i v).ieAccerr = s.ieAccerr := rfl
@[simp] theorem State.setF_busy (i : FReg) (v : Elem) : (s.setF i v).busy = s.busy := rfl
@[simp] theorem State.setF_done (i : FReg) (v : Elem) : (s.setF i v).done = s.done := rfl
@[simp] theorem State.setF_cf (i : FReg) (v : Elem) : (s.setF i v).cf = s.cf := rfl
@[simp] theorem State.setF_tblv (i : FReg) (v : Elem) : (s.setF i v).tblv = s.tblv := rfl
@[simp] theorem State.setF_accerr (i : FReg) (v : Elem) : (s.setF i v).accerr = s.accerr := rfl
@[simp] theorem State.setF_zdiv (i : FReg) (v : Elem) : (s.setF i v).zdiv = s.zdiv := rfl
@[simp] theorem State.setF_err (i : FReg) (v : Elem) : (s.setF i v).err = s.err := rfl
@[simp] theorem State.setF_cmd (i : FReg) (v : Elem) : (s.setF i v).cmd = s.cmd := rfl
@[simp] theorem State.setF_ctxLen (i : FReg) (v : Elem) : (s.setF i v).ctxLen = s.ctxLen := rfl
@[simp] theorem State.setF_msgLen (i : FReg) (v : Elem) : (s.setF i v).msgLen = s.msgLen := rfl
@[simp] theorem State.setF_btab (i : FReg) (v : Elem) : (s.setF i v).btab = s.btab := rfl
@[simp] theorem State.setF_ctab (i : FReg) (v : Elem) : (s.setF i v).ctab = s.ctab := rfl
@[simp] theorem State.setF_inputs (i : FReg) (v : Elem) : (s.setF i v).inputs = s.inputs := rfl
@[simp] theorem State.setF_resp (i : FReg) (v : Elem) : (s.setF i v).resp = s.resp := rfl

/-! ### setP -/

@[simp] theorem State.setP_fr (i : PReg) (v : PointReg) : (s.setP i v).fr = s.fr := rfl
@[simp] theorem State.setP_pr (i : PReg) (v : PointReg) : (s.setP i v).pr = s.pr.set i v := rfl
@[simp] theorem State.setP_sr (i : PReg) (v : PointReg) : (s.setP i v).sr = s.sr := rfl
@[simp] theorem State.setP_wb (i : PReg) (v : PointReg) : (s.setP i v).wb = s.wb := rfl
@[simp] theorem State.setP_msgbuf (i : PReg) (v : PointReg) : (s.setP i v).msgbuf = s.msgbuf := rfl
@[simp] theorem State.setP_ctxbuf (i : PReg) (v : PointReg) : (s.setP i v).ctxbuf = s.ctxbuf := rfl
@[simp] theorem State.setP_msgCap (i : PReg) (v : PointReg) : (s.setP i v).msgCap = s.msgCap := rfl
@[simp] theorem State.setP_ieDone (i : PReg) (v : PointReg) : (s.setP i v).ieDone = s.ieDone := rfl
@[simp] theorem State.setP_ieAccerr (i : PReg) (v : PointReg) : (s.setP i v).ieAccerr = s.ieAccerr := rfl
@[simp] theorem State.setP_busy (i : PReg) (v : PointReg) : (s.setP i v).busy = s.busy := rfl
@[simp] theorem State.setP_done (i : PReg) (v : PointReg) : (s.setP i v).done = s.done := rfl
@[simp] theorem State.setP_cf (i : PReg) (v : PointReg) : (s.setP i v).cf = s.cf := rfl
@[simp] theorem State.setP_tblv (i : PReg) (v : PointReg) : (s.setP i v).tblv = s.tblv := rfl
@[simp] theorem State.setP_accerr (i : PReg) (v : PointReg) : (s.setP i v).accerr = s.accerr := rfl
@[simp] theorem State.setP_zdiv (i : PReg) (v : PointReg) : (s.setP i v).zdiv = s.zdiv := rfl
@[simp] theorem State.setP_err (i : PReg) (v : PointReg) : (s.setP i v).err = s.err := rfl
@[simp] theorem State.setP_cmd (i : PReg) (v : PointReg) : (s.setP i v).cmd = s.cmd := rfl
@[simp] theorem State.setP_ctxLen (i : PReg) (v : PointReg) : (s.setP i v).ctxLen = s.ctxLen := rfl
@[simp] theorem State.setP_msgLen (i : PReg) (v : PointReg) : (s.setP i v).msgLen = s.msgLen := rfl
@[simp] theorem State.setP_btab (i : PReg) (v : PointReg) : (s.setP i v).btab = s.btab := rfl
@[simp] theorem State.setP_ctab (i : PReg) (v : PointReg) : (s.setP i v).ctab = s.ctab := rfl
@[simp] theorem State.setP_inputs (i : PReg) (v : PointReg) : (s.setP i v).inputs = s.inputs := rfl
@[simp] theorem State.setP_resp (i : PReg) (v : PointReg) : (s.setP i v).resp = s.resp := rfl

/-! ### setS -/

@[simp] theorem State.setS_fr (i : SReg) (v : Str57) : (s.setS i v).fr = s.fr := rfl
@[simp] theorem State.setS_pr (i : SReg) (v : Str57) : (s.setS i v).pr = s.pr := rfl
@[simp] theorem State.setS_sr (i : SReg) (v : Str57) : (s.setS i v).sr = s.sr.set i v := rfl
@[simp] theorem State.setS_wb (i : SReg) (v : Str57) : (s.setS i v).wb = s.wb := rfl
@[simp] theorem State.setS_msgbuf (i : SReg) (v : Str57) : (s.setS i v).msgbuf = s.msgbuf := rfl
@[simp] theorem State.setS_ctxbuf (i : SReg) (v : Str57) : (s.setS i v).ctxbuf = s.ctxbuf := rfl
@[simp] theorem State.setS_msgCap (i : SReg) (v : Str57) : (s.setS i v).msgCap = s.msgCap := rfl
@[simp] theorem State.setS_ieDone (i : SReg) (v : Str57) : (s.setS i v).ieDone = s.ieDone := rfl
@[simp] theorem State.setS_ieAccerr (i : SReg) (v : Str57) : (s.setS i v).ieAccerr = s.ieAccerr := rfl
@[simp] theorem State.setS_busy (i : SReg) (v : Str57) : (s.setS i v).busy = s.busy := rfl
@[simp] theorem State.setS_done (i : SReg) (v : Str57) : (s.setS i v).done = s.done := rfl
@[simp] theorem State.setS_cf (i : SReg) (v : Str57) : (s.setS i v).cf = s.cf := rfl
@[simp] theorem State.setS_tblv (i : SReg) (v : Str57) : (s.setS i v).tblv = s.tblv := rfl
@[simp] theorem State.setS_accerr (i : SReg) (v : Str57) : (s.setS i v).accerr = s.accerr := rfl
@[simp] theorem State.setS_zdiv (i : SReg) (v : Str57) : (s.setS i v).zdiv = s.zdiv := rfl
@[simp] theorem State.setS_err (i : SReg) (v : Str57) : (s.setS i v).err = s.err := rfl
@[simp] theorem State.setS_cmd (i : SReg) (v : Str57) : (s.setS i v).cmd = s.cmd := rfl
@[simp] theorem State.setS_ctxLen (i : SReg) (v : Str57) : (s.setS i v).ctxLen = s.ctxLen := rfl
@[simp] theorem State.setS_msgLen (i : SReg) (v : Str57) : (s.setS i v).msgLen = s.msgLen := rfl
@[simp] theorem State.setS_btab (i : SReg) (v : Str57) : (s.setS i v).btab = s.btab := rfl
@[simp] theorem State.setS_ctab (i : SReg) (v : Str57) : (s.setS i v).ctab = s.ctab := rfl
@[simp] theorem State.setS_inputs (i : SReg) (v : Str57) : (s.setS i v).inputs = s.inputs := rfl
@[simp] theorem State.setS_resp (i : SReg) (v : Str57) : (s.setS i v).resp = s.resp := rfl

/-! ### setW -/

@[simp] theorem State.setW_fr (i : WReg) (v : Vector Byte 448) : (s.setW i v).fr = s.fr := rfl
@[simp] theorem State.setW_pr (i : WReg) (v : Vector Byte 448) : (s.setW i v).pr = s.pr := rfl
@[simp] theorem State.setW_sr (i : WReg) (v : Vector Byte 448) : (s.setW i v).sr = s.sr := rfl
@[simp] theorem State.setW_wb (i : WReg) (v : Vector Byte 448) : (s.setW i v).wb = s.wb.set i v := rfl
@[simp] theorem State.setW_msgbuf (i : WReg) (v : Vector Byte 448) : (s.setW i v).msgbuf = s.msgbuf := rfl
@[simp] theorem State.setW_ctxbuf (i : WReg) (v : Vector Byte 448) : (s.setW i v).ctxbuf = s.ctxbuf := rfl
@[simp] theorem State.setW_msgCap (i : WReg) (v : Vector Byte 448) : (s.setW i v).msgCap = s.msgCap := rfl
@[simp] theorem State.setW_ieDone (i : WReg) (v : Vector Byte 448) : (s.setW i v).ieDone = s.ieDone := rfl
@[simp] theorem State.setW_ieAccerr (i : WReg) (v : Vector Byte 448) : (s.setW i v).ieAccerr = s.ieAccerr := rfl
@[simp] theorem State.setW_busy (i : WReg) (v : Vector Byte 448) : (s.setW i v).busy = s.busy := rfl
@[simp] theorem State.setW_done (i : WReg) (v : Vector Byte 448) : (s.setW i v).done = s.done := rfl
@[simp] theorem State.setW_cf (i : WReg) (v : Vector Byte 448) : (s.setW i v).cf = s.cf := rfl
@[simp] theorem State.setW_tblv (i : WReg) (v : Vector Byte 448) : (s.setW i v).tblv = s.tblv := rfl
@[simp] theorem State.setW_accerr (i : WReg) (v : Vector Byte 448) : (s.setW i v).accerr = s.accerr := rfl
@[simp] theorem State.setW_zdiv (i : WReg) (v : Vector Byte 448) : (s.setW i v).zdiv = s.zdiv := rfl
@[simp] theorem State.setW_err (i : WReg) (v : Vector Byte 448) : (s.setW i v).err = s.err := rfl
@[simp] theorem State.setW_cmd (i : WReg) (v : Vector Byte 448) : (s.setW i v).cmd = s.cmd := rfl
@[simp] theorem State.setW_ctxLen (i : WReg) (v : Vector Byte 448) : (s.setW i v).ctxLen = s.ctxLen := rfl
@[simp] theorem State.setW_msgLen (i : WReg) (v : Vector Byte 448) : (s.setW i v).msgLen = s.msgLen := rfl
@[simp] theorem State.setW_btab (i : WReg) (v : Vector Byte 448) : (s.setW i v).btab = s.btab := rfl
@[simp] theorem State.setW_ctab (i : WReg) (v : Vector Byte 448) : (s.setW i v).ctab = s.ctab := rfl
@[simp] theorem State.setW_inputs (i : WReg) (v : Vector Byte 448) : (s.setW i v).inputs = s.inputs := rfl
@[simp] theorem State.setW_resp (i : WReg) (v : Vector Byte 448) : (s.setW i v).resp = s.resp := rfl

/-! ### Register files -/

@[simp] theorem State.getF_setF_same (i : FReg) (v : Elem) : (s.setF i v).getF i = v := by
  simp [State.getF, State.setF]
theorem State.getF_setF_ne (i j : FReg) (v : Elem) (h : j ≠ i) : (s.setF i v).getF j = s.getF j := by
  have h' : (i : Nat) ≠ j := fun e => h (Fin.ext e.symm)
  simp [State.getF, State.setF, Vector.getElem_set_ne _ _ h']
@[simp] theorem State.getP_setP_same (i : PReg) (v : PointReg) : (s.setP i v).getP i = v := by
  simp [State.getP, State.setP]
theorem State.getP_setP_ne (i j : PReg) (v : PointReg) (h : j ≠ i) : (s.setP i v).getP j = s.getP j := by
  have h' : (i : Nat) ≠ j := fun e => h (Fin.ext e.symm)
  simp [State.getP, State.setP, Vector.getElem_set_ne _ _ h']
@[simp] theorem State.getS_setS_same (i : SReg) (v : Str57) : (s.setS i v).getS i = v := by
  simp [State.getS, State.setS]
theorem State.getS_setS_ne (i j : SReg) (v : Str57) (h : j ≠ i) : (s.setS i v).getS j = s.getS j := by
  have h' : (i : Nat) ≠ j := fun e => h (Fin.ext e.symm)
  simp [State.getS, State.setS, Vector.getElem_set_ne _ _ h']
@[simp] theorem State.getW_setW_same (i : WReg) (v : Vector Byte 448) : (s.setW i v).getW i = v := by
  simp [State.getW, State.setW]
theorem State.getW_setW_ne (i j : WReg) (v : Vector Byte 448) (h : j ≠ i) : (s.setW i v).getW j = s.getW j := by
  have h' : (i : Nat) ≠ j := fun e => h (Fin.ext e.symm)
  simp [State.getW, State.setW, Vector.getElem_set_ne _ _ h']
@[simp] theorem State.getF_accept (w : Word32) (j : FReg) : (s.accept w).getF j = s.getF j := rfl
@[simp] theorem State.getF_complete (j : FReg) : (s.complete).getF j = s.getF j := rfl
@[simp] theorem State.getF_completeErr (e : ErrCode) (j : FReg) : (s.completeErr e).getF j = s.getF j := rfl
@[simp] theorem State.getF_acknowledge (w : Word32) (j : FReg) : (s.acknowledge w).getF j = s.getF j := rfl
@[simp] theorem State.getF_setCF (b : Bool) (j : FReg) : (s.setCF b).getF j = s.getF j := rfl
@[simp] theorem State.getF_orZDIV (b : Bool) (j : FReg) : (s.orZDIV b).getF j = s.getF j := rfl
@[simp] theorem State.getF_setP (i : PReg) (v : PointReg) (j : FReg) : (s.setP i v).getF j = s.getF j := rfl
@[simp] theorem State.getF_setS (i : SReg) (v : Str57) (j : FReg) : (s.setS i v).getF j = s.getF j := rfl
@[simp] theorem State.getF_setW (i : WReg) (v : Vector Byte 448) (j : FReg) : (s.setW i v).getF j = s.getF j := rfl
@[simp] theorem State.getP_accept (w : Word32) (j : PReg) : (s.accept w).getP j = s.getP j := rfl
@[simp] theorem State.getP_complete (j : PReg) : (s.complete).getP j = s.getP j := rfl
@[simp] theorem State.getP_completeErr (e : ErrCode) (j : PReg) : (s.completeErr e).getP j = s.getP j := rfl
@[simp] theorem State.getP_acknowledge (w : Word32) (j : PReg) : (s.acknowledge w).getP j = s.getP j := rfl
@[simp] theorem State.getP_setCF (b : Bool) (j : PReg) : (s.setCF b).getP j = s.getP j := rfl
@[simp] theorem State.getP_orZDIV (b : Bool) (j : PReg) : (s.orZDIV b).getP j = s.getP j := rfl
@[simp] theorem State.getP_setF (i : FReg) (v : Elem) (j : PReg) : (s.setF i v).getP j = s.getP j := rfl
@[simp] theorem State.getP_setS (i : SReg) (v : Str57) (j : PReg) : (s.setS i v).getP j = s.getP j := rfl
@[simp] theorem State.getP_setW (i : WReg) (v : Vector Byte 448) (j : PReg) : (s.setW i v).getP j = s.getP j := rfl
@[simp] theorem State.getS_accept (w : Word32) (j : SReg) : (s.accept w).getS j = s.getS j := rfl
@[simp] theorem State.getS_complete (j : SReg) : (s.complete).getS j = s.getS j := rfl
@[simp] theorem State.getS_completeErr (e : ErrCode) (j : SReg) : (s.completeErr e).getS j = s.getS j := rfl
@[simp] theorem State.getS_acknowledge (w : Word32) (j : SReg) : (s.acknowledge w).getS j = s.getS j := rfl
@[simp] theorem State.getS_setCF (b : Bool) (j : SReg) : (s.setCF b).getS j = s.getS j := rfl
@[simp] theorem State.getS_orZDIV (b : Bool) (j : SReg) : (s.orZDIV b).getS j = s.getS j := rfl
@[simp] theorem State.getS_setF (i : FReg) (v : Elem) (j : SReg) : (s.setF i v).getS j = s.getS j := rfl
@[simp] theorem State.getS_setP (i : PReg) (v : PointReg) (j : SReg) : (s.setP i v).getS j = s.getS j := rfl
@[simp] theorem State.getS_setW (i : WReg) (v : Vector Byte 448) (j : SReg) : (s.setW i v).getS j = s.getS j := rfl
@[simp] theorem State.getW_accept (w : Word32) (j : WReg) : (s.accept w).getW j = s.getW j := rfl
@[simp] theorem State.getW_complete (j : WReg) : (s.complete).getW j = s.getW j := rfl
@[simp] theorem State.getW_completeErr (e : ErrCode) (j : WReg) : (s.completeErr e).getW j = s.getW j := rfl
@[simp] theorem State.getW_acknowledge (w : Word32) (j : WReg) : (s.acknowledge w).getW j = s.getW j := rfl
@[simp] theorem State.getW_setCF (b : Bool) (j : WReg) : (s.setCF b).getW j = s.getW j := rfl
@[simp] theorem State.getW_orZDIV (b : Bool) (j : WReg) : (s.orZDIV b).getW j = s.getW j := rfl
@[simp] theorem State.getW_setF (i : FReg) (v : Elem) (j : WReg) : (s.setF i v).getW j = s.getW j := rfl
@[simp] theorem State.getW_setP (i : PReg) (v : PointReg) (j : WReg) : (s.setP i v).getW j = s.getW j := rfl
@[simp] theorem State.getW_setS (i : SReg) (v : Str57) (j : WReg) : (s.setS i v).getW j = s.getW j := rfl

/-! ### Precompute() -/

/-- Precompute() writes TBLV and the tables only. -/
theorem State.precompute_cases :
    s.tblv = true ∧ s.precompute = s ∨
      s.tblv = false ∧ s.precompute = { s with btab := buildBtab, ctab := buildCtab, tblv := true } := by
  unfold State.precompute
  cases h : s.tblv <;> simp

@[simp] theorem State.precompute_tblv : s.precompute.tblv = true := by
  rcases s.precompute_cases with ⟨h, e⟩ | ⟨_, e⟩ <;> rw [e]
  exact h
@[simp] theorem State.precompute_fr : s.precompute.fr = s.fr := by
  rcases s.precompute_cases with ⟨_, e⟩ | ⟨_, e⟩ <;> rw [e]
@[simp] theorem State.precompute_pr : s.precompute.pr = s.pr := by
  rcases s.precompute_cases with ⟨_, e⟩ | ⟨_, e⟩ <;> rw [e]
@[simp] theorem State.precompute_sr : s.precompute.sr = s.sr := by
  rcases s.precompute_cases with ⟨_, e⟩ | ⟨_, e⟩ <;> rw [e]
@[simp] theorem State.precompute_wb : s.precompute.wb = s.wb := by
  rcases s.precompute_cases with ⟨_, e⟩ | ⟨_, e⟩ <;> rw [e]
@[simp] theorem State.precompute_msgbuf : s.precompute.msgbuf = s.msgbuf := by
  rcases s.precompute_cases with ⟨_, e⟩ | ⟨_, e⟩ <;> rw [e]
@[simp] theorem State.precompute_ctxbuf : s.precompute.ctxbuf = s.ctxbuf := by
  rcases s.precompute_cases with ⟨_, e⟩ | ⟨_, e⟩ <;> rw [e]
@[simp] theorem State.precompute_msgCap : s.precompute.msgCap = s.msgCap := by
  rcases s.precompute_cases with ⟨_, e⟩ | ⟨_, e⟩ <;> rw [e]
@[simp] theorem State.precompute_ieDone : s.precompute.ieDone = s.ieDone := by
  rcases s.precompute_cases with ⟨_, e⟩ | ⟨_, e⟩ <;> rw [e]
@[simp] theorem State.precompute_ieAccerr : s.precompute.ieAccerr = s.ieAccerr := by
  rcases s.precompute_cases with ⟨_, e⟩ | ⟨_, e⟩ <;> rw [e]
@[simp] theorem State.precompute_busy : s.precompute.busy = s.busy := by
  rcases s.precompute_cases with ⟨_, e⟩ | ⟨_, e⟩ <;> rw [e]
@[simp] theorem State.precompute_done : s.precompute.done = s.done := by
  rcases s.precompute_cases with ⟨_, e⟩ | ⟨_, e⟩ <;> rw [e]
@[simp] theorem State.precompute_cf : s.precompute.cf = s.cf := by
  rcases s.precompute_cases with ⟨_, e⟩ | ⟨_, e⟩ <;> rw [e]
@[simp] theorem State.precompute_accerr : s.precompute.accerr = s.accerr := by
  rcases s.precompute_cases with ⟨_, e⟩ | ⟨_, e⟩ <;> rw [e]
@[simp] theorem State.precompute_zdiv : s.precompute.zdiv = s.zdiv := by
  rcases s.precompute_cases with ⟨_, e⟩ | ⟨_, e⟩ <;> rw [e]
@[simp] theorem State.precompute_err : s.precompute.err = s.err := by
  rcases s.precompute_cases with ⟨_, e⟩ | ⟨_, e⟩ <;> rw [e]
@[simp] theorem State.precompute_cmd : s.precompute.cmd = s.cmd := by
  rcases s.precompute_cases with ⟨_, e⟩ | ⟨_, e⟩ <;> rw [e]
@[simp] theorem State.precompute_ctxLen : s.precompute.ctxLen = s.ctxLen := by
  rcases s.precompute_cases with ⟨_, e⟩ | ⟨_, e⟩ <;> rw [e]
@[simp] theorem State.precompute_msgLen : s.precompute.msgLen = s.msgLen := by
  rcases s.precompute_cases with ⟨_, e⟩ | ⟨_, e⟩ <;> rw [e]
@[simp] theorem State.precompute_inputs : s.precompute.inputs = s.inputs := by
  rcases s.precompute_cases with ⟨_, e⟩ | ⟨_, e⟩ <;> rw [e]
@[simp] theorem State.precompute_resp : s.precompute.resp = s.resp := by
  rcases s.precompute_cases with ⟨_, e⟩ | ⟨_, e⟩ <;> rw [e]
@[simp] theorem State.getF_precompute (j : FReg) : s.precompute.getF j = s.getF j := by
  simp [State.getF]
@[simp] theorem State.getP_precompute (j : PReg) : s.precompute.getP j = s.getP j := by
  simp [State.getP]
@[simp] theorem State.getS_precompute (j : SReg) : s.precompute.getS j = s.getS j := by
  simp [State.getS]
@[simp] theorem State.getW_precompute (j : WReg) : s.precompute.getW j = s.getW j := by
  simp [State.getW]

/-- Precompute() on a state whose tables are built changes nothing (44_scalar_mult.md R230). -/
theorem State.precompute_of_tblv (h : s.tblv = true) : s.precompute = s := by
  simp [State.precompute, h]

/-! ### Reset -/

@[simp] theorem State.restart_inputs : s.restart.inputs = s.inputs := rfl
@[simp] theorem State.restart_msgCap : s.restart.msgCap = s.msgCap := rfl
@[simp] theorem State.restart_busy : s.restart.busy = false := rfl
@[simp] theorem State.restart_tblv : s.restart.tblv = false := rfl

end Sys2Proof.Machine
end

