-- ==== Sys2Proof/Laws/Aperture.lean ====
section
/-! SUPPORT. The host's aperture: the words of the windows bit by bit and byte by byte, and all that one
access can do. -/

set_option exponentiation.threshold 500

namespace Sys2Proof.Machine

/-! ### Words -/

theorem wordByte_wordOf (b0 b1 b2 b3 : Byte) :
    wordByte (wordOf b0 b1 b2 b3) 0 = b0 ∧ wordByte (wordOf b0 b1 b2 b3) 1 = b1 ∧
      wordByte (wordOf b0 b1 b2 b3) 2 = b2 ∧ wordByte (wordOf b0 b1 b2 b3) 3 = b3 := by
  have h (t : Nat) (ht : t < 4) (i : Nat) (hi : i < 8) :
      (wordByte (wordOf b0 b1 b2 b3) t).getLsbD i =
        (BitVec.getLsbD (w := 8 + (8 + (8 + 8))) (b3 ++ (b2 ++ (b1 ++ b0))) (8 * t + i)) := by
    unfold wordByte
    rw [BitVec.getLsbD_extractLsb']
    simp [hi, wordOf]
  refine ⟨?_, ?_, ?_, ?_⟩ <;> apply BitVec.eq_of_getLsbD_eq <;> intro i hi
  · rw [h 0 (by omega) i hi]
    simp only [BitVec.getLsbD_append]
    split_ifs <;> first | omega | (congr 1; omega)
  · rw [h 1 (by omega) i hi]
    simp only [BitVec.getLsbD_append]
    split_ifs <;> first | omega | (congr 1; omega)
  · rw [h 2 (by omega) i hi]
    simp only [BitVec.getLsbD_append]
    split_ifs <;> first | omega | (congr 1; omega)
  · rw [h 3 (by omega) i hi]
    simp only [BitVec.getLsbD_append]
    split_ifs <;> first | omega | (congr 1; omega)

/-- Byte `k` of word `j` of a byte string: byte 4j + k, or 0 past its end (20_memory.md R72, R76). -/
theorem wordByte_bytesWord (bs : Bytes) (j k : Nat) (hk : k < 4) :
    wordByte (bytesWord bs j) k = bs.getD (4 * j + k) 0#8 := by
  obtain ⟨h0, h1, h2, h3⟩ := wordByte_wordOf (bs.getD (4 * j) 0#8) (bs.getD (4 * j + 1) 0#8)
    (bs.getD (4 * j + 2) 0#8) (bs.getD (4 * j + 3) 0#8)
  unfold bytesWord
  interval_cases k
  · exact h0
  · exact h1
  · exact h2
  · exact h3

/-- Byte `k` of a buffer's word (20_memory.md R78, R79). -/
theorem wordByte_readWord (m : Memory) (j k : Nat) (hk : k < 4) :
    wordByte (m.readWord j) k = m.read (j + k) := by
  obtain ⟨h0, h1, h2, h3⟩ := wordByte_wordOf (m.read j) (m.read (j + 1)) (m.read (j + 2)) (m.read (j + 3))
  unfold Memory.readWord
  interval_cases k
  · exact h0
  · exact h1
  · exact h2
  · exact h3

/-- The bits of a 448-bit value with one word replaced (20_memory.md R74). -/
theorem getLsbD_setElemWord (v : Elem) (j : Nat) (w : Word32) (hj : j < 14) (b : Nat) :
    (setElemWord v j w).getLsbD b =
      if 32 * j ≤ b ∧ b < 32 * j + 32 then w.getLsbD (b - 32 * j) else v.getLsbD b := by
  have hm : ∀ i, (0xFFFFFFFF#448).getLsbD i = decide (i < 32) := by
    intro i
    have : 0xFFFFFFFF#448 = (BitVec.allOnes 32).setWidth 448 := by decide
    rw [this, BitVec.getLsbD_setWidth, BitVec.getLsbD_allOnes]
    by_cases h : i < 32
    · simp [h]; omega
    · simp [h]
  unfold setElemWord
  simp only [BitVec.getLsbD_or, BitVec.getLsbD_and, BitVec.getLsbD_not, BitVec.getLsbD_shiftLeft, hm,
    BitVec.getLsbD_setWidth]
  by_cases h : 32 * j ≤ b ∧ b < 32 * j + 32
  · rw [if_pos h]
    simp only [show b < 448 by omega, show b - 32 * j < 448 by omega, show ¬ b < 32 * j by omega,
      show b - 32 * j < 32 by omega]
    simp
  · rw [if_neg h]
    by_cases hb : b < 448
    · by_cases h1 : b < 32 * j
      · simp [hb, h1]
      · have h2 : ¬ b - 32 * j < 32 := by omega
        simp [hb, h1, h2, BitVec.getLsbD_of_ge w (b - 32 * j) (by omega)]
    · simp [hb, BitVec.getLsbD_of_ge v b (by omega)]

/-- The bytes of a 57-byte string with one word replaced (20_memory.md R76). -/
theorem getElem_setStrWord (e : Str57) (j : Nat) (w : Word32) (k : Fin 57) :
    (setStrWord e j w)[k] =
      if 4 * j ≤ k.val ∧ k.val < 4 * j + 4 then wordByte w (k.val - 4 * j) else e[k] := by
  have hk := k.isLt
  simp only [setStrWord, Fin.getElem_fin, Vector.getElem_ofFn]
  by_cases h : k.val / 4 = j
  · rw [if_pos h, if_pos (by omega)]
    congr 1
    omega
  · rw [if_neg h, if_neg (by omega)]

/-! ### Locations -/

/-- The window of a location, without the place inside it. -/
def Loc.area : Loc → Nat
  | .ctxbuf _ => 1
  | .fr .. => 2
  | .pr .. => 3
  | .sr .. => 4
  | .wb .. => 5
  | .msgbuf _ => 6
  | .ctrl => 7
  | .id | .cap | .status | .cmd | .ctxLen | .msgLen => 8
  | .reserved => 0

theorem locateControl_area (o : Nat) :
    (locateControl o).area = 0 ∨ (locateControl o).area = 8 ∨
      ((locateControl o).area = 7 ∧ o = 0x08) := by
  unfold locateControl
  split <;> simp [Loc.area]

theorem locateFR_area (o : Nat) : (locateFR o).area = if o % 64 / 4 < 14 then 2 else 0 := by
  unfold locateFR
  split <;> simp [Loc.area]

theorem locatePR_area (o : Nat) : (locatePR o).area = if o % 64 / 4 < 14 then 3 else 0 := by
  unfold locatePR
  split <;> simp [Loc.area]

theorem locateSR_area (o : Nat) : (locateSR o).area = if o % 64 / 4 < 15 then 4 else 0 := by
  unfold locateSR
  split <;> simp [Loc.area]

theorem locateWB_area (o : Nat) : (locateWB o).area = if o % 512 < 448 then 5 else 0 := by
  unfold locateWB
  split <;> simp [Loc.area]

/-! The address map range by range (20_memory.md R73). -/

theorem locate_control {cap o : Nat} (h : o < 0x100) :
    locate cap o = locateControl o := by
  unfold locate
  rw [if_pos h]

theorem locate_ctx {cap o : Nat} (h : 0x100 ≤ o) (h' : o < 0x200) :
    locate cap o = .ctxbuf (o - 0x100) := by
  unfold locate
  repeat first | rw [if_pos (by omega)] | rw [if_neg (by omega)]

theorem locate_fr {cap o : Nat} (h : 0x1000 ≤ o) (h' : o < 0x1400) :
    locate cap o = locateFR (o - 0x1000) := by
  unfold locate
  repeat first | rw [if_pos (by omega)] | rw [if_neg (by omega)]

theorem locate_pr {cap o : Nat} (h : 0x2000 ≤ o) (h' : o < 0x2C00) :
    locate cap o = locatePR (o - 0x2000) := by
  unfold locate
  repeat first | rw [if_pos (by omega)] | rw [if_neg (by omega)]

theorem locate_sr {cap o : Nat} (h : 0x3000 ≤ o) (h' : o < 0x3400) :
    locate cap o = locateSR (o - 0x3000) := by
  unfold locate
  repeat first | rw [if_pos (by omega)] | rw [if_neg (by omega)]

theorem locate_wb {cap o : Nat} (h : 0x3800 ≤ o) (h' : o < 0x3C00) :
    locate cap o = locateWB (o - 0x3800) := by
  unfold locate
  repeat first | rw [if_pos (by omega)] | rw [if_neg (by omega)]

theorem locate_msg {cap o : Nat} (h : 0x4000 ≤ o) (h' : o < 0x4000 + cap) :
    locate cap o = .msgbuf (o - 0x4000) := by
  unfold locate
  repeat first | rw [if_pos (by omega)] | rw [if_neg (by omega)]

theorem locate_gap {cap o : Nat}
    (h : (0x200 ≤ o ∧ o < 0x1000) ∨ (0x1400 ≤ o ∧ o < 0x2000) ∨ (0x2C00 ≤ o ∧ o < 0x3000) ∨
      (0x3400 ≤ o ∧ o < 0x3800) ∨ (0x3C00 ≤ o ∧ o < 0x4000) ∨ 0x4000 + cap ≤ o) :
    locate cap o = .reserved := by
  unfold locate
  rcases h with h | h | h | h | h | h <;>
    repeat first | rw [if_pos (by omega)] | rw [if_neg (by omega)]

/-- The whole address map (20_memory.md R73). -/
theorem locate_cases (cap o : Nat) :
    (o < 0x100 ∧ locate cap o = locateControl o) ∨
    (0x100 ≤ o ∧ o < 0x200 ∧ locate cap o = .ctxbuf (o - 0x100)) ∨
    (0x1000 ≤ o ∧ o < 0x1400 ∧ locate cap o = locateFR (o - 0x1000)) ∨
    (0x2000 ≤ o ∧ o < 0x2C00 ∧ locate cap o = locatePR (o - 0x2000)) ∨
    (0x3000 ≤ o ∧ o < 0x3400 ∧ locate cap o = locateSR (o - 0x3000)) ∨
    (0x3800 ≤ o ∧ o < 0x3C00 ∧ locate cap o = locateWB (o - 0x3800)) ∨
    (0x4000 ≤ o ∧ o < 0x4000 + cap ∧ locate cap o = .msgbuf (o - 0x4000)) ∨
    (((0x200 ≤ o ∧ o < 0x1000) ∨ (0x1400 ≤ o ∧ o < 0x2000) ∨ (0x2C00 ≤ o ∧ o < 0x3000) ∨
      (0x3400 ≤ o ∧ o < 0x3800) ∨ (0x3C00 ≤ o ∧ o < 0x4000) ∨ 0x4000 + cap ≤ o) ∧
      locate cap o = .reserved) := by
  obtain h | h | h | h | h | h | h | h : o < 0x100 ∨ (0x100 ≤ o ∧ o < 0x200) ∨ (0x1000 ≤ o ∧ o < 0x1400) ∨
      (0x2000 ≤ o ∧ o < 0x2C00) ∨ (0x3000 ≤ o ∧ o < 0x3400) ∨ (0x3800 ≤ o ∧ o < 0x3C00) ∨
      (0x4000 ≤ o ∧ o < 0x4000 + cap) ∨
      ((0x200 ≤ o ∧ o < 0x1000) ∨ (0x1400 ≤ o ∧ o < 0x2000) ∨ (0x2C00 ≤ o ∧ o < 0x3000) ∨
        (0x3400 ≤ o ∧ o < 0x3800) ∨ (0x3C00 ≤ o ∧ o < 0x4000) ∨ 0x4000 + cap ≤ o) := by omega
  · exact .inl ⟨h, locate_control h⟩
  · exact .inr (.inl ⟨h.1, h.2, locate_ctx h.1 h.2⟩)
  · exact .inr (.inr (.inl ⟨h.1, h.2, locate_fr h.1 h.2⟩))
  · exact .inr (.inr (.inr (.inl ⟨h.1, h.2, locate_pr h.1 h.2⟩)))
  · exact .inr (.inr (.inr (.inr (.inl ⟨h.1, h.2, locate_sr h.1 h.2⟩))))
  · exact .inr (.inr (.inr (.inr (.inr (.inl ⟨h.1, h.2, locate_wb h.1 h.2⟩)))))
  · exact .inr (.inr (.inr (.inr (.inr (.inr (.inl ⟨h.1, h.2, locate_msg h.1 h.2⟩))))))
  · exact .inr (.inr (.inr (.inr (.inr (.inr (.inr ⟨h, locate_gap h⟩))))))

/-- MSGBUF words lie inside MSGBUF. -/
theorem locate_msgbuf {cap o k : Nat} (h : locate cap o = .msgbuf k) :
    0x4000 ≤ o ∧ k = o - 0x4000 ∧ k < cap := by
  have ha : (locate cap o).area = 6 := by rw [h]; rfl
  rcases locate_cases cap o with c | c | c | c | c | c | c | c
  · have := locateControl_area o
    rw [c.2] at ha
    omega
  · rw [c.2.2] at ha
    cases ha
  · rw [c.2.2, locateFR_area] at ha
    split at ha <;> cases ha
  · rw [c.2.2, locatePR_area] at ha
    split at ha <;> cases ha
  · rw [c.2.2, locateSR_area] at ha
    split at ha <;> cases ha
  · rw [c.2.2, locateWB_area] at ha
    split at ha <;> cases ha
  · have e := c.2.2
    rw [h] at e
    injection e with hk
    omega
  · rw [c.2] at ha
    cases ha

/-- CTXBUF words lie inside CTXBUF. -/
theorem locate_ctxbuf {cap o k : Nat} (h : locate cap o = .ctxbuf k) :
    0x100 ≤ o ∧ k = o - 0x100 ∧ o < 0x200 := by
  have ha : (locate cap o).area = 1 := by rw [h]; rfl
  rcases locate_cases cap o with c | c | c | c | c | c | c | c
  · have := locateControl_area o
    rw [c.2] at ha
    omega
  · have e := c.2.2
    rw [h] at e
    injection e with hk
    omega
  · rw [c.2.2, locateFR_area] at ha
    split at ha <;> cases ha
  · rw [c.2.2, locatePR_area] at ha
    split at ha <;> cases ha
  · rw [c.2.2, locateSR_area] at ha
    split at ha <;> cases ha
  · rw [c.2.2, locateWB_area] at ha
    split at ha <;> cases ha
  · rw [c.2.2] at ha
    cases ha
  · rw [c.2] at ha
    cases ha

/-- Only offset 0x08 is CTRL. -/
theorem locate_ctrl {cap o : Nat} (h : locate cap o = .ctrl) : o = 0x08 := by
  have ha : (locate cap o).area = 7 := by rw [h]; rfl
  rcases locate_cases cap o with c | c | c | c | c | c | c | c
  · have := locateControl_area o
    rw [c.2] at ha
    omega
  · rw [c.2.2] at ha
    cases ha
  · rw [c.2.2, locateFR_area] at ha
    split at ha <;> cases ha
  · rw [c.2.2, locatePR_area] at ha
    split at ha <;> cases ha
  · rw [c.2.2, locateSR_area] at ha
    split at ha <;> cases ha
  · rw [c.2.2, locateWB_area] at ha
    split at ha <;> cases ha
  · rw [c.2.2] at ha
    cases ha
  · rw [c.2] at ha
    cases ha

/-- Only offset 0x0C is STATUS. -/
theorem locate_status {cap o : Nat} (h : locate cap o = .status) : o = 0x0C := by
  have ha : (locate cap o).area = 8 := by rw [h]; rfl
  rcases locate_cases cap o with c | c | c | c | c | c | c | c
  · have e := c.2
    rw [h] at e
    unfold locateControl at e
    split at e <;> first | rfl | cases e
  · rw [c.2.2] at ha
    cases ha
  · rw [c.2.2, locateFR_area] at ha
    split at ha <;> cases ha
  · rw [c.2.2, locatePR_area] at ha
    split at ha <;> cases ha
  · rw [c.2.2, locateSR_area] at ha
    split at ha <;> cases ha
  · rw [c.2.2, locateWB_area] at ha
    split at ha <;> cases ha
  · rw [c.2.2] at ha
    cases ha
  · rw [c.2] at ha
    cases ha

/-- The mapped words of the FR window (20_memory.md R74). -/
theorem locate_frWord (cap i j : Nat) (hi : i < 16) (hj : j < 14) :
    locate cap (0x1000 + 64 * i + 4 * j) = .fr ⟨i, hi⟩ j := by
  have h1 : (0x1000 + 64 * i + 4 * j - 0x1000) / 64 = i := by omega
  have h2 : (0x1000 + 64 * i + 4 * j - 0x1000) % 64 / 4 = j := by omega
  rw [locate_fr (by omega) (by omega), locateFR, h1, h2, if_pos hj]
  congr 1
  exact Fin.ext (Nat.mod_eq_of_lt hi)

/-- The mapped words of the PR window (20_memory.md R75); `c` is 0, 1 or 2 for X, Y or Z. -/
theorem locate_prWord (cap i c j : Nat) (hi : i < 16) (hc : c < 3) (hj : j < 14) :
    locate cap (0x2000 + 192 * i + 64 * c + 4 * j) = .pr ⟨i, hi⟩ (compOfSlot c) j := by
  have h1 : (0x2000 + 192 * i + 64 * c + 4 * j - 0x2000) / 192 = i := by omega
  have h2 : (0x2000 + 192 * i + 64 * c + 4 * j - 0x2000) % 64 / 4 = j := by omega
  have h3 : (0x2000 + 192 * i + 64 * c + 4 * j - 0x2000) % 192 / 64 = c := by omega
  rw [locate_pr (by omega) (by omega), locatePR, h1, h2, h3, if_pos hj]
  congr 1
  exact Fin.ext (Nat.mod_eq_of_lt hi)

/-- The mapped words of the SR window (20_memory.md R76). -/
theorem locate_srWord (cap i j : Nat) (hi : i < 16) (hj : j < 15) :
    locate cap (0x3000 + 64 * i + 4 * j) = .sr ⟨i, hi⟩ j := by
  have h1 : (0x3000 + 64 * i + 4 * j - 0x3000) / 64 = i := by omega
  have h2 : (0x3000 + 64 * i + 4 * j - 0x3000) % 64 / 4 = j := by omega
  rw [locate_sr (by omega) (by omega), locateSR, h1, h2, if_pos hj]
  congr 1
  exact Fin.ext (Nat.mod_eq_of_lt hi)

/-- The mapped words of the WB windows (20_memory.md R77). -/
theorem locate_wbWord (cap i j : Nat) (hi : i < 2) (hj : j < 112) :
    locate cap (0x3800 + 512 * i + 4 * j) = .wb ⟨i, hi⟩ j := by
  have h1 : (0x3800 + 512 * i + 4 * j - 0x3800) / 512 = i := by omega
  have h2 : (0x3800 + 512 * i + 4 * j - 0x3800) % 512 / 4 = j := by omega
  rw [locate_wb (by omega) (by omega), locateWB, h1, h2, if_pos (by omega)]
  congr 1
  exact Fin.ext (Nat.mod_eq_of_lt hi)

/-- The MSGBUF window (20_memory.md R78). -/
theorem locate_msgWord (cap k : Nat) (hk : k < cap) : locate cap (0x4000 + k) = .msgbuf k := by
  rw [locate_msg (by omega) (by omega), Nat.add_sub_cancel_left]

/-- The CTXBUF window (20_memory.md R79). -/
theorem locate_ctxWord (cap k : Nat) (hk : k < 256) : locate cap (0x100 + k) = .ctxbuf k := by
  rw [locate_ctx (by omega) (by omega), Nat.add_sub_cancel_left]

theorem eq_reserved_of_area {l : Loc} (h : l.area = 0) : l = .reserved := by
  cases l <;> first | rfl | (simp [Loc.area] at h)

/-- The reserved words (20_memory.md R80). -/
theorem locate_reservedWord {cap o : Nat} (h : reservedWord cap o) : locate cap o = .reserved := by
  obtain ⟨_, h⟩ := h
  apply eq_reserved_of_area
  rcases locate_cases cap o with c | c | c | c | c | c | c | c
  · rw [c.2]
    unfold locateControl
    split <;> first | rfl | omega
  · rw [c.2.2]
    omega
  · rw [c.2.2, locateFR_area, if_neg (by omega)]
  · rw [c.2.2, locatePR_area, if_neg (by omega)]
  · rw [c.2.2, locateSR_area, if_neg (by omega)]
  · rw [c.2.2, locateWB_area, if_neg (by omega)]
  · rw [c.2.2]
    omega
  · rw [c.2]
    rfl

/-- What the area of a location says of the interlock (20_memory.md R82). -/
theorem isWindow_of_area {l : Loc} (h : 1 ≤ l.area ∧ l.area ≤ 6) : l.isWindow = true := by
  cases l <;> first | rfl | (simp [Loc.area] at h)

theorem interlocked_of_area {l : Loc} (h : 1 ≤ l.area ∧ l.area ≤ 6 ∧ l.area ≠ 5) :
    l.interlocked = true := by
  cases l <;> first | rfl | (simp [Loc.area] at h)

/-- The area of the mapped words of the windows (20_memory.md R73). -/
theorem locate_area_window {cap o : Nat} (h : windowWord cap o) :
    1 ≤ (locate cap o).area ∧ (locate cap o).area ≤ 6 ∧ ((locate cap o).area = 5 → 0x3800 ≤ o ∧ o < 0x3C00) := by
  obtain ⟨_, h⟩ := h
  rcases locate_cases cap o with c | c | c | c | c | c | c | c
  · rw [c.2]
    omega
  · rw [c.2.2]
    simp [Loc.area]
  · rw [c.2.2, locateFR_area, if_pos (by omega)]
    simp
  · rw [c.2.2, locatePR_area, if_pos (by omega)]
    simp
  · rw [c.2.2, locateSR_area, if_pos (by omega)]
    simp
  · have h1 := c.1
    have h2 := c.2.1
    rw [c.2.2, locateWB_area, if_pos (by omega)]
    simp [h1, h2]
  · rw [c.2.2]
    simp [Loc.area]
  · rw [c.2]
    omega

/-- The words that read 0 while BUSY = 1 (20_memory.md R82). -/
theorem locate_windowWord {cap o : Nat} (h : windowWord cap o) : (locate cap o).isWindow = true :=
  isWindow_of_area ⟨(locate_area_window h).1, (locate_area_window h).2.1⟩

/-- The words whose write is dropped while BUSY = 1 (20_memory.md R82). -/
theorem locate_operandWord {cap o : Nat} (h : operandWord cap o) :
    (locate cap o).interlocked = true := by
  obtain ⟨h4, h⟩ := h
  by_cases hc : o = 0x10 ∨ o = 0x14 ∨ o = 0x18
  · rcases hc with rfl | rfl | rfl <;> rfl
  · have hw := locate_area_window (cap := cap) (o := o) ⟨h4, by omega⟩
    exact interlocked_of_area ⟨hw.1, hw.2.1, fun h5 => by have := hw.2.2 h5; omega⟩

/-- A legal read at a location answers with that location's word (20_memory.md R83). -/
theorem reads_of_locate {s : State} {off : BitVec 16} {l : Loc} (h4 : off.toNat % 4 = 0)
    (hl : locate s.msgCap.bytes off.toNat = l) : reads s off (s.hostRead l) := by
  subst hl
  simp [reads, State.hostAccess, legalAccess, h4, State.locate]

/-- A legal write at a location is the host write of that location. -/
theorem storesTo_of_locate {s : State} {off : BitVec 16} {l : Loc} (w : Word32)
    (h4 : off.toNat % 4 = 0) (hl : locate s.msgCap.bytes off.toNat = l) :
    storesTo s off w (s.hostWrite l w) := by
  subst hl
  simp [storesTo, State.hostAccess, legalAccess, h4, State.locate]

/-! ### One access -/

/-- All that one host access can do: it resets the core, or it keeps the tables, the digits, CF, MSG_CAP
and the schedule, clears nothing but W1C bits, and leaves the operands alone while a command runs. -/
structure AccessResult (s t : State) : Prop where
  msgCap : t.msgCap = s.msgCap
  inputs : t.inputs = s.inputs
  wb : t.wb = s.wb
  cf : t.cf = s.cf
  tblv : t.tblv = s.tblv
  btab : t.btab = s.btab
  ctab : t.ctab = s.ctab
  /-- While a command runs, its operands, CMD, BUSY and ERR are held (20_memory.md R82, R86). -/
  held : s.busy = true → t.fr = s.fr ∧ t.pr = s.pr ∧ t.sr = s.sr ∧ t.msgbuf = s.msgbuf ∧
    t.ctxbuf = s.ctxbuf ∧ t.ctxLen = s.ctxLen ∧ t.msgLen = s.msgLen ∧ t.cmd = s.cmd ∧
    t.busy = true ∧ t.err = s.err
  /-- DONE is only ever cleared. -/
  done : t.done = true → s.done = true
  /-- A command is accepted with DONE and ERR cleared (40_control.md R130 (1)). -/
  accepted : s.busy = false → t.busy = true → t.done = false ∧ t.err = .ok

/-- A write that is not dropped, other than to CTRL. -/
theorem State.storeWord_result (s : State) (w : Word32) (l : Loc) (hc : l ≠ .ctrl)
    (hb : s.busy = true → l.interlocked = false) : AccessResult s (s.storeWord w l) := by
  cases l <;>
    first
    | exact absurd rfl hc
    | (refine ⟨rfl, rfl, rfl, rfl, rfl, rfl, rfl, fun h => ?_, fun h => ?_, fun h h' => ?_⟩ <;>
        simp_all [State.storeWord, Loc.interlocked, State.acknowledge, State.accept, State.setF, State.setP,
          State.setS])

/-- One access, everything it can do (20_memory.md R70 to R83). -/
theorem State.hostAccess_cases (s : State) (a : HostAccess) :
    AccessResult s (s.hostAccess a) ∨
      (softReset a ∧ s.hostAccess a = { s.restart with resp := .done }) := by
  have keep (r : HostResponse) : AccessResult s { s with resp := r } :=
    ⟨rfl, rfl, rfl, rfl, rfl, rfl, rfl, fun h => ⟨rfl, rfl, rfl, rfl, rfl, rfl, rfl, rfl, h, rfl⟩, id,
      fun h h' => absurd h' (by simp [h])⟩
  cases a with
  | read width off =>
    refine .inl ?_
    simp only [State.hostAccess]
    split
    · exact keep _
    · exact keep _
  | write width off w =>
    simp only [State.hostAccess]
    split
    · rename_i hl
      unfold State.hostWrite
      split
      · exact .inl ⟨rfl, rfl, rfl, rfl, rfl, rfl, rfl,
          fun h => ⟨rfl, rfl, rfl, rfl, rfl, rfl, rfl, rfl, h, rfl⟩, id,
          fun h h' => absurd h' (by simp [h])⟩
      · rename_i hb
        by_cases hc : s.locate off = .ctrl
        · rw [hc]
          by_cases h31 : w.getLsbD 31 = true
          · refine .inr ⟨?_, by simp [State.storeWord, State.writeCtrl, h31]⟩
            simp only [legalAccess, Bool.and_eq_true, decide_eq_true_eq] at hl
            refine ⟨hl.1, ?_, h31⟩
            apply BitVec.eq_of_toNat_eq
            exact locate_ctrl hc
          · refine .inl ?_
            rw [State.storeWord, State.writeCtrl, if_neg h31]
            exact ⟨rfl, rfl, rfl, rfl, rfl, rfl, rfl,
              fun h => ⟨rfl, rfl, rfl, rfl, rfl, rfl, rfl, rfl, h, rfl⟩, id,
              fun h h' => absurd h' (by simp [h])⟩
        · have h := s.storeWord_result w (s.locate off) hc (fun hbusy => by simpa [hbusy] using hb)
          exact .inl ⟨h.msgCap, h.inputs, h.wb, h.cf, h.tblv, h.btab, h.ctab, h.held, h.done, h.accepted⟩
    · exact .inl (keep _)

/-- Every access keeps the buffers in good order (10_state.md R39, R40). -/
theorem State.hostAccess_buffersWf (s : State) (a : HostAccess) (h : s.buffersWf = true) :
    (s.hostAccess a).buffersWf = true := by
  have hcap := s.msgCap.legal.2.2
  cases a with
  | read width off =>
    simp only [State.hostAccess]
    split <;> exact h
  | write width off w =>
    simp only [State.hostAccess]
    split
    · rename_i hl
      simp only [legalAccess, Bool.and_eq_true, decide_eq_true_eq] at hl
      unfold State.hostWrite
      split
      · exact h
      · simp only [State.buffersWf, Bool.and_eq_true] at h
        obtain ⟨⟨⟨h1, h2⟩, h3⟩, h4⟩ := h
        cases hloc : s.locate off with
        | msgbuf k =>
          obtain ⟨hlow, hk, hk'⟩ := locate_msgbuf hloc
          simp only [State.storeWord, State.buffersWf, Bool.and_eq_true]
          refine ⟨⟨⟨Memory.wf_writeWord _ _ h1, Memory.below_writeWord _ h2 ?_⟩, h3⟩, h4⟩
          omega
        | ctxbuf k =>
          obtain ⟨hlow, hk, hk'⟩ := locate_ctxbuf hloc
          simp only [State.storeWord, State.buffersWf, Bool.and_eq_true]
          refine ⟨⟨⟨h1, h2⟩, Memory.wf_writeWord _ _ h3⟩, Memory.below_writeWord _ h4 ?_⟩
          omega
        | ctrl =>
          simp only [State.storeWord, State.writeCtrl]
          split
          · rfl
          · simp [State.buffersWf, h1, h2, h3, h4]
        | _ => simp [State.storeWord, State.buffersWf, State.acknowledge, State.accept, State.setF, State.setP,
            State.setS, h1, h2, h3, h4]
    · exact h

end Sys2Proof.Machine
end

