-- ==== Sys2Proof/Laws/Arith.lean ====
section
/-! SUPPORT. The field functions: canonical results, and the binary exponentiation equal to the power. -/

set_option exponentiation.threshold 500

namespace Sys2Proof.Machine

open Sys2Proof.Config

/-- The modulus as 00_scope.md R5 writes it. -/
theorem p_eq : p = 2 ^ 448 - 2 ^ 224 - 1 := by decide +kernel

theorem p_pos : 0 < p := by decide +kernel
theorem one_lt_p : 1 < p := by decide +kernel

theorem p_lt : p < 2 ^ 448 := by decide +kernel

theorem groupOrder_lt : groupOrder < 2 ^ 446 := by decide +kernel

theorem groupOrder_pos : 0 < groupOrder := by decide +kernel

theorem scalarRange_eq : scalarRange = 2 ^ 446 := by decide +kernel

theorem fadd_lt (a b : Nat) : fadd a b < p := Nat.mod_lt _ p_pos
theorem fsub_lt (a b : Nat) : fsub a b < p := Nat.mod_lt _ p_pos
theorem fmul_lt (a b : Nat) : fmul a b < p := Nat.mod_lt _ p_pos
theorem fsqr_lt (a : Nat) : fsqr a < p := Nat.mod_lt _ p_pos
theorem fneg_lt (a : Nat) : fneg a < p := Nat.mod_lt _ p_pos
theorem fieldVal_lt (v : Elem) : fieldVal v < p := Nat.mod_lt _ p_pos

/-- The difference as integers (41_field.md R143, R154). -/
theorem fsub_eq (a b : Nat) : (fsub a b : Int) = ((a : Int) - b) % p := by
  have hp : 0 < p := p_pos
  have hb : b % p < p := Nat.mod_lt _ hp
  unfold fsub
  push_cast [Nat.cast_sub hb.le]
  rw [show (a : Int) + ((p : Int) - (b : Int) % p) = (a - (b : Int) % p) + p by ring,
    Int.add_emod_right, Int.sub_emod, Int.emod_emod, ← Int.sub_emod]

/-- The negation as integers (41_field.md R147). -/
theorem fneg_eq (a : Nat) : (fneg a : Int) = (-(a : Int)) % p := by
  have h := fsub_eq 0 a
  have h0 : fneg a = fsub 0 a := by unfold fneg fsub; rw [Nat.zero_add]
  rw [h0, h]
  simp

/-- A canonical value survives the register. -/
theorem toNat_elemOf {n : Nat} (h : n < p) : (elemOf n).toNat = n := by
  unfold elemOf
  rw [BitVec.toNat_ofNat]
  exact Nat.mod_eq_of_lt (h.trans p_lt)

@[simp] theorem fieldVal_elemOf {n : Nat} (h : n < p) : fieldVal (elemOf n) = n := by
  unfold fieldVal
  rw [toNat_elemOf h, Nat.mod_eq_of_lt h]

/-- What the exponentiation loop computes. -/
theorem powLoop_eq (fuel b e acc : Nat) (he : e < 2 ^ fuel) :
    powLoop fuel b e acc % p = acc * b ^ e % p := by
  induction fuel generalizing b e acc with
  | zero =>
    have : e = 0 := by simpa using he
    simp [powLoop, this]
  | succ fuel ih =>
    have he' : e / 2 < 2 ^ fuel := by
      rw [pow_succ] at he
      omega
    rw [powLoop, ih _ _ _ he']
    have hb : (b * b % p) ^ (e / 2) % p = b ^ (2 * (e / 2)) % p := by
      rw [← Nat.pow_mod, pow_mul, pow_two]
    have split : e = 2 * (e / 2) + e % 2 := (Nat.div_add_mod e 2).symm
    by_cases h1 : e % 2 = 1
    · rw [if_pos h1, Nat.mul_mod, Nat.mod_mod, hb, ← Nat.mul_mod]
      conv_rhs => rw [split, h1, pow_succ]
      congr 1
      ring
    · have h0 : e % 2 = 0 := by omega
      rw [if_neg h1, Nat.mul_mod, hb, ← Nat.mul_mod]
      conv_rhs => rw [split, h0, Nat.add_zero]

theorem powLoop_lt (fuel b e acc : Nat) (h : acc < p) : powLoop fuel b e acc < p := by
  induction fuel generalizing b e acc with
  | zero => exact h
  | succ fuel ih =>
    rw [powLoop]
    apply ih
    split
    · exact Nat.mod_lt _ p_pos
    · exact h

/-- fpow is the power mod p (41_field.md R146, R151). -/
theorem fpow_eq (a e : Nat) (he : e < 2 ^ 448) : fpow a e = a ^ e % p := by
  unfold fpow
  rw [← Nat.mod_eq_of_lt (powLoop_lt 448 (a % p) e 1 one_lt_p), powLoop_eq _ _ _ _ he, one_mul,
    ← Nat.pow_mod]

theorem fpow_lt (a e : Nat) : fpow a e < p := powLoop_lt _ _ _ _ one_lt_p

/-- finv is a^(p−2) mod p (41_field.md R146). -/
theorem finv_eq (a : Nat) : finv a = a ^ (p - 2) % p :=
  fpow_eq a (p - 2) (lt_of_le_of_lt (Nat.sub_le p 2) p_lt)

theorem finv_lt (a : Nat) : finv a < p := fpow_lt _ _

/-- The coordinates of a triple are canonical. -/
def Pt.canonical (q : Pt) : Prop := q.x < p ∧ q.y < p ∧ q.z < p

theorem PointReg.val_canonical (q : PointReg) : q.val.canonical :=
  ⟨fieldVal_lt _, fieldVal_lt _, fieldVal_lt _⟩

theorem neutral_canonical : neutral.canonical := ⟨p_pos, one_lt_p, one_lt_p⟩

theorem dbl_canonical (q : Pt) : (dbl q).canonical := ⟨fmul_lt _ _, fmul_lt _ _, fmul_lt _ _⟩

theorem add_canonical (neg : Bool) (q r : Pt) : (add neg q r).canonical :=
  ⟨fmul_lt _ _, fmul_lt _ _, fmul_lt _ _⟩

theorem norm_canonical (q : Pt) : (norm q).canonical := ⟨fmul_lt _ _, fmul_lt _ _, one_lt_p⟩

/-- A canonical triple survives the point register. -/
theorem Pt.val_reg {q : Pt} (h : q.canonical) : q.reg.val = q := by
  obtain ⟨x, y, z⟩ := q
  obtain ⟨hx, hy, hz⟩ := h
  simp only at hx hy hz
  simp [Pt.reg, PointReg.val, fieldVal_elemOf hx, fieldVal_elemOf hy, fieldVal_elemOf hz]

theorem sqrtCandidate_lt (u v : Nat) : sqrtCandidate u v < p := by
  unfold sqrtCandidate
  exact fmul_lt _ _

/-- The square root of a ratio, when it answers: the root is canonical and squares to u / v. -/
theorem sqrtRatio_some {u v x : Nat} (h : sqrtRatio u v = some x) :
    x = sqrtCandidate u v ∧ x < p ∧ v * (x * x) % p = u % p := by
  unfold sqrtRatio at h
  simp only at h
  split at h
  · rename_i hx
    have hx' := Option.some.inj h
    rw [hx'] at hx
    refine ⟨hx'.symm, hx' ▸ sqrtCandidate_lt u v, ?_⟩
    rw [← hx]
    unfold fmul fsqr
    rw [Nat.mul_mod v (_ % p), Nat.mod_mod, ← Nat.mul_mod]
  · cases h

end Sys2Proof.Machine
end

