-- ==== Sys2Proof/Laws/Bytes.lean ====
section
/-! SUPPORT. Byte strings: little-endian encoding and decoding undo each other. -/

namespace Sys2Proof.Machine

open Sys2Proof.Config

@[simp] theorem leBytes_length (n v : Nat) : (leBytes n v).length = n := by
  induction n generalizing v with
  | zero => rfl
  | succ n ih => simp [leBytes, ih]

/-- int_le of le_n is the value, mod 2^(8n) (00_scope.md R13). -/
theorem intLE_leBytes (n v : Nat) : intLE (leBytes n v) = v % 256 ^ n := by
  induction n generalizing v with
  | zero => simp [leBytes, intLE, Nat.mod_one]
  | succ n ih =>
    rw [leBytes, intLE, ih, BitVec.toNat_ofNat, show 256 ^ (n + 1) = 256 * 256 ^ n from pow_succ' _ _,
      Nat.mod_mul, show (2 : Nat) ^ 8 = 256 by norm_num]

theorem intLE_lt (bs : Bytes) : intLE bs < 256 ^ bs.length := by
  induction bs with
  | nil => simp [intLE]
  | cons b bs ih =>
    have := b.isLt
    rw [intLE, List.length_cons, pow_succ']
    norm_num at this ⊢
    omega

theorem leBytes_take (n m v : Nat) (h : n ≤ m) : (leBytes m v).take n = leBytes n v := by
  induction n generalizing m v with
  | zero => simp [leBytes]
  | succ n ih =>
    obtain ⟨m, rfl⟩ : ∃ k, m = k + 1 := ⟨m - 1, by omega⟩
    simp [leBytes, ih m (v / 256) (by omega)]

theorem leBytes_getD (n v k : Nat) (h : k < n) :
    (leBytes n v).getD k 0#8 = BitVec.ofNat 8 (v / 256 ^ k) := by
  induction n generalizing v k with
  | zero => omega
  | succ n ih =>
    cases k with
    | zero => simp [leBytes]
    | succ k =>
      have := ih (v / 256) k (by omega)
      simp only [leBytes, List.getD_cons_succ, this]
      rw [Nat.div_div_eq_div_mul, pow_succ']

/-- A list of 57 bytes is the list of its 57-byte string. -/
theorem str57_toList (bs : Bytes) (h : bs.length = 57) : (str57 bs).toList = bs := by
  apply List.ext_getElem
  · simp [h]
  · intro i h1 h2
    simp [str57, List.getD_eq_getElem?_getD, List.getElem?_eq_getElem h2]

@[simp] theorem str57_getElem (bs : Bytes) (k : Nat) (h : k < 57) : (str57 bs)[k] = bs.getD k 0#8 := by
  simp [str57]

/-- sdec of le_57 is the value for a value below 2^448 (42_scalar.md R170). -/
theorem sdec_le57 (v : Nat) (h : v < 256 ^ 56) : sdec (le57 v) = v := by
  unfold sdec le57
  rw [str57_toList _ (by simp), leBytes_take _ _ _ (by omega), intLE_leBytes, Nat.mod_eq_of_lt h]

/-- Byte 56 of le_57 is 0 for a value below 2^448 (42_scalar.md R170). -/
theorem le57_top (v : Nat) (h : v < 256 ^ 56) : (le57 v)[56] = 0#8 := by
  unfold le57
  rw [str57_getElem, leBytes_getD _ _ _ (by omega), Nat.div_eq_of_lt h]

theorem sdec_lt (e : Str57) : sdec e < 256 ^ 56 := by
  have h := intLE_lt (e.toList.take 56)
  simpa [sdec] using h

end Sys2Proof.Machine
end

