-- ==== Sys2Proof/Laws/Curve.lean ====
section
/-! SUPPORT. The field functions read in ZMod p, and the point functions: they compute the formulas of
43_point.md R191 and R192 there, and stay on the curve. -/

namespace Sys2Proof.Machine

open Sys2Proof.Config

/-! ### Casts to ZMod p -/

theorem cast_mod (a : Nat) : ((a % p : Nat) : ZMod p) = (a : ZMod p) := ZMod.natCast_mod a p

theorem cast_fieldVal (v : Elem) : ((fieldVal v : Nat) : ZMod p) = residue v := cast_mod _

theorem cast_fadd (a b : Nat) : ((fadd a b : Nat) : ZMod p) = a + b := by
  unfold fadd
  rw [cast_mod]
  push_cast
  rfl

theorem cast_fmul (a b : Nat) : ((fmul a b : Nat) : ZMod p) = a * b := by
  unfold fmul
  rw [cast_mod]
  push_cast
  rfl

theorem cast_fsqr (a : Nat) : ((fsqr a : Nat) : ZMod p) = a ^ 2 := by
  unfold fsqr
  rw [cast_mod]
  push_cast
  ring

theorem cast_fsub (a b : Nat) : ((fsub a b : Nat) : ZMod p) = a - b := by
  have h : ((fsub a b : Int) : ZMod p) = (((a : Int) - b : Int) : ZMod p) := by
    rw [fsub_eq]
    exact (ZMod.intCast_mod _ p)
  push_cast at h
  exact h

theorem cast_fneg (a : Nat) : ((fneg a : Nat) : ZMod p) = -a := by
  have h : ((fneg a : Int) : ZMod p) = ((-(a : Int) : Int) : ZMod p) := by
    rw [fneg_eq]
    exact (ZMod.intCast_mod _ p)
  push_cast at h
  exact h

/-- d = −39081 (00_scope.md R7). -/
theorem cast_curveD : (curveD : ZMod p) = -39081 := by
  have h : curveD + 39081 = p := by decide +kernel
  have h' : ((curveD + 39081 : Nat) : ZMod p) = 0 := by rw [h]; exact ZMod.natCast_self p
  push_cast at h'
  linear_combination h'

/-! ### Staying on the curve -/

/-- Doubling stays on the curve (43_point.md R191, R193). -/
theorem onCurve_dbl {q : Pt} (h : onCurve q) : onCurve (dbl q) := by
  unfold onCurve at h ⊢
  simp only [dbl, cast_fmul, cast_fsub, cast_fadd, cast_fsqr]
  push_cast
  generalize (q.x : ZMod p) = x at *
  generalize (q.y : ZMod p) = y at *
  generalize (q.z : ZMod p) = z at *
  generalize (curveD : ZMod p) = d at *
  linear_combination (4 * (x ^ 2 + y ^ 2) ^ 2 * (x ^ 2 + y ^ 2 - 2 * z ^ 2) ^ 2 * (x ^ 2 - y ^ 2) ^ 2) * h

/-- The equation that 43_point.md R192 rests on, divided by its common factor. -/
theorem add_key {x1 y1 z1 x2 y2 z2 d : ZMod p}
    (h1 : (x1 ^ 2 + y1 ^ 2) * z1 ^ 2 = z1 ^ 4 + d * x1 ^ 2 * y1 ^ 2)
    (h2 : (x2 ^ 2 + y2 ^ 2) * z2 ^ 2 = z2 ^ 4 + d * x2 ^ 2 * y2 ^ 2) :
    (z1 * z2) ^ 2 *
        (((z1 * z2) ^ 2 - d * (x1 * x2) * (y1 * y2)) ^ 2 * (x1 * y2 + y1 * x2) ^ 2 +
          ((z1 * z2) ^ 2 + d * (x1 * x2) * (y1 * y2)) ^ 2 * (y1 * y2 - x1 * x2) ^ 2) =
      ((z1 * z2) ^ 2 - d * (x1 * x2) * (y1 * y2)) ^ 2 *
          ((z1 * z2) ^ 2 + d * (x1 * x2) * (y1 * y2)) ^ 2 +
        d * (z1 * z2) ^ 4 * (x1 * y2 + y1 * x2) ^ 2 * (y1 * y2 - x1 * x2) ^ 2 := by
  have hs : ((z1 * z2) ^ 2) * ((x1 * y2 + y1 * x2) ^ 2 + (y1 * y2 - x1 * x2) ^ 2) =
      (z1 ^ 4 + d * x1 ^ 2 * y1 ^ 2) * (z2 ^ 4 + d * x2 ^ 2 * y2 ^ 2) := by
    rw [← h1, ← h2]
    ring
  have hq : z1 ^ 4 * (x1 ^ 2 + y1 ^ 2) ^ 2 = (z1 ^ 4 + d * x1 ^ 2 * y1 ^ 2) ^ 2 := by
    rw [← h1]
    ring
  have hr : z2 ^ 4 * (x2 ^ 2 + y2 ^ 2) ^ 2 = (z2 ^ 4 + d * x2 ^ 2 * y2 ^ 2) ^ 2 := by
    rw [← h2]
    ring
  linear_combination
    ((z1 * z2) ^ 4 + (d * (x1 * x2) * (y1 * y2)) ^ 2) * hs -
      d * x1 ^ 2 * y1 ^ 2 * z1 ^ 4 * hr - d * x2 ^ 2 * y2 ^ 2 * z2 ^ 4 * hq

/-- Addition stays on the curve (43_point.md R192, R193). -/
theorem onCurve_add (neg : Bool) {q r : Pt} (hq : onCurve q) (hr : onCurve r) :
    onCurve (add neg q r) := by
  unfold onCurve at hq hr ⊢
  have hx : ((if neg then fneg q.x else q.x : Nat) : ZMod p) ^ 2 = (q.x : ZMod p) ^ 2 := by
    cases neg
    · rfl
    · simp [cast_fneg]
  rw [← hx] at hq
  have key := add_key hq hr
  simp only [add, cast_fmul, cast_fsub, cast_fadd, cast_fsqr]
  generalize ((if neg then fneg q.x else q.x : Nat) : ZMod p) = x1 at *
  generalize (q.y : ZMod p) = y1 at *
  generalize (q.z : ZMod p) = z1 at *
  generalize (r.x : ZMod p) = x2 at *
  generalize (r.y : ZMod p) = y2 at *
  generalize (r.z : ZMod p) = z2 at *
  generalize (curveD : ZMod p) = d at *
  linear_combination
    (((z1 * z2) ^ 2 - d * (x1 * x2) * (y1 * y2)) ^ 2 *
      ((z1 * z2) ^ 2 + d * (x1 * x2) * (y1 * y2)) ^ 2) * key

/-- Negation stays on the curve (00_scope.md R10). -/
theorem onCurve_fneg {x y z : Nat} (h : onCurve ⟨x, y, z⟩) : onCurve ⟨fneg x, y, z⟩ := by
  unfold onCurve at h ⊢
  simp only [cast_fneg]
  simpa using h

theorem onCurve_neutral : onCurve neutral := by
  simp [onCurve, neutral]

end Sys2Proof.Machine
end

