-- ==== Sys2Proof/Laws/Decode.lean ====
section
/-! SUPPORT. The fields of an encoded word, read back one by one. -/

namespace Sys2Proof

theorem extract_field {n : Nat} (w : BitVec n) (lo len : Nat) (x : BitVec len)
    (h : ∀ i, i < len → w.getLsbD (lo + i) = x.getLsbD i) : w.extractLsb' lo len = x := by
  apply BitVec.eq_of_getLsbD_eq
  intro i hi
  rw [BitVec.getLsbD_extractLsb']
  simp [hi, h i hi]

@[simp] theorem toFin_regBits (r : Fin 16) : (regBits r).toFin = r := rfl

/-- The bits of a format-R word, field by field (30_encoding.md R101). -/
theorem encodeR_getLsbD (opc : BitVec 8) (rd ra rb rc : Fin 16) (flg : BitVec 8) (i : Nat) (hi : i < 32) :
    (encodeR opc rd ra rb rc flg).getLsbD i =
      if i < 8 then opc.getLsbD i
      else if i < 12 then (regBits rd).getLsbD (i - 8)
      else if i < 16 then (regBits ra).getLsbD (i - 12)
      else if i < 20 then (regBits rb).getLsbD (i - 16)
      else if i < 24 then (regBits rc).getLsbD (i - 20)
      else flg.getLsbD (i - 24) := by
  have h : (encodeR opc rd ra rb rc flg).getLsbD i = BitVec.getLsbD (w := 8 + (4 + (4 + (4 + (4 + 8)))))
      (flg ++ (regBits rc ++ (regBits rb ++ (regBits ra ++ (regBits rd ++ opc))))) i := rfl
  rw [h]
  simp only [BitVec.getLsbD_append]
  split_ifs <;> first | omega | rfl

/-- The fields of a format-R word are the fields it was made from. -/
theorem fieldsOf_encodeR (opc : BitVec 8) (rd ra rb rc : Fin 16) (flg : BitVec 8) :
    fieldsOf (encodeR opc rd ra rb rc flg) =
      ⟨opc, rd, ra, rb, rc, flg, (encodeR opc rd ra rb rc flg).extractLsb' 12 20⟩ := by
  have e0 : (encodeR opc rd ra rb rc flg).extractLsb' 0 8 = opc :=
    extract_field _ _ _ _ fun i hi => by
      rw [encodeR_getLsbD _ _ _ _ _ _ _ (by omega), if_pos (by omega)]
      simp
  have e1 : (encodeR opc rd ra rb rc flg).extractLsb' 8 4 = regBits rd :=
    extract_field _ _ _ _ fun i hi => by
      rw [encodeR_getLsbD _ _ _ _ _ _ _ (by omega), if_neg (by omega), if_pos (by omega)]
      simp
  have e2 : (encodeR opc rd ra rb rc flg).extractLsb' 12 4 = regBits ra :=
    extract_field _ _ _ _ fun i hi => by
      rw [encodeR_getLsbD _ _ _ _ _ _ _ (by omega), if_neg (by omega), if_neg (by omega),
        if_pos (by omega)]
      simp
  have e3 : (encodeR opc rd ra rb rc flg).extractLsb' 16 4 = regBits rb :=
    extract_field _ _ _ _ fun i hi => by
      rw [encodeR_getLsbD _ _ _ _ _ _ _ (by omega), if_neg (by omega), if_neg (by omega),
        if_neg (by omega), if_pos (by omega)]
      simp
  have e4 : (encodeR opc rd ra rb rc flg).extractLsb' 20 4 = regBits rc :=
    extract_field _ _ _ _ fun i hi => by
      rw [encodeR_getLsbD _ _ _ _ _ _ _ (by omega), if_neg (by omega), if_neg (by omega),
        if_neg (by omega), if_neg (by omega), if_pos (by omega)]
      simp
  have e5 : (encodeR opc rd ra rb rc flg).extractLsb' 24 8 = flg :=
    extract_field _ _ _ _ fun i hi => by
      rw [encodeR_getLsbD _ _ _ _ _ _ _ (by omega), if_neg (by omega), if_neg (by omega),
        if_neg (by omega), if_neg (by omega), if_neg (by omega)]
      simp
  simp only [fieldsOf, regField, e0, e1, e2, e3, e4, e5, toFin_regBits]

theorem encodeI_getLsbD (opc : BitVec 8) (rd : Fin 16) (imm : BitVec 20) (i : Nat) (hi : i < 32) :
    (encodeI opc rd imm).getLsbD i =
      if i < 8 then opc.getLsbD i
      else if i < 12 then (regBits rd).getLsbD (i - 8)
      else imm.getLsbD (i - 12) := by
  have h : (encodeI opc rd imm).getLsbD i = BitVec.getLsbD (w := 20 + (4 + 8))
      (imm ++ (regBits rd ++ opc)) i := rfl
  rw [h]
  simp only [BitVec.getLsbD_append]
  split_ifs <;> first | omega | rfl

/-- The fields of a format-I word that FLDI uses (30_encoding.md R102). -/
theorem fieldsOf_encodeI (opc : BitVec 8) (rd : Fin 16) (imm : BitVec 20) :
    (fieldsOf (encodeI opc rd imm)).opc = opc ∧ (fieldsOf (encodeI opc rd imm)).rd = rd ∧
      (fieldsOf (encodeI opc rd imm)).imm = imm := by
  have e0 : (encodeI opc rd imm).extractLsb' 0 8 = opc :=
    extract_field _ _ _ _ fun i hi => by
      rw [encodeI_getLsbD _ _ _ _ (by omega), if_pos (by omega)]
      simp
  have e1 : (encodeI opc rd imm).extractLsb' 8 4 = regBits rd :=
    extract_field _ _ _ _ fun i hi => by
      rw [encodeI_getLsbD _ _ _ _ (by omega), if_neg (by omega), if_pos (by omega)]
      simp
  have e2 : (encodeI opc rd imm).extractLsb' 12 20 = imm :=
    extract_field _ _ _ _ fun i hi => by
      rw [encodeI_getLsbD _ _ _ _ (by omega), if_neg (by omega), if_neg (by omega)]
      simp
  simp only [fieldsOf, regField, e0, e1, e2, toFin_regBits, and_self]

end Sys2Proof
end

