-- ==== Sys2Proof/Laws/Exec.lean ====
section
/-! SUPPORT. What a command can do, said once: it ends in an error that writes ERR, DONE and BUSY only, or
it completes with results that leave the host's registers alone. -/

namespace Sys2Proof.Machine

/-- What holds of the results `t` of any command that starts in `s`, before its completion. -/
structure Results (s t : State) : Prop where
  msgCap : t.msgCap = s.msgCap
  ieDone : t.ieDone = s.ieDone
  ieAccerr : t.ieAccerr = s.ieAccerr
  accerr : t.accerr = s.accerr
  cmd : t.cmd = s.cmd
  inputs : t.inputs = s.inputs
  resp : t.resp = s.resp
  /-- ZDIV is only set (10_state.md R49). -/
  zdiv : s.zdiv = true → t.zdiv = true
  /-- The tables are kept, or Precompute() ran (44_scalar_mult.md R230). -/
  tables : (t.tblv = s.tblv ∧ t.btab = s.btab ∧ t.ctab = s.ctab) ∨
    (t.tblv = s.precompute.tblv ∧ t.btab = s.precompute.btab ∧ t.ctab = s.precompute.ctab)
  /-- The buffers and lengths are kept, or ZEROIZE cleared them (10_state.md R58). -/
  buffers : (t.msgbuf = s.msgbuf ∧ t.ctxbuf = s.ctxbuf ∧ t.msgLen = s.msgLen ∧ t.ctxLen = s.ctxLen) ∨
    (t.msgbuf = [] ∧ t.ctxbuf = [] ∧ t.msgLen = 0#16 ∧ t.ctxLen = 0#16)

/-- A command whose operand checks pass: it completes with its results. -/
def Completes (s : State) (o : Host.Outcome State Fault Refusal) : Prop :=
  ∃ t, Results s t ∧ o = .next t.complete

/-- A command error: one of the codes 1 to 6, and nothing else is written (60_exceptions.md R304). -/
def EndsInError (s : State) (o : Host.Outcome State Fault Refusal) : Prop :=
  ∃ e, e ≠ .ok ∧ o = .next (s.completeErr e)

theorem Results.refl (s : State) : Results s s :=
  ⟨rfl, rfl, rfl, rfl, rfl, rfl, rfl, id, .inl ⟨rfl, rfl, rfl⟩, .inl ⟨rfl, rfl, rfl, rfl⟩⟩

theorem Results.precompute (s : State) : Results s s.precompute :=
  ⟨by simp, by simp, by simp, by simp, by simp, by simp, by simp, fun z => by simpa using z,
    .inr ⟨rfl, rfl, rfl⟩, .inl ⟨by simp, by simp, by simp, by simp⟩⟩

theorem Results.setF {s t : State} (h : Results s t) (d : FReg) (v : Elem) : Results s (t.setF d v) :=
  ⟨h.msgCap, h.ieDone, h.ieAccerr, h.accerr, h.cmd, h.inputs, h.resp, h.zdiv, h.tables, h.buffers⟩

theorem Results.setP {s t : State} (h : Results s t) (d : PReg) (v : PointReg) :
    Results s (t.setP d v) :=
  ⟨h.msgCap, h.ieDone, h.ieAccerr, h.accerr, h.cmd, h.inputs, h.resp, h.zdiv, h.tables, h.buffers⟩

theorem Results.setS {s t : State} (h : Results s t) (d : SReg) (v : Str57) : Results s (t.setS d v) :=
  ⟨h.msgCap, h.ieDone, h.ieAccerr, h.accerr, h.cmd, h.inputs, h.resp, h.zdiv, h.tables, h.buffers⟩

theorem Results.setW {s t : State} (h : Results s t) (d : WReg) (v : Vector Byte 448) :
    Results s (t.setW d v) :=
  ⟨h.msgCap, h.ieDone, h.ieAccerr, h.accerr, h.cmd, h.inputs, h.resp, h.zdiv, h.tables, h.buffers⟩

theorem Results.setCF {s t : State} (h : Results s t) (b : Bool) : Results s (t.setCF b) :=
  ⟨h.msgCap, h.ieDone, h.ieAccerr, h.accerr, h.cmd, h.inputs, h.resp, h.zdiv, h.tables, h.buffers⟩

theorem Results.orZDIV {s t : State} (h : Results s t) (b : Bool) : Results s (t.orZDIV b) :=
  ⟨h.msgCap, h.ieDone, h.ieAccerr, h.accerr, h.cmd, h.inputs, h.resp,
    fun z => by simp [h.zdiv z], h.tables, h.buffers⟩

theorem Results.zeroize (s : State) : Results s s.zeroize :=
  ⟨rfl, rfl, rfl, rfl, rfl, rfl, rfl, id, .inl ⟨rfl, rfl, rfl⟩, .inr ⟨rfl, rfl, rfl, rfl⟩⟩

theorem execWnaf_cases (d : WReg) (a : SReg) (width : Fin 16) (s : State) :
    EndsInError s (execWnaf d a width s) ∨ Completes s (execWnaf d a width s) := by
  unfold execWnaf
  split
  · exact .inl ⟨_, by decide, rfl⟩
  · split
    · exact .inl ⟨_, by decide, rfl⟩
    · exact .inr ⟨_, (Results.refl s).setW _ _, rfl⟩

theorem execSmulsv_cases (d : PReg) (nb np : SReg) (q : PReg) (s : State) :
    EndsInError s (execSmulsv d nb np q s) ∨ Completes s (execSmulsv d nb np q s) := by
  unfold execSmulsv
  split
  · exact .inl ⟨_, by decide, rfl⟩
  · exact .inr ⟨_, ((Results.precompute s).setP _ _).orZDIV _, rfl⟩

theorem execSmulbxy_cases (dx dy : FReg) (a : SReg) (s : State) :
    EndsInError s (execSmulbxy dx dy a s) ∨ Completes s (execSmulbxy dx dy a s) := by
  unfold execSmulbxy
  split
  · exact .inl ⟨_, by decide, rfl⟩
  · exact .inr ⟨_, (((Results.precompute s).setF _ _).setF _ _).orZDIV _, rfl⟩

/-- The argument checks answer an error code, never OK (45_protocol.md R272). -/
theorem State.protocolError_ne_ok {s : State} {ph : Bool} {e : ErrCode}
    (h : s.protocolError ph = some e) : e ≠ .ok := by
  unfold State.protocolError at h
  intro he
  subst he
  split at h
  · cases h
  · split at h
    · cases h
    · split at h <;> cases h

theorem execSign_cases (dR dS sk : SReg) (pk : Option SReg) (ph : Bool) (s : State) :
    EndsInError s (execSign dR dS sk pk ph s) ∨ Completes s (execSign dR dS sk pk ph s) := by
  unfold execSign
  split
  · exact .inl ⟨_, by decide, rfl⟩
  · split
    · rename_i h
      exact .inl ⟨_, State.protocolError_ne_ok h, rfl⟩
    · exact .inr ⟨_, (((Results.precompute s).setS _ _).setS _ _).orZDIV _, rfl⟩

/-- VERIFY past its argument checks writes CF, and past its early checks the tables and ZDIV. -/
theorem State.verified_results (s : State) (r t pk : SReg) (ph : Bool) :
    Results s (s.verified r t pk ph) := by
  unfold State.verified
  split
  · exact (Results.refl s).setCF _
  · split
    · exact (Results.refl s).setCF _
    · split
      · exact (Results.refl s).setCF _
      · exact ((Results.precompute s).setCF _).orZDIV _

theorem execVerify_cases (r t pk : SReg) (ph : Bool) (s : State) :
    EndsInError s (execVerify r t pk ph s) ∨ Completes s (execVerify r t pk ph s) := by
  unfold execVerify
  split
  · rename_i h
    exact .inl ⟨_, State.protocolError_ne_ok h, rfl⟩
  · exact .inr ⟨_, s.verified_results r t pk ph, rfl⟩

theorem execXofh_cases (lo hi : SReg) (s : State) :
    EndsInError s (execXofh lo hi s) ∨ Completes s (execXofh lo hi s) := by
  unfold execXofh
  split
  · exact .inl ⟨_, by decide, rfl⟩
  · split
    · exact .inl ⟨_, by decide, rfl⟩
    · exact .inr ⟨_, ((Results.refl s).setS _ _).setS _ _, rfl⟩

theorem State.putRoot_results (s : State) (d : FReg) (o : Option Nat) : Results s (s.putRoot d o) := by
  cases o with
  | none => exact (Results.refl s).setCF _
  | some x => exact ((Results.refl s).setF _ _).setCF _

theorem State.putDecoded_results (s : State) (d : PReg) (o : Option Pt) :
    Results s (s.putDecoded d o) := by
  cases o with
  | none => exact (Results.refl s).setCF _
  | some q => exact ((Results.refl s).setP _ _).setCF _

theorem writeField_completes {s t : State} (h : Results s t) (d : FReg) (v : Nat) :
    Completes s (writeField d v t) := ⟨_, h.setF _ _, rfl⟩

theorem moveField_completes (d : FReg) (v : Elem) (s : State) : Completes s (moveField d v s) :=
  ⟨_, (Results.refl s).setF _ _, rfl⟩

theorem writeString_completes (d : SReg) (v : Str57) (s : State) : Completes s (writeString d v s) :=
  ⟨_, (Results.refl s).setS _ _, rfl⟩

theorem writePoint_completes (d : PReg) (q : Pt) (s : State) : Completes s (writePoint d q s) :=
  ⟨_, (Results.refl s).setP _ _, rfl⟩

theorem movePoint_completes (d : PReg) (q : PointReg) (s : State) : Completes s (movePoint d q s) :=
  ⟨_, (Results.refl s).setP _ _, rfl⟩

/-- Every command ends in an error that writes nothing else, or completes with its results. -/
theorem exec_cases (i : Instr) (s : State) : EndsInError s (exec i s) ∨ Completes s (exec i s) := by
  have r := Results.refl s
  have pre := Results.precompute s
  cases i with
  | nop => exact .inr ⟨s, r, rfl⟩
  | zeroize => exact .inr ⟨_, .zeroize s, rfl⟩
  | fadd d a b => exact .inr (writeField_completes r _ _)
  | fsub d a b => exact .inr (writeField_completes r _ _)
  | fmul d a b => exact .inr (writeField_completes r _ _)
  | fsqr d a => exact .inr (writeField_completes r _ _)
  | fneg d a => exact .inr (writeField_completes r _ _)
  | fnorm d a => exact .inr (writeField_completes r _ _)
  | finv d a => exact .inr (writeField_completes (r.orZDIV _) _ _)
  | fmov d a => exact .inr (moveField_completes _ _ s)
  | fsel d a b c => exact .inr (moveField_completes _ _ s)
  | fldi d imm => exact .inr (moveField_completes _ _ s)
  | fsqrtr d u v => exact .inr ⟨_, s.putRoot_results d _, rfl⟩
  | fisz a => exact .inr ⟨_, r.setCF _, rfl⟩
  | schk a => exact .inr ⟨_, r.setCF _, rfl⟩
  | pchk a => exact .inr ⟨_, r.setCF _, rfl⟩
  | sprune d a => exact .inr (writeString_completes _ _ s)
  | sred d lo hi => exact .inr (writeString_completes _ _ s)
  | scalc d r k t => exact .inr (writeString_completes _ _ s)
  | pdbl d a => exact .inr (writePoint_completes _ _ s)
  | padd d a neg => exact .inr (writePoint_completes _ _ s)
  | paddp d a => exact .inr (writePoint_completes _ _ s)
  | pneg d a => exact .inr (writePoint_completes _ _ s)
  | psetn d => exact .inr (writePoint_completes _ _ s)
  | pcopy d a => exact .inr (movePoint_completes _ _ s)
  | pext d x y => exact .inr (movePoint_completes _ _ s)
  | pput d a c => exact .inr (movePoint_completes _ _ s)
  | pget d a c => exact .inr ⟨_, r.setF _ _, rfl⟩
  | penc d a => exact .inr ⟨_, (r.setS _ _).orZDIV _, rfl⟩
  | pdec d a neg => exact .inr ⟨_, s.putDecoded_results d _, rfl⟩
  | precomp => exact .inr ⟨_, pre, rfl⟩
  | plook d e => exact .inr ⟨_, pre.setP _ _, rfl⟩
  | wnaf d a width => exact execWnaf_cases d a width s
  | smulb d a => exact .inr ⟨_, (pre.setP _ _).orZDIV _, rfl⟩
  | smulsv d nb np q => exact execSmulsv_cases d nb np q s
  | smulbxy dx dy a => exact execSmulbxy_cases dx dy a s
  | keygen d a => exact .inr ⟨_, (pre.setS _ _).orZDIV _, rfl⟩
  | sign dR dS sk pk ph => exact execSign_cases dR dS sk pk ph s
  | verify r t pk ph => exact execVerify_cases r t pk ph s
  | xofh lo hi => exact execXofh_cases lo hi s

end Sys2Proof.Machine
end

