-- ==== Sys2Proof/Laws/Frame.lean ====
section
/-! SUPPORT. Frames, built up write by write: each operation a command's results are made of keeps a frame
that names what it writes. -/

namespace Sys2Proof.Machine

variable {w : Writes} {s t : State}

theorem changesOnly_refl (w : Writes) (s : State) : changesOnly w s s :=
  ⟨⟨fun _ _ => rfl, fun _ _ => rfl, fun _ _ => rfl, fun _ _ => rfl⟩,
    ⟨fun _ => rfl, fun _ => rfl, fun _ => ⟨rfl, rfl, rfl⟩⟩,
    ⟨fun _ => rfl, fun _ => rfl, rfl, rfl⟩, rfl, rfl, rfl, rfl, rfl, rfl, rfl⟩

/-- A write of FR[d] keeps a frame that names d. -/
theorem changesOnly.setF (h : changesOnly w s t) {d : FReg} (hd : d ∈ w.fr) (v : Elem) :
    changesOnly w s (t.setF d v) := by
  obtain ⟨⟨hf, hr⟩, h2⟩ := h
  refine ⟨⟨fun i hi => ?_, hr⟩, h2⟩
  exact (State.getF_setF_ne _ d i v fun e => hi (e.symm ▸ hd)).trans (hf i hi)

/-- A write of PR[d] keeps a frame that names d. -/
theorem changesOnly.setP (h : changesOnly w s t) {d : PReg} (hd : d ∈ w.pr) (v : PointReg) :
    changesOnly w s (t.setP d v) := by
  obtain ⟨⟨hf, hp, hr⟩, h2⟩ := h
  refine ⟨⟨hf, fun i hi => ?_, hr⟩, h2⟩
  exact (State.getP_setP_ne _ d i v fun e => hi (e.symm ▸ hd)).trans (hp i hi)

/-- A write of SR[d] keeps a frame that names d. -/
theorem changesOnly.setS (h : changesOnly w s t) {d : SReg} (hd : d ∈ w.sr) (v : Str57) :
    changesOnly w s (t.setS d v) := by
  obtain ⟨⟨hf, hp, hs, hw⟩, h2⟩ := h
  refine ⟨⟨hf, hp, fun i hi => ?_, hw⟩, h2⟩
  exact (State.getS_setS_ne _ d i v fun e => hi (e.symm ▸ hd)).trans (hs i hi)

/-- A write of WB[d] keeps a frame that names d. -/
theorem changesOnly.setW (h : changesOnly w s t) {d : WReg} (hd : d ∈ w.wb) (v : Vector Byte 448) :
    changesOnly w s (t.setW d v) := by
  obtain ⟨⟨hf, hp, hs, hw⟩, h2⟩ := h
  refine ⟨⟨hf, hp, hs, fun i hi => ?_⟩, h2⟩
  exact (State.getW_setW_ne _ d i v fun e => hi (e.symm ▸ hd)).trans (hw i hi)

/-- A write of CF keeps a frame that marks it. -/
theorem changesOnly.setCF (h : changesOnly w s t) (hc : w.cf = true) (b : Bool) :
    changesOnly w s (t.setCF b) := by
  obtain ⟨h1, ⟨_, hz, ht⟩, h3⟩ := h
  exact ⟨h1, ⟨fun hn => by simp [hn] at hc, hz, ht⟩, h3⟩

/-- Setting ZDIV keeps a frame that marks it. -/
theorem changesOnly.orZDIV (h : changesOnly w s t) (hz : w.zdiv = true) (b : Bool) :
    changesOnly w s (t.orZDIV b) := by
  obtain ⟨h1, ⟨hc, _, ht⟩, h3⟩ := h
  exact ⟨h1, ⟨hc, fun hn => by simp [hn] at hz, ht⟩, h3⟩

/-- The completion keeps every frame. -/
theorem changesOnly.complete (h : changesOnly w s t) : changesOnly w s t.complete := h

/-- So does the completion with an error. -/
theorem changesOnly.completeErr (h : changesOnly w s t) (e : ErrCode) :
    changesOnly w s (t.completeErr e) := h

/-- Precompute() keeps a frame that marks the tables. -/
theorem changesOnly_precompute (w : Writes) (s : State) (ht : w.tables = true) :
    changesOnly w s s.precompute :=
  ⟨⟨fun i _ => by simp, fun i _ => by simp, fun i _ => by simp, fun i _ => by simp⟩,
    ⟨fun _ => by simp, fun _ => by simp, fun hn => by simp [hn] at ht⟩,
    ⟨fun k => by simp, fun k => by simp, by simp, by simp⟩, by simp, by simp, by simp, by simp, by simp,
    by simp, by simp⟩

/-- What Precompute() leaves of the tables, in the statements' terms. -/
theorem tablesReady_precompute (s : State) : tablesReady s s.precompute := by
  rcases s.precompute_cases with ⟨h, e⟩ | ⟨h, e⟩ <;> rw [e] <;> simp [tablesReady, h]

theorem usedCtab_eq (s : State) : usedCtab s = s.precompute.ctab := by
  rcases s.precompute_cases with ⟨h, e⟩ | ⟨h, e⟩ <;> rw [e] <;> simp [usedCtab, h]

theorem usedBtab_eq (s : State) : usedBtab s = s.precompute.btab := by
  rcases s.precompute_cases with ⟨h, e⟩ | ⟨h, e⟩ <;> rw [e] <;> simp [usedBtab, h]

theorem endsWith_complete (s : State) : endsWith .ok s.complete := ⟨rfl, rfl, rfl⟩

theorem errorOf_eq (e : ErrCode) (s : State) : s.completeErr e = errorOf e s := rfl

end Sys2Proof.Machine
end

