-- ==== Sys2Proof/Laws/PerInstr.lean ====
section
/-! SUPPORT. Statements made per instruction, one lemma per constructor of `Instr`. -/

namespace Sys2Proof.Laws.OpcodeByte

/-- The opcode byte of a command (30_encoding.md R107). -/
def opcodeOf : Instr → BitVec 8
  | .nop => 0x00#8
  | .zeroize => 0x01#8
  | .fadd .. => 0x10#8
  | .fsub .. => 0x11#8
  | .fmul .. => 0x12#8
  | .fsqr .. => 0x13#8
  | .finv .. => 0x14#8
  | .fneg .. => 0x15#8
  | .fnorm .. => 0x16#8
  | .fmov .. => 0x17#8
  | .fsel .. => 0x18#8
  | .fsqrtr .. => 0x19#8
  | .fisz .. => 0x1A#8
  | .fldi .. => 0x1B#8
  | .schk .. => 0x20#8
  | .sprune .. => 0x21#8
  | .sred .. => 0x22#8
  | .scalc .. => 0x23#8
  | .pdbl .. => 0x30#8
  | .padd .. => 0x31#8
  | .paddp .. => 0x32#8
  | .pneg .. => 0x33#8
  | .pcopy .. => 0x34#8
  | .psetn .. => 0x35#8
  | .pext .. => 0x36#8
  | .pget .. => 0x37#8
  | .pput .. => 0x38#8
  | .penc .. => 0x39#8
  | .pdec .. => 0x3A#8
  | .pchk .. => 0x3B#8
  | .precomp => 0x40#8
  | .plook .. => 0x41#8
  | .wnaf .. => 0x42#8
  | .smulb .. => 0x43#8
  | .smulsv .. => 0x44#8
  | .smulbxy .. => 0x45#8
  | .keygen .. => 0x50#8
  | .sign .. => 0x51#8
  | .verify .. => 0x52#8
  | .xofh .. => 0x53#8

/-- The low byte of a command's word is its opcode (30_encoding.md R101, R102). -/
def Statement (i : Instr) : Prop := (fieldsOf (encode i)).opc = opcodeOf i

theorem ofR (opc : BitVec 8) (rd ra rb rc : Fin 16) (flg : BitVec 8) :
    (fieldsOf (encodeR opc rd ra rb rc flg)).opc = opc := by
  rw [fieldsOf_encodeR]

theorem nop : Statement .nop := ofR _ _ _ _ _ _
theorem zeroize : Statement .zeroize := ofR _ _ _ _ _ _
theorem fadd (d a b : FReg) : Statement (.fadd d a b) := ofR _ _ _ _ _ _
theorem fsub (d a b : FReg) : Statement (.fsub d a b) := ofR _ _ _ _ _ _
theorem fmul (d a b : FReg) : Statement (.fmul d a b) := ofR _ _ _ _ _ _
theorem fsqr (d a : FReg) : Statement (.fsqr d a) := ofR _ _ _ _ _ _
theorem finv (d a : FReg) : Statement (.finv d a) := ofR _ _ _ _ _ _
theorem fneg (d a : FReg) : Statement (.fneg d a) := ofR _ _ _ _ _ _
theorem fnorm (d a : FReg) : Statement (.fnorm d a) := ofR _ _ _ _ _ _
theorem fmov (d a : FReg) : Statement (.fmov d a) := ofR _ _ _ _ _ _
theorem fsel (d a b c : FReg) : Statement (.fsel d a b c) := ofR _ _ _ _ _ _
theorem fsqrtr (d u v : FReg) : Statement (.fsqrtr d u v) := ofR _ _ _ _ _ _
theorem fisz (a : FReg) : Statement (.fisz a) := ofR _ _ _ _ _ _
theorem fldi (d : FReg) (imm : BitVec 20) : Statement (.fldi d imm) := (fieldsOf_encodeI _ _ _).1
theorem schk (a : SReg) : Statement (.schk a) := ofR _ _ _ _ _ _
theorem sprune (d a : SReg) : Statement (.sprune d a) := ofR _ _ _ _ _ _
theorem sred (d lo hi : SReg) : Statement (.sred d lo hi) := ofR _ _ _ _ _ _
theorem scalc (d r k t : SReg) : Statement (.scalc d r k t) := ofR _ _ _ _ _ _
theorem pdbl (d a : PReg) : Statement (.pdbl d a) := ofR _ _ _ _ _ _
theorem padd (d a : PReg) (neg : Bool) : Statement (.padd d a neg) := ofR _ _ _ _ _ _
theorem paddp (d a : PReg) : Statement (.paddp d a) := ofR _ _ _ _ _ _
theorem pneg (d a : PReg) : Statement (.pneg d a) := ofR _ _ _ _ _ _
theorem pcopy (d a : PReg) : Statement (.pcopy d a) := ofR _ _ _ _ _ _
theorem psetn (d : PReg) : Statement (.psetn d) := ofR _ _ _ _ _ _
theorem pext (d : PReg) (x y : FReg) : Statement (.pext d x y) := ofR _ _ _ _ _ _
theorem pget (d : FReg) (a : PReg) (c : Comp) : Statement (.pget d a c) := ofR _ _ _ _ _ _
theorem pput (d : PReg) (a : FReg) (c : Comp) : Statement (.pput d a c) := ofR _ _ _ _ _ _
theorem penc (d : SReg) (a : PReg) : Statement (.penc d a) := ofR _ _ _ _ _ _
theorem pdec (d : PReg) (a : SReg) (neg : Bool) : Statement (.pdec d a neg) := ofR _ _ _ _ _ _
theorem pchk (a : SReg) : Statement (.pchk a) := ofR _ _ _ _ _ _
theorem precomp : Statement .precomp := ofR _ _ _ _ _ _
theorem plook (d : PReg) (e : TableEntry) : Statement (.plook d e) := ofR _ _ _ _ _ _
theorem wnaf (d : WReg) (a : SReg) (width : Fin 16) : Statement (.wnaf d a width) := ofR _ _ _ _ _ _
theorem smulb (d : PReg) (a : SReg) : Statement (.smulb d a) := ofR _ _ _ _ _ _
theorem smulsv (d : PReg) (nb np : SReg) (q : PReg) : Statement (.smulsv d nb np q) := ofR _ _ _ _ _ _
theorem smulbxy (dx dy : FReg) (a : SReg) : Statement (.smulbxy dx dy a) := ofR _ _ _ _ _ _
theorem keygen (d a : SReg) : Statement (.keygen d a) := ofR _ _ _ _ _ _
theorem sign (dR dS sk : SReg) (pk : Option SReg) (ph : Bool) : Statement (.sign dR dS sk pk ph) := by
  cases pk <;> exact ofR _ _ _ _ _ _
theorem verify (r t pk : SReg) (ph : Bool) : Statement (.verify r t pk ph) := ofR _ _ _ _ _ _
theorem xofh (lo hi : SReg) : Statement (.xofh lo hi) := ofR _ _ _ _ _ _

end Sys2Proof.Laws.OpcodeByte
end

