-- ==== Sys2Proof/Tests/Slice0.lean ====
section
/-! SUPPORT. Tests: the ill-formed terms that WellFormed refuses, the words of 95_test_vectors.md 2.1, one
or two vectors of 95_test_vectors.md 2.2 to 2.6 for each command, and a witness for the hypotheses of
each statement that has some. Expected values are the spec's. -/

namespace Sys2Proof.Tests

open Sys2Proof Sys2Proof.Machine Sys2Proof.Config

/- One theorem at a time: many evaluations at once would each hold a thread. -/
set_option Elab.async false
set_option exponentiation.threshold 500

/-! ### Helpers -/

/-- Whether `P` holds after the command word `w` runs alone from `s`. -/
def ran (s : State) (w : Nat) (P : State → Bool) : Bool :=
  match step (s.withFetchWord 32 w) with
  | .next t => P t
  | .fault _ => false
  | .refused _ => false

/-- Whether `P` holds after one step. -/
def stepped (s : State) (P : State → Bool) : Bool :=
  match step s with
  | .next t => P t
  | .fault _ => false
  | .refused _ => false

/-- The word `w` ends in the error `e`, with DONE set and no table built. -/
def fails (w : Nat) (e : ErrCode) : Bool :=
  ran State.reset w fun t => decide (t.err = e) && t.done && !t.busy && !t.tblv

/-- A field value. -/
def el (n : Nat) : Elem := BitVec.ofNat 448 n

/-- The string of 95_test_vectors.md 0: 56 bytes of `v`, then the byte `top`. -/
def le56 (v : Nat) (top : Nat) : Str57 := str57 (leBytes 56 v ++ [BitVec.ofNat 8 top])

/-- A byte string from an integer whose least significant byte is byte 0. -/
def str (v : Nat) : Str57 := le57 v

/-- Reset with values in FR0, FR1 and FR2. -/
def fieldState (a b c : Nat) : State :=
  ((State.reset.setF 0 (el a)).setF 1 (el b)).setF 2 (el c)

/-- Reset with strings in SR0, SR1 and SR2. -/
def stringState (a b c : Str57) : State := ((State.reset.setS 0 a).setS 1 b).setS 2 c

/-- Reset with points in PR0 and PR1. -/
def pointState (a b : PointReg) : State := (State.reset.setP 0 a).setP 1 b

/-- The base point as a register holds it. -/
def bReg : PointReg := ⟨el baseX, el baseY, 1#448⟩

/-- 2^448 − 1. -/
def ones : Nat := (BitVec.allOnes 448).toNat

/-- 2^224 + 1. -/
def foldPlus : Nat := 0x100000000000000000000000000000000000000000000000000000001

/-! ### WellFormed: an ill-formed term for each check (30_encoding.md R106) -/

theorem test_wf_width_one_refused : Instr.wf (.wnaf 0 0 1) = false := by decide
theorem test_wf_width_nine_refused : Instr.wf (.wnaf 1 3 9) = false := by decide
theorem test_wf_smulbxy_equal_refused : Instr.wf (.smulbxy 4 4 0) = false := by decide
theorem test_wf_sign_equal_refused : Instr.wf (.sign 2 2 0 none false) = false := by decide
theorem test_wf_xofh_equal_refused : Instr.wf (.xofh 1 1) = false := by decide
theorem test_wf_edges_accepted :
    Instr.wf (.wnaf 0 0 2) = true ∧ Instr.wf (.wnaf 0 0 8) = true ∧ Instr.wf (.smulbxy 4 5 0) = true ∧
      Instr.wf (.sign 2 3 2 (some 2) true) = true ∧ Instr.wf (.xofh 1 0) = true := by decide

/-! ### Decode: a word of every constructor (95_test_vectors.md 2.1) -/

theorem test_decode_control :
    decodeTableWord 32 0x00000000 = some .nop ∧ decodeTableWord 32 0x00000001 = some .zeroize := by
  decide
theorem test_decode_field_sums :
    decodeTableWord 32 0x00010210 = some (.fadd 2 0 1) ∧
      decodeTableWord 32 0x00010211 = some (.fsub 2 0 1) ∧
      decodeTableWord 32 0x000DEF12 = some (.fmul 15 14 13) ∧
      decodeTableWord 32 0x00000113 = some (.fsqr 1 0) := by decide
theorem test_decode_field_units :
    decodeTableWord 32 0x00000114 = some (.finv 1 0) ∧ decodeTableWord 32 0x00000115 = some (.fneg 1 0) ∧
      decodeTableWord 32 0x00000116 = some (.fnorm 1 0) ∧
      decodeTableWord 32 0x00000117 = some (.fmov 1 0) := by decide
theorem test_decode_field_rest :
    decodeTableWord 32 0x00210318 = some (.fsel 3 0 1 2) ∧
      decodeTableWord 32 0x00010219 = some (.fsqrtr 2 0 1) ∧
      decodeTableWord 32 0x0000001A = some (.fisz 0) ∧
      decodeTableWord 32 0x1234511B = some (.fldi 1 0x12345#20) := by decide
theorem test_decode_scalar :
    decodeTableWord 32 0x00000020 = some (.schk 0) ∧ decodeTableWord 32 0x00000121 = some (.sprune 1 0) ∧
      decodeTableWord 32 0x00010222 = some (.sred 2 0 1) ∧
      decodeTableWord 32 0x00210323 = some (.scalc 3 0 1 2) := by decide
theorem test_decode_point_sums :
    decodeTableWord 32 0x00000130 = some (.pdbl 1 0) ∧
      decodeTableWord 32 0x00000131 = some (.padd 1 0 false) ∧
      decodeTableWord 32 0x01000131 = some (.padd 1 0 true) ∧
      decodeTableWord 32 0x00000132 = some (.paddp 1 0) ∧
      decodeTableWord 32 0x00000133 = some (.pneg 1 0) := by decide
theorem test_decode_point_moves :
    decodeTableWord 32 0x00000134 = some (.pcopy 1 0) ∧ decodeTableWord 32 0x00000435 = some (.psetn 4) ∧
      decodeTableWord 32 0x00010236 = some (.pext 2 0 1) ∧
      decodeTableWord 32 0x02001037 = some (.pget 0 1 .z) ∧
      decodeTableWord 32 0x01000138 = some (.pput 1 0 .y) := by decide
theorem test_decode_point_codec :
    decodeTableWord 32 0x00000039 = some (.penc 0 0) ∧
      decodeTableWord 32 0x0000003A = some (.pdec 0 0 false) ∧
      decodeTableWord 32 0x0100003A = some (.pdec 0 0 true) ∧
      decodeTableWord 32 0x0000003B = some (.pchk 0) := by decide
theorem test_decode_tables :
    decodeTableWord 32 0x00000040 = some .precomp ∧
      decodeTableWord 32 0x4F000241 = some (.plook 2 (.comb 4 15)) ∧
      decodeTableWord 32 0x9F000241 = some (.plook 2 (.win 31)) ∧
      decodeTableWord 32 0x07000142 = some (.wnaf 1 0 7) := by decide
theorem test_decode_multiplications :
    decodeTableWord 32 0x00000043 = some (.smulb 0 0) ∧
      decodeTableWord 32 0x00321044 = some (.smulsv 0 1 2 3) ∧
      decodeTableWord 32 0x00010045 = some (.smulbxy 0 1 0) := by decide
theorem test_decode_protocol :
    decodeTableWord 32 0x00000150 = some (.keygen 1 0) ∧
      decodeTableWord 32 0x00030251 = some (.sign 2 3 0 none false) ∧
      decodeTableWord 32 0x03130251 = some (.sign 2 3 0 (some 1) true) ∧
      decodeTableWord 32 0x00132052 = some (.verify 2 3 1 false) ∧
      decodeTableWord 32 0x01132052 = some (.verify 2 3 1 true) ∧
      decodeTableWord 32 0x00010053 = some (.xofh 0 1) := by decide

theorem test_encode_words :
    encode (.fmul 15 14 13) = 0x000DEF12#32 ∧ encode (.smulbxy 0 1 0) = 0x00010045#32 ∧
      encode (.sign 2 3 0 (some 1) true) = 0x03130251#32 ∧ encode (.pput 1 0 .y) = 0x01000138#32 ∧
      encode (.plook 2 (.comb 4 15)) = 0x4F000241#32 ∧ encode (.wnaf 1 0 7) = 0x07000142#32 ∧
      encode (.fldi 1 0x12345#20) = 0x1234511B#32 ∧ encode (.verify 2 3 1 true) = 0x01132052#32 := by
  decide

theorem test_opcode_errors :
    (fails 0x00000002 .opc && fails 0x000000FF .opc && fails 0x0000001C .opc && fails 0x00000046 .opc) =
      true := by decide +kernel
theorem test_encoding_errors_fields :
    (fails 0x00000100 .enc && fails 0x01032110 .enc && fails 0x01000010 .enc && fails 0x00010013 .enc &&
      fails 0x03000031 .enc && fails 0x03001037 .enc) = true := by decide +kernel
theorem test_encoding_errors_tables :
    (fails 0x50000041 .enc && fails 0xA0000041 .enc && fails 0x00001041 .enc && fails 0x01000042 .enc &&
      fails 0x09000042 .enc && fails 0x02000242 .enc && fails 0x12000042 .enc) = true := by
  decide +kernel
theorem test_encoding_errors_protocol :
    (fails 0x00000045 .enc && fails 0x00010153 .enc && fails 0x00001051 .enc && fails 0x00312051 .enc &&
      fails 0x04000051 .enc && fails 0x00132152 .enc && fails 0x02132052 .enc) = true := by
  decide +kernel

/-! ### Control (40_control.md) -/

theorem test_nop : ran (fieldState 5 6 7) 0x00 (fun t => decide (t.getF 0 = el 5) && t.done) = true := by
  decide +kernel
theorem test_zeroize_clears_registers_keeps_zdiv :
    ran { fieldState 5 6 7 with zdiv := true, cf := true, msgLen := 9#16 } 0x01
      (fun t => decide (t.getF 0 = 0#448) && t.zdiv && !t.cf && decide (t.msgLen = 0#16)) = true := by
  decide +kernel

/-! ### Field unit (95_test_vectors.md 2.2) -/

theorem test_fadd_noncanonical :
    ran (fieldState ones 0 0) 0x10210 (fun t => decide ((t.getF 2).toNat + 1 = foldPlus)) = true := by
  decide +kernel
theorem test_fadd_destination_is_source :
    ran (fieldState (2 ^ 447) 0 0) 0x10 (fun t => decide ((t.getF 0).toNat = foldPlus)) = true := by
  decide +kernel
theorem test_fsub_wraps :
    ran (fieldState 0 1 0) 0x10211 (fun t => decide ((t.getF 2).toNat = p - 1)) = true := by
  decide +kernel
theorem test_fmul_folds :
    ran (fieldState (2 ^ 447) 2 0) 0x10212 (fun t => decide ((t.getF 2).toNat = foldPlus)) = true := by
  decide +kernel
theorem test_fsqr_folds :
    ran (fieldState (2 ^ 224) 0 0) 0x113 (fun t => decide ((t.getF 1).toNat = foldPlus)) = true := by
  decide +kernel
theorem test_finv_of_two :
    ran (fieldState 2 0 0) 0x114
      (fun t => decide ((t.getF 1).toNat = (p + 1) / 2) && !t.zdiv) = true := by decide +kernel
theorem test_finv_of_p_sets_zdiv :
    ran (fieldState p 7 0) 0x114 (fun t => decide (t.getF 1 = 0#448) && t.zdiv) = true := by
  decide +kernel
theorem test_fneg_of_p : ran (fieldState p 7 0) 0x115 (fun t => decide (t.getF 1 = 0#448)) = true := by
  decide +kernel
theorem test_fneg_of_one :
    ran (fieldState 1 7 0) 0x115 (fun t => decide ((t.getF 1).toNat = p - 1)) = true := by decide +kernel
theorem test_fnorm_reduces :
    ran (fieldState ones 0 0) 0x116 (fun t => decide ((t.getF 1).toNat + 1 = foldPlus)) = true := by
  decide +kernel
theorem test_fmov_is_raw : ran (fieldState p 0 0) 0x117 (fun t => decide (t.getF 1 = el p)) = true := by
  decide +kernel
theorem test_fsel_by_raw_bit :
    ran (fieldState 7 9 p) 0x210318 (fun t => decide (t.getF 3 = 7#448)) = true := by decide +kernel
theorem test_fsel_even :
    ran (fieldState 7 9 2) 0x210318 (fun t => decide (t.getF 3 = 9#448)) = true := by decide +kernel
theorem test_fsqrtr_of_two :
    ran (fieldState 2 1 0xAA) 0x10219 (fun t => t.cf && decide (t.getF 2 =
      0xd668967af6ca0d412ab264eaef342376877685189f46072aacd3f67ae923747a049c963b5149ccec05d4498b71fab595c618386b5f534594#448)) =
      true := by decide +kernel
theorem test_fsqrtr_without_root :
    ran { fieldState 1 0 0xAA with cf := true } 0x10219
      (fun t => !t.cf && decide (t.getF 2 = 0xAA#448)) = true := by decide +kernel
theorem test_fisz : (ran (fieldState p 0 0) 0x1A (fun t => t.cf) &&
    ran { fieldState 1 0 0 with cf := true } 0x1A (fun t => !t.cf)) = true := by decide +kernel
theorem test_fldi : ran (fieldState 0 0 0) 0xFFFFF61B (fun t => decide (t.getF 6 = 0xFFFFF#448)) = true := by
  decide +kernel

/-! ### Scalar unit (95_test_vectors.md 2.3) -/

theorem test_schk_edges :
    (ran (stringState (le56 (groupOrder - 1) 0) (str 0) (str 0)) 0x20 (fun t => t.cf) &&
      ran (stringState (le56 groupOrder 0) (str 0) (str 0)) 0x20 (fun t => !t.cf)) = true := by
  decide +kernel
theorem test_schk_top_byte :
    ran (stringState (le56 0 1) (str 0) (str 0)) 0x20 (fun t => !t.cf) = true := by decide +kernel
theorem test_sprune_ones :
    ran (stringState (le56 ones 0xFF) (str 0) (str 0)) 0x121
      (fun t => decide (t.getS 1 = le56 (ones - 3) 0)) = true := by decide +kernel
theorem test_sprune_zero :
    ran (stringState (str 0) (str 0) (str 0)) 0x121 (fun t => decide (t.getS 1 = le56 (2 ^ 447) 0)) =
      true := by decide +kernel
theorem test_sred_ones :
    ran (stringState (le56 ones 0xFF) (le56 ones 0xFF) (str 0)) 0x10222 (fun t => decide (t.getS 2 =
      str 0x2939f823b7292052bcb7e4d070af1a9cc14ba3c47c44ae17cf72c985bb24b6c520e319fb37a63e29800f160787ad1d2e11883fa931e7de81)) =
      true := by decide +kernel
theorem test_scalc_wraps :
    ran (stringState (le56 1 0) (le56 (groupOrder - 1) 0) (le56 1 0)) 0x210323
      (fun t => decide (t.getS 3 = str 0)) = true := by decide +kernel
theorem test_scalc_ignores_byte_56 :
    ran (stringState (str 0) (le56 5 0xFF) (le56 7 0)) 0x210323
      (fun t => decide (t.getS 3 = le56 35 0)) = true := by decide +kernel

/-! ### Point unit (95_test_vectors.md 2.4) -/

theorem test_pdbl_neutral :
    ran (pointState ⟨0#448, 1#448, 1#448⟩ bReg) 0x130
      (fun t => decide (t.getP 1 = ⟨0#448, el (p - 1), el (p - 1)⟩)) = true := by decide +kernel
theorem test_pdbl_base_z :
    ran (pointState bReg bReg) 0x130 (fun t => decide ((t.getP 1).z =
      0xa48fdf84f3d9bd4a036e3c00df9d3ff9db86ba082cca81c65bb1589e223f1e3f5b8e9a857b19e580d3796fff0c1d8cbb57131c98078bf588#448)) =
      true := by decide +kernel
theorem test_padd_to_itself :
    ran (pointState bReg bReg) 0x31 (fun t => decide ((t.getP 0).y =
      0xf472bf4ca95d221a942aab8fa6a9a638790a30d43f9edd497774bfe88b507e2f2bc5f8b123678d2e6ca4f064ab5085b4806f8863e481b24d#448)) =
      true := by decide +kernel
theorem test_padd_neg :
    ran (pointState bReg bReg) 0x1000131 (fun t => decide ((t.getP 1).x = 0#448) && decide ((t.getP 1).z =
      0x5b70207b0c2642b5fc91c3ff2062c006247945f7d3357e39a44ea760ddc0e1c0a471657a84e61a7f2c869000f3e27344a8ece367f8740a77#448)) =
      true := by decide +kernel
theorem test_paddp_ignores_z :
    ran (pointState ⟨bReg.x, bReg.y, 7#448⟩ ⟨0#448, 1#448, 1#448⟩) 0x132
      (fun t => decide (t.getP 1 = bReg)) = true := by decide +kernel
theorem test_pneg_reduces :
    ran (pointState ⟨0#448, el (p + 1), el (p + 1)⟩ bReg) 0x133
      (fun t => decide (t.getP 1 = ⟨0#448, 1#448, 1#448⟩)) = true := by decide +kernel
theorem test_pcopy_is_raw :
    ran (pointState ⟨el p, el (p + 1), el ones⟩ bReg) 0x134
      (fun t => decide (t.getP 1 = ⟨el p, el (p + 1), el ones⟩)) = true := by decide +kernel
theorem test_psetn :
    ran State.reset 0x435 (fun t => decide (t.getP 4 = ⟨0#448, 1#448, 1#448⟩)) = true := by
  decide +kernel
theorem test_pext :
    ran (fieldState baseX baseY 0) 0x10236 (fun t => decide (t.getP 2 = bReg)) = true := by decide +kernel
theorem test_pget_z :
    ran (pointState bReg ⟨1#448, 2#448, 3#448⟩) 0x2001037 (fun t => decide (t.getF 0 = 3#448)) = true := by
  decide +kernel
theorem test_pput_y :
    ran ((pointState bReg ⟨1#448, 2#448, 3#448⟩).setF 0 9#448) 0x1000138
      (fun t => decide (t.getP 1 = ⟨1#448, 9#448, 3#448⟩)) = true := by decide +kernel

/-- enc(B) of 95_test_vectors.md 0: y, with the sign of an even x. -/
def encB : Str57 := le56 baseY 0

theorem test_penc_base :
    ran (pointState bReg bReg) 0x39 (fun t => decide (t.getS 0 = encB) && !t.zdiv) = true := by
  decide +kernel
theorem test_penc_zero_z :
    ran ((pointState ⟨bReg.x, bReg.y, 0#448⟩ bReg).setS 0 encB) 0x39
      (fun t => decide (t.getS 0 = str 0) && t.zdiv) = true := by decide +kernel
theorem test_pdec_neg :
    ran (State.reset.setS 0 encB) 0x100003A
      (fun t => t.cf && decide (t.getP 0 = ⟨el (p - baseX), el baseY, 1#448⟩)) = true := by decide +kernel
theorem test_pdec_sign_of_zero :
    ran ((pointState ⟨5#448, 5#448, 5#448⟩ bReg).setS 0 (le56 1 0x80)) 0x3A
      (fun t => !t.cf && decide (t.getP 0 = ⟨5#448, 5#448, 5#448⟩)) = true := by decide +kernel
theorem test_pchk :
    (ran (State.reset.setS 0 (le56 (p - 1) 0x80)) 0x3B (fun t => t.cf) &&
      ran (State.reset.setS 0 (le56 p 0)) 0x3B (fun t => !t.cf) &&
      ran (State.reset.setS 0 (le56 1 1)) 0x3B (fun t => !t.cf)) = true := by decide +kernel

/-! ### Tables and scalar multiplication (95_test_vectors.md 2.5) -/

theorem test_precomp_sets_tblv :
    ran State.reset 0x40 (fun t => t.tblv && decide (t.btab[0] = bReg)) = true := by decide +kernel
theorem test_plook_win_31 :
    ran State.reset 0x9F000241 (fun t => t.tblv && decide ((t.getP 2).x =
      0xa18e71f79152d0299b550b6b8c62202e0112afc7fe04a3cc852a2d2e32a29a48eda9d8c3825250e859712db496df02045451c6309e36f5e9#448)) =
      true := by decide +kernel
theorem test_plook_comb_4_15 :
    ran State.reset 0x4F000241 (fun t => decide (t.getP 2 =
      ⟨0x3b544f6c305a74a3cde7ff497eaacc3074f6585bf4e9f6d00989385642d033fa236c3e9b6102345aeb2b922095f136f3428e86654d9cb91f#448,
       0x6c9f55fee4bbc9c6374097c698630a4cd2e0cd90c9921aec7a7cf8b82b75ef51028f28e9a59e37e3915bb76079f8f4cf6eaf94461f2c755b#448,
       1#448⟩)) = true := by decide +kernel
theorem test_wnaf_of_seven :
    ran (State.reset.setS 0 (le56 7 0)) 0x2000042
      (fun t => decide ((t.hostAccess (.read .w32 0x3800#16)).resp = .data 0x010000FF#32)) = true := by
  decide +kernel
theorem test_wnaf_widest_scalar :
    ran (State.reset.setS 0 (le56 (2 ^ 446 - 1) 0)) 0x7000142 (fun t => decide ((t.getW 1)[0] = 0xFF#8) &&
      decide ((t.getW 1)[445] = 0#8) && decide ((t.getW 1)[446] = 1#8)) = true := by decide +kernel
theorem test_smulb_of_two :
    ran (State.reset.setS 0 (le56 2 0)) 0x43 (fun t => decide (t.getP 0 =
      ⟨0xaaaaaaaaaaaaaaaaaaaaaaaaaaaaaaaaaaaaaaaaaaaaaaaaaaaaaaa955555555555555555555555555555555555555555555555555555555#448,
       0xae05e9634ad7048db359d6205086c2b0036ed7a035884dd7b7e36d728ad8c4b80d6565833a2a3098bbbcb2bed1cda06bdaeafbcdea9386ed#448,
       1#448⟩)) = true := by decide +kernel
theorem test_smulsv_inverse_points :
    ran ((stringState (str 0) (le56 1 0) (le56 1 0)).setP 3 ⟨el (p - baseX), el baseY, 1#448⟩) 0x321044
      (fun t => decide (t.getP 0 = ⟨0#448, 1#448, 1#448⟩)) = true := by decide +kernel
theorem test_smulsv_range :
    ran (stringState (str 0) (le56 (2 ^ 446) 0) (le56 1 0)) 0x321044
      (fun t => decide (t.err = .range) && !t.tblv) = true := by decide +kernel
theorem test_smulbxy_of_zero :
    ran State.reset 0x10045 (fun t => decide (t.getF 1 =
      0xf51274f1d43337067b931bb98ac4e1f876d3000f20d913374c8d576a9cb7b9d1616eb3e3e97b8fa58712402485c1949247ca4c20265a5894#448)) =
      true := by decide +kernel

/-! ### Protocol (95_test_vectors.md 1.2 vector 1, 2.6) -/

/-- The secret key of vector 1. -/
def sk1 : Str57 := str 0x5bf99800a249752e038f2f49945bfca3394e042fcc3f8a8c52a348e3f60e96c9639f8cfadd349f926cbf3e51c889be32d6108d80cb62a5826c
/-- Its public key. -/
def pk1 : Str57 := str 0x806125e8afbe1afad16c0fe5f13d78d61b06c7469b7624f1ed7867e9805da70e8a1f0ea7852434a11d6ad46a61ec87e72cfd61b4599b44d75f
/-- The two halves of its signature on the empty message. -/
def sigR1 : Str57 := str 0x8039fd1ba2d09bc528787dd4dd227afdf28182624f033f232b1f591ad423d84f07d2343e844a50fb2dae76f9880d3c021f2557e4bbf6373a53
def sigS1 : Str57 := str 0x26652eff0858d9718c2663735af04911b6dbf4a013a13085dacdc7c59ab92d8504410bc08d5d925b342d1c5d6c003ef69d8ab1d428200dff

/-- SR1 the public key, SR2 and SR3 the signature. -/
def verifyState (r t : Str57) : State := ((State.reset.setS 1 pk1).setS 2 r).setS 3 t

theorem test_xofh_empty :
    ran State.reset 0x10053 (fun t =>
      decide (t.getS 0 = str 0x4086b49a47491c82fcf692b5679d0105cb00f2c0d8ddc45dd72f76d56e64270cb5821bb862ea52cd3f24eb3e74eb3f3b23138da80b2bddb946) &&
      decide ((t.getS 1)[56] = 0x46#8)) = true := by decide +kernel
theorem test_keygen_vector_1 :
    ∃ k, exec (.keygen 1 0) ((State.reset.setS 0 sk1).setS 1 pk1) = .next k ∧ k.getS 1 = pk1 :=
  ⟨_, rfl, by decide +kernel⟩
theorem test_sign_vector_1 :
    ran (State.reset.setS 0 sk1) 0x30251
      (fun t => decide (t.getS 3 = sigS1)) = true := by decide +kernel
theorem test_sign_length_error :
    ran { State.reset with msgLen := 63#16 } 0x1030251 (fun t => decide (t.err = .ph) && !t.tblv) = true := by
  decide +kernel
theorem test_verify_vector_1 :
    ran (verifyState sigR1 sigS1) 0x132052 (fun t => t.cf && t.tblv) = true := by decide +kernel
theorem test_verify_s_top_byte :
    ran { verifyState sigR1 (sigS1.set 56 0x80#8) with cf := true } 0x132052
      (fun t => !t.cf && !t.tblv && decide (t.err = .ok)) = true := by decide +kernel

/-! ### The host's aperture and the lifecycle (10_state.md, 20_memory.md, 60_exceptions.md) -/

/-- A core that runs the command word `w`. -/
def running (w : Nat) : State := State.reset.accept (BitVec.ofNat 32 w)

/-- The state after a host write of a word. -/
def wrote (s : State) (off : Nat) (w : Word32) : State :=
  s.hostAccess (.write .w32 (BitVec.ofNat 16 off) w)

/-- The answer to a host read of a word. -/
def answer (s : State) (off : Nat) : HostResponse :=
  (s.hostAccess (.read .w32 (BitVec.ofNat 16 off))).resp

theorem test_window_last_words :
    (wrote State.reset 0x13F4 0x89ABCDEF#32).getF 15 = (0x89ABCDEF#32 ++ 0#416 : BitVec 448) ∧
      ((wrote State.reset 0x2BF4 0x89ABCDEF#32).getP 15).z = (0x89ABCDEF#32 ++ 0#416 : BitVec 448) ∧
      ((wrote State.reset 0x33F8 0x89ABCDEF#32).getS 15)[56] = 0xEF#8 ∧
      answer (wrote State.reset 0x33F8 0x89ABCDEF#32) 0x33F8 = .data 0x000000EF#32 := by decide +kernel
theorem test_window_reserved_words :
    answer (wrote State.reset 0x13F8 0x89ABCDEF#32) 0x13F8 = .data 0#32 ∧
      answer (wrote State.reset 0x33FC 0x89ABCDEF#32) 0x33FC = .data 0#32 ∧
      answer (State.reset.setW 1 (Vector.replicate 448 1#8)) 0x3BBC = .data 0x01010101#32 ∧
      answer (State.reset.setW 1 (Vector.replicate 448 1#8)) 0x3BC0 = .data 0#32 := by decide +kernel
theorem test_buffer_last_words :
    (wrote State.reset 0x4FFC 0x89ABCDEF#32).msgbuf =
        [(4092, 0xEF#8), (4093, 0xCD#8), (4094, 0xAB#8), (4095, 0x89#8)] ∧
      (wrote State.reset 0x5000 0x89ABCDEF#32).msgbuf = [] ∧
      (wrote State.reset 0x01FC 0x00CD00EF#32).ctxbuf = [(252, 0xEF#8), (254, 0xCD#8)] := by
  decide +kernel
theorem test_interlock :
    (wrote (running 0x10) 0x1000 1#32).accerr = true ∧ (wrote (running 0x10) 0x0010 1#32).cmd = 0x10#32 ∧
      answer ((running 0x10).setF 0 5#448) 0x1000 = .data 0#32 ∧ answer (running 0x10) 0x000C = .data 1#32 ∧
      answer (running 0x10) 0x0010 = .data 0x10#32 := by decide +kernel
theorem test_bus_errors :
    (State.reset.hostAccess (.read .w32 0x0002#16)).resp = .readError 0#32 ∧
      (State.reset.hostAccess (.write .w8 0x1000#16 1#32)).resp = .writeError := by decide +kernel
theorem test_status_after_error :
    ran State.reset 0x02 (fun t => decide (answer t 0x000C = .data 0x00000102#32)) = true := by
  decide +kernel

/-! ### Witnesses: states and operands that meet the hypotheses of the statements -/

/-- Two words of the opcode `opc`, one that `legal` admits and one that it does not. -/
def bothWays (opc : BitVec 8) (legal : Fields → Prop) (good bad : Word32) : Prop :=
  good.extractLsb' 0 8 = opc ∧ legal (fieldsOf good) ∧ bad.extractLsb' 0 8 = opc ∧ ¬ legal (fieldsOf bad)

theorem witness_DecodeOfEncodeIsTheCommand :
    Instr.wf (.wnaf 1 15 8) = true ∧ Instr.wf (.sign 15 14 15 (some 0) false) = true ∧
      Instr.wf (.fldi 15 0xFFFFF#20) = true := by decide

theorem witness_LegalWordIsTheEncoding : decode 0x08000142#32 = .ok (.wnaf 1 0 8) := by decide

theorem witness_UnmappedOpcodesEndInEOpc :
    (running 0x02).busy = true ∧
      ∀ n ∈ [0x02, 0x0F, 0x1C, 0x1F, 0x24, 0x2F, 0x3C, 0x3F, 0x46, 0x4F, 0x54, 0xFF],
        unmappedOpcode (((running n).cmd.extractLsb' 0 8).toNat) := by
  simp only [unmappedOpcode]; decide

theorem witness_StepRunsTheDecodedCommand :
    ((running 0x10).inputs = [] ∧ (running 0x10).busy = true ∧ decode (running 0x10).cmd = .ok (.fadd 0 0 0)) ∧
      ((running 0x02).busy = true ∧ decode (running 0x02).cmd = .error .illegalOpcode) ∧
      (State.reset.inputs = [] ∧ State.reset.busy = false) ∧
      decodeTableWord 32 0x00321044 = some (.smulsv 0 1 2 3) := by decide +kernel

theorem witness_ControlCommands :
    (0x00000100#32).extractLsb' 0 8 = 0x00#8 ∧ (0x00000100#32) ≠ 0x00000000#32 ∧
      (0x01000001#32).extractLsb' 0 8 = 0x01#8 ∧ (0x01000001#32) ≠ 0x00000001#32 := by decide

theorem witness_EveryCommandCompletes : (running 0x53).busy = true := by decide

theorem witness_CommandErrorsArePrecise :
    ∃ t, (running 0x02).busy = true ∧ (running 0x02).controllerStep = .next t ∧ t.err ≠ .ok :=
  ⟨_, rfl, rfl, by decide⟩

theorem witness_ErrorsByCommand :
    (¬ unmappedOpcode ((0x00000053#32).extractLsb' 0 8).toNat ∧ ¬ unmappedOpcode (0x53#8).toNat ∧
      (0x53#8) ≠ 0x1B#8 ∧ (0xFFFFF61B#32).extractLsb' 0 8 = 0x1B#8 ∧ Instr.wf (.fadd 0 1 2) = true) ∧
      ∃ t, exec (.fadd 0 1 2) State.reset = .next t :=
  ⟨by simp only [unmappedOpcode]; decide, _, rfl⟩

theorem witness_CommandsWriteOnlyTheirOwnState :
    ∃ t, Instr.psetn 3 ≠ .zeroize ∧ exec (.psetn 3) State.reset = .next t := ⟨_, by decide, rfl⟩

/-- A core with ZDIV set and one event scheduled. -/
def zdivBefore (e : Input) : State := { State.reset with zdiv := true, inputs := [e] }

theorem witness_ZeroInversionFlagIsSticky :
    ∀ e ∈ [Input.rst, .host (.write .w32 0x000C#16 0x20#32), .host (.write .w32 0x0008#16 0x80000000#32),
        .completionAndHost (.write .w32 0x000C#16 0x20#32)],
      (zdivBefore e).zdiv = true ∧ stepped (zdivBefore e) (fun t => !t.zdiv) = true := by decide +kernel

theorem witness_TableStateIsOneWay :
    ∃ t, ({ State.reset with tblv := true } : State).tblv = true ∧
      step { State.reset with tblv := true } = .next t := ⟨_, rfl, rfl⟩

/-- A core whose command NOP completes in the same step as the access `a`. -/
def completing (a : HostAccess) : State := { running 0x00 with inputs := [.completionAndHost a] }

theorem witness_AccessInTheCompletionStep :
    ((∃ t, (completing (.read .w32 0x000C#16)).busy = true ∧
        (∀ w, HostAccess.read .w32 0x000C#16 ≠ .write .w32 0x000C#16 w) ∧
        State.controllerStep { completing (.read .w32 0x000C#16) with inputs := [] } = .next t) ∧
      ∃ t, (completing (.write .w32 0x000C#16 0x22#32)).busy = true ∧
        (completing (.write .w32 0x000C#16 0x22#32)).inputs =
          .completionAndHost (.write .w32 0x000C#16 0x22#32) :: [] ∧
        State.controllerStep { completing (.write .w32 0x000C#16 0x22#32) with inputs := [], zdiv := false } =
          .next t) ∧
      (0x80000000#32).getLsbD 31 = true ∧
      (completing (.write .w32 0x0008#16 0x80000000#32)).inputs =
        .completionAndHost (.write .w32 0x0008#16 0x80000000#32) :: [] :=
  ⟨⟨⟨_, rfl, fun _ => by simp, rfl⟩, _, rfl, rfl, rfl⟩, rfl, rfl⟩

/-- The FINV of 0 completes in the step of a write of 1s to DONE, ACCERR and ZDIV (20_memory.md R84). -/
theorem test_completion_wins_over_acknowledgement :
    stepped { running 0x14 with accerr := true, inputs := [.completionAndHost (.write .w32 0x000C#16 0x32#32)] }
      (fun t => t.done && t.zdiv && !t.accerr && !t.busy) = true := by decide +kernel

theorem witness_BothResetsRestoreResetState :
    ({ running 0x50 with inputs := [.rst] } : State).inputs = .rst :: [] ∧
      (0x80000003#32).getLsbD 31 = true ∧ atReset MsgCap.reference State.reset ∧
      atReset MsgCap.reference { State.reset with btab := Vector.replicate 32 bReg, inputs := [.rst] } :=
  ⟨rfl, rfl, rfl, rfl⟩

/-- A running core with a table built, a byte in MSGBUF and an error behind it. -/
def goodState : State :=
  ({ State.reset with msgbuf := [(5, 7#8)], err := .ctx, done := true } : State).precompute.accept 0x10#32

theorem witness_EveryStepKeepsTheInvariant : goodState.Inv ∧ ∃ t, step goodState = .next t :=
  ⟨⟨by decide +kernel, fun _ => ⟨rfl, rfl⟩, fun _ => ⟨rfl, rfl⟩⟩, _, rfl⟩

theorem witness_IllegalAccessIsABusError :
    (AccessWidth.w8 ≠ .w32 ∨ (0#16).toNat % 4 ≠ 0) ∧ (AccessWidth.w32 ≠ .w32 ∨ (2#16).toNat % 4 ≠ 0) ∧
      (AccessWidth.w32 ≠ .w32 ∨ (0xFFFF#16).toNat % 4 ≠ 0) := by decide

theorem witness_IdentityAndControlRegisters :
    (3#32).getLsbD 31 = false ∧ (0x80000003#32).getLsbD 31 = true := by decide

theorem witness_StatusAndLengthRegisters : State.reset.busy = false := rfl

theorem witness_CommandRegisterIssuesCommands :
    (State.reset.busy = false ∧ (running 0x10).busy = true) ∧
      ∃ t, exec .zeroize (running 0x01) = .next t := ⟨⟨rfl, rfl⟩, _, rfl⟩

theorem witness_FieldAndPointWindows :
    State.reset.busy = false ∧ ((0 < 14 ∧ 13 < 14) ∧ (14 ≤ 14 ∧ 14 < 16) ∧ (14 ≤ 15 ∧ 15 < 16)) ∧
      (0x13F4 = 0x1000 + 64 * 15 + 4 * 13 ∧ 0x2BFC = 0x2000 + 192 * 15 + coordinateOffset .z + 4 * 15) := by
  decide

theorem witness_ScalarAndDigitWindows :
    State.reset.busy = false ∧ 15 < 16 ∧ 127 < 128 ∧ 0x33F8 = 0x3000 + 64 * 15 + 4 * 14 ∧
      0x3BBC = 0x3800 + 512 * 1 + 4 * 111 := by decide

theorem witness_BufferWindows :
    State.reset.busy = false ∧ ({ State.reset with msgbuf := [(4095, 1#8)] } : State).buffersWf = true ∧
      4 * 1023 < State.reset.msgCap.bytes ∧ 4 * 63 < 256 := by decide

theorem witness_ReservedWordsReadZero :
    ∀ o ∈ [0x001C, 0x00FC, 0x0200, 0x0FFC, 0x1038, 0x103C, 0x13FC, 0x1400, 0x1FFC, 0x2038, 0x20BC, 0x2BFC,
        0x2C00, 0x2FFC, 0x303C, 0x33FC, 0x3400, 0x37FC, 0x39C0, 0x3BFC, 0x3C00, 0x3FFC, 0x5000, 0xFFFC],
      reservedWord State.reset.msgCap.bytes (BitVec.ofNat 16 o).toNat := by
  simp only [reservedWord]; decide

theorem witness_BusyInterlock :
    (running 0x10).busy = true ∧ (3#32).getLsbD 31 = false ∧ (0x80000000#32).getLsbD 31 = true ∧
      (∀ o ∈ [0x0010, 0x0014, 0x0018, 0x0100, 0x01FC, 0x1000, 0x13F4, 0x2000, 0x2BF4, 0x3000, 0x33F8, 0x4000,
          0x4FFC], operandWord (running 0x10).msgCap.bytes (BitVec.ofNat 16 o).toNat) ∧
      ∀ o ∈ [0x0100, 0x01FC, 0x1000, 0x13F4, 0x2000, 0x2BF4, 0x3000, 0x33F8, 0x3800, 0x39BC, 0x3BBC, 0x4000,
          0x4FFC], windowWord (running 0x10).msgCap.bytes (BitVec.ofNat 16 o).toNat := by
  simp only [operandWord, windowWord]; decide

theorem witness_HostCannotDisturbARunningCommand :
    (running 0x10).busy = true ∧
      ∀ a ∈ [HostAccess.write .w32 0x1000#16 5#32, .write .w32 0x0008#16 3#32, .read .w32 0x000C#16,
        .write .w8 0x0008#16 0x80000000#32], ¬ softReset a := by
  simp [softReset, running, State.accept]

theorem witness_FieldSumsAndNegation :
    bothWays 0x10#8 unusedDAB 0x000DEF10#32 0x01032110#32 ∧
      bothWays 0x11#8 unusedDAB 0x000DEF11#32 0x01000011#32 ∧
      bothWays 0x15#8 unusedDA 0x00000115#32 0x00010015#32 ∧
      bothWays 0x16#8 unusedDA 0x00000116#32 0x00100016#32 := by
  simp only [bothWays, unusedDAB, unusedDA]; decide

theorem witness_FieldProducts :
    bothWays 0x12#8 unusedDAB 0x000DEF12#32 0x00100012#32 ∧
      bothWays 0x13#8 unusedDA 0x00000113#32 0x00010013#32 := by
  simp only [bothWays, unusedDAB, unusedDA]; decide

theorem witness_FieldInversion :
    bothWays 0x14#8 unusedDA 0x00000114#32 0x80000014#32 ∧
      ((fieldState p 0 0).getF 0).toNat % p = 0 ∧ ((fieldState (p - 1) 0 0).getF 0).toNat % p ≠ 0 := by
  simp only [bothWays, unusedDA]; decide +kernel

theorem witness_FieldMovesAndSelect :
    bothWays 0x17#8 unusedDA 0x00000117#32 0x01000017#32 ∧ (0xFFFFF61B#32).extractLsb' 0 8 = 0x1B#8 ∧
      bothWays 0x18#8 (fun f => f.flg = 0#8) 0x00210318#32 0x01210318#32 := by
  simp only [bothWays, unusedDA]; decide

theorem witness_SquareRootOfRatio :
    bothWays 0x19#8 unusedDAB 0x00010219#32 0x00100019#32 ∧
      0 * rootCandidate 0 5 ^ 2 % p = 0 ∧ 0 * rootCandidate 1 0 ^ 2 % p ≠ 1 := by
  simp only [bothWays, unusedDAB, Nat.zero_mul]; decide

theorem witness_ChecksOfRegisters :
    bothWays 0x1A#8 unusedA 0x0000F01A#32 0x0000011A#32 ∧
      bothWays 0x20#8 unusedA 0x0000F020#32 0x00000120#32 ∧
      bothWays 0x3B#8 unusedA 0x0000F03B#32 0x0001003B#32 := by
  simp only [bothWays, unusedA]; decide

theorem witness_ScalarPrune : bothWays 0x21#8 unusedDA 0x00000121#32 0x01000121#32 := by
  simp only [bothWays, unusedDA]; decide

theorem witness_ScalarReductions :
    bothWays 0x22#8 unusedDAB 0x00010222#32 0x00110222#32 ∧
      bothWays 0x23#8 (fun f => f.flg = 0#8) 0x00210323#32 0x01210323#32 := by
  simp only [bothWays, unusedDAB]; decide

theorem witness_PointDoubling : bothWays 0x30#8 unusedDA 0x00000130#32 0x01000130#32 := by
  simp only [bothWays, unusedDA]; decide

theorem witness_PointAdditions :
    bothWays 0x31#8 (fun f => f.rb = 0 ∧ f.rc = 0 ∧ f.flg.extractLsb' 1 7 = 0#7) 0x01000131#32
      0x03000031#32 ∧ bothWays 0x32#8 unusedDA 0x00000132#32 0x01000132#32 := by
  simp only [bothWays, unusedDA]; decide

theorem witness_PointMovesAndNegation :
    bothWays 0x34#8 unusedDA 0x00000134#32 0x01000134#32 ∧
      bothWays 0x35#8 (fun f => f.ra = 0 ∧ f.rb = 0 ∧ f.rc = 0 ∧ f.flg = 0#8) 0x00000435#32 0x00001435#32 ∧
      bothWays 0x36#8 unusedDAB 0x00010236#32 0x00110236#32 ∧
      bothWays 0x33#8 unusedDA 0x00000133#32 0x01000133#32 := by
  simp only [bothWays, unusedDA, unusedDAB]; decide

theorem witness_PointMovesAndNegation_coordinates :
    bothWays 0x37#8 (fun f => f.rb = 0 ∧ f.rc = 0 ∧ f.flg = 2#8) 0x02001037#32 0x03001037#32 ∧
      bothWays 0x37#8 (fun f => f.rb = 0 ∧ f.rc = 0 ∧ f.flg.toNat < 3) 0x01001037#32 0x03001037#32 ∧
      bothWays 0x38#8 (fun f => f.rb = 0 ∧ f.rc = 0 ∧ f.flg = 1#8) 0x01000138#32 0x03001038#32 ∧
      bothWays 0x38#8 (fun f => f.rb = 0 ∧ f.rc = 0 ∧ f.flg.toNat < 3) 0x00000138#32 0x03001038#32 := by
  simp only [bothWays]; decide

theorem witness_PointEncoding :
    bothWays 0x39#8 unusedDA 0x00000139#32 0x01000039#32 ∧
      ((pointState ⟨0#448, 0#448, el p⟩ bReg).getP 0).z.toNat % p = 0 ∧
      ((pointState bReg bReg).getP 0).z.toNat % p ≠ 0 := by
  simp only [bothWays, unusedDA]; decide +kernel

theorem witness_PointDecoding :
    bothWays 0x3A#8 (fun f => f.rb = 0 ∧ f.rc = 0 ∧ f.flg.extractLsb' 1 7 = 0#7) 0x0100003A#32 0x0200003A#32 ∧
      ran (State.reset.setS 0 (le56 1 0)) 0x3A (fun t => t.cf) = true ∧
      ran (State.reset.setS 0 (le56 1 0x40)) 0x3A (fun t => !t.cf) = true := by
  simp only [bothWays]; decide +kernel

theorem onCurve_bReg : onCurve bReg.val := by
  have h : ((baseX ^ 2 + baseY ^ 2) * 1 ^ 2) % p = (1 ^ 4 + curveD * baseX ^ 2 * baseY ^ 2) % p := by
    decide +kernel
  have h' := congrArg (fun n : Nat => (n : ZMod p)) h
  simp only [cast_mod] at h'
  push_cast at h'
  have hx : bReg.val = ⟨baseX, baseY, 1⟩ := by decide +kernel
  rw [hx]
  simpa [onCurve] using h'

theorem witness_PointCommandsStayOnTheCurve :
    onCurve ((pointState bReg ⟨0#448, 1#448, 1#448⟩).pval 0) ∧
      onCurve ((pointState bReg ⟨0#448, 1#448, 1#448⟩).pval 1) :=
  ⟨by have h : (pointState bReg ⟨0#448, 1#448, 1#448⟩).pval 0 = bReg.val := by decide +kernel
      rw [h]; exact onCurve_bReg,
    by have h : (pointState bReg ⟨0#448, 1#448, 1#448⟩).pval 1 = neutral := by decide +kernel
       rw [h]; exact onCurve_neutral⟩

theorem witness_DecodedPointIsOnTheCurve :
    ∃ t, exec (.pdec 0 0 false) (State.reset.setS 0 encB) = .next t ∧ t.cf = true ∧ (t.pval 0).x ≠ 0 :=
  ⟨_, rfl, by decide +kernel, by decide +kernel⟩

theorem witness_PrecompAndTableLookup :
    (0x00000040#32).extractLsb' 0 8 = 0x40#8 ∧ (0x00000140#32).extractLsb' 0 8 = 0x40#8 ∧
      (0x00000140#32) ≠ 0x00000040#32 := by decide

theorem witness_WindowAndCombTables :
    (0 + 1 < 32 ∧ 30 + 1 < 32) ∧ (0 < 4 ∧ 0 < 2 ^ 0) ∧ (3 < 4 ∧ 7 < 2 ^ 3 ∧ 2 ^ 3 + 7 = 15) := by decide

theorem witness_WnafCommand :
    ((2 ≤ (2 : Fin 16).val ∧ (2 : Fin 16).val ≤ 8) ∧ (2 ≤ (8 : Fin 16).val ∧ (8 : Fin 16).val ≤ 8) ∧
      ¬ (2 ≤ (1 : Fin 16).val ∧ (1 : Fin 16).val ≤ 8) ∧ ¬ (2 ≤ (9 : Fin 16).val ∧ (9 : Fin 16).val ≤ 8)) ∧
      sdec ((State.reset.setS 0 (le56 (2 ^ 446 - 1) 0)).getS 0) < 2 ^ 446 ∧
      2 ^ 446 ≤ sdec ((State.reset.setS 0 (le56 (2 ^ 446) 0)).getS 0) := by decide +kernel

/-- The form of 1: digit 0 is 1, every other digit is 0. -/
def formOfOne : Vector Byte 448 := (Vector.replicate 448 0#8).set 0 1#8

theorem formOfOne_get (k : Fin 448) : formOfOne[k] = if k.val = 0 then 1#8 else 0#8 := by
  simp only [formOfOne, Fin.getElem_fin, Vector.getElem_set, Vector.getElem_replicate, eq_comm]

theorem witness_WnafIsUnique : 2 ≤ 7 ∧ 7 ≤ 8 ∧ 1 < 2 ^ 446 ∧ isWnaf 1 7 formOfOne := by
  refine ⟨by decide, by decide, by decide, ?_, fun k hk => ?_, fun j k hjk _ _ => ?_⟩
  · rw [Finset.sum_eq_single (0 : Fin 448)]
    · rw [formOfOne_get]; rfl
    · intro k _ hk
      have h : k.val ≠ 0 := fun h => hk (Fin.ext h)
      rw [formOfOne_get, if_neg h]; simp
    · simp
  · rw [formOfOne_get] at hk ⊢
    split at hk
    · rename_i h; rw [if_pos h]; decide
    · exact absurd rfl hk
  · have h : k.val ≠ 0 := by have := Fin.lt_def.mp hjk; omega
    rw [formOfOne_get, if_neg h]

theorem witness_CombRunsOverTheRecodedScalar : 0 < 2 ^ 448 ∧ ones < 2 ^ 448 := by decide +kernel

theorem witness_MultipliersStayOnTheCurve : onCurve bReg.val ∧ onCurve neutral :=
  ⟨onCurve_bReg, onCurve_neutral⟩

theorem witness_FixedBaseMultiplications : (0 : FReg) ≠ 15 := by decide

theorem witness_TwoScalarMultiplication :
    (sdec ((State.reset.setS 0 (le56 (2 ^ 446 - 1) 0)).getS 0) < 2 ^ 446 ∧
      sdec ((State.reset.setS 0 (le56 (2 ^ 446 - 1) 0)).getS 1) < 2 ^ 446) ∧
      (2 ^ 446 ≤ sdec ((State.reset.setS 0 (le56 (2 ^ 446) 0)).getS 1) ∨
        2 ^ 446 ≤ sdec ((State.reset.setS 0 (le56 (2 ^ 446) 0)).getS 0)) := by decide +kernel

theorem witness_TablesAreInvisible :
    State.reset.tblv = false ∧ (∃ t, exec .precomp State.reset = .next t ∧ t.tblv = true) ∧
      ∃ t, exec .nop State.reset = .next t ∧ t.tblv = false := ⟨rfl, ⟨_, rfl, rfl⟩, _, rfl, rfl⟩

/-- Reset with the two lengths. -/
def lengths (ctx msg : BitVec 16) : State := { State.reset with ctxLen := ctx, msgLen := msg }

theorem witness_HashCommand :
    bothWays 0x53#8 (fun f => f.ra = 0 ∧ f.rc = 0 ∧ f.flg = 0#8 ∧ f.rd ≠ f.rb) 0x00010053#32 0x00010153#32 ∧
      (0 : SReg) ≠ 1 ∧ (lengths 0 4096).msgLen.toNat ≤ (lengths 0 4096).msgCap.bytes ∧
      (lengths 0 4097).msgCap.bytes < (lengths 0 4097).msgLen.toNat ∧ 57 ≤ 114 := by
  simp only [bothWays]; decide

theorem witness_ProtocolArgumentChecks :
    ((2 : SReg) ≠ 3 ∧ 255 < (lengths 256 0).ctxLen.toNat) ∧
      ((lengths 255 4097).ctxLen.toNat ≤ 255 ∧
        (lengths 255 4097).msgCap.bytes < (lengths 255 4097).msgLen.toNat) ∧
      ((lengths 255 65).ctxLen.toNat ≤ 255 ∧ (lengths 255 65).msgLen.toNat ≤ (lengths 255 65).msgCap.bytes ∧
        (lengths 255 65).msgLen.toNat ≠ 64) ∧
      argumentsPass (lengths 255 4096) false ∧ argumentsPass (lengths 255 64) true := by
  simp only [argumentsPass]; decide

theorem witness_KeyGeneration : bothWays 0x50#8 unusedDA 0x00000150#32 0x00010150#32 := by
  simp only [bothWays, unusedDA]; decide

theorem witness_Signing :
    (2 : SReg) ≠ 3 ∧ argumentsPass (lengths 255 4096) false ∧ argumentsPass (lengths 0 64) true ∧
      (∀ c, some (1 : SReg) = some c → c = 1) := by
  refine ⟨by decide, by simp only [argumentsPass]; decide, by simp only [argumentsPass]; decide, ?_⟩
  rintro c ⟨⟩; rfl

theorem witness_SuppliedKeyGivesTheSameSignature :
    (2 : SReg) ≠ 3 ∧ argumentsPass ((State.reset.setS 0 sk1).setS 1 pk1) false ∧
      ∃ k, exec (.keygen 1 0) ((State.reset.setS 0 sk1).setS 1 pk1) = .next k ∧
        ((State.reset.setS 0 sk1).setS 1 pk1).getS 1 = k.getS 1 :=
  ⟨by decide, by simp only [argumentsPass]; decide,
    test_keygen_vector_1.imp fun _ h => ⟨h.1, Eq.trans rfl h.2.symm⟩⟩

theorem witness_Verification :
    bothWays 0x52#8 (fun f => f.rd = 0 ∧ f.flg.extractLsb' 1 7 = 0#7) 0x01132052#32 0x02132052#32 ∧
      argumentsPass State.reset false ∧
      (chkpt (State.reset.getS 2) = true ∧ schk (State.reset.getS 3) = true ∧
        (decpt (State.reset.getS 1) true).isSome = true) ∧
      ¬ (schk ((State.reset.setS 3 (le56 0 1)).getS 3) = true) := by
  simp only [bothWays, argumentsPass]; decide +kernel

/-- No point of the curve has y = 2 (95_test_vectors.md 2.6): x²·(1 − 4d) = −3 asks for a root of a residue
whose Jacobi symbol is −1. -/
theorem no_point_with_y_two (x : Nat) : ¬ onCurve ⟨x, 2, 1⟩ := by
  intro h
  have hd := cast_curveD
  simp only [onCurve, Nat.cast_one, one_pow, mul_one, Nat.cast_ofNat] at h
  rw [hd] at h
  have hs : IsSquare (((-468975 : Int)) : ZMod p) :=
    ⟨156325 * (x : ZMod p), by push_cast; linear_combination -156325 * h⟩
  exact ZMod.nonsquare_of_jacobiSym_eq_neg_one (a := -468975) (b := p) (by unfold p; norm_num) hs

theorem witness_MalformedSignaturesAreRejected :
    argumentsPass State.reset false ∧
      ((verifyState sigR1 (le56 0 1)).getS 3)[56] ≠ 0#8 ∧
      groupOrder ≤ sdec ((verifyState sigR1 (le56 groupOrder 0)).getS 3) ∧
      p ≤ sdec ((verifyState (le56 p 0) sigS1).getS 2) ∧
      p ≤ sdec ((State.reset.setS 1 (le56 p 0x80)).getS 1) ∧
      ∀ x : Nat, ¬ onCurve ⟨x, sdec ((State.reset.setS 1 (le56 2 0)).getS 1), 1⟩ := by
  have h2 : sdec ((State.reset.setS 1 (le56 2 0)).getS 1) = 2 := by decide +kernel
  refine ⟨by simp only [argumentsPass]; decide, by decide +kernel, by decide +kernel, by decide +kernel,
    by decide +kernel, ?_⟩
  rw [h2]; exact no_point_with_y_two

end Sys2Proof.Tests
end

/-! PROOFS. ID, CAP, CTRL and CMD at the host's port (10_state.md R41 to R46): what one access to a control
register does, the words of CAP and CTRL, the soft reset, and the two statements on these registers. -/

namespace Sys2Proof.Machine

variable {s : State} {off : BitVec 16} {l : Loc}

/-! ### Register accesses -/

/-- The interlock leaves the reads of registers alone (20_memory.md R82). -/
theorem State.hostRead_of_not_isWindow (hl : l.isWindow = false) : s.hostRead l = s.wordAt l := by
  simp [State.hostRead, hl]

/-- A word outside the interlock is written at all times (20_memory.md R82). -/
theorem State.hostWrite_of_not_interlocked (w : Word32) (hl : l.interlocked = false) :
    s.hostWrite l w = s.storeWord w l := by
  simp [State.hostWrite, hl]

/-- An idle core takes every write. -/
theorem State.hostWrite_of_idle (w : Word32) (hs : s.busy = false) :
    s.hostWrite l w = s.storeWord w l := by
  simp [State.hostWrite, hs]

/-- A busy core drops a write that the interlock covers and sets ACCERR (20_memory.md R82). -/
theorem State.hostWrite_of_busy (w : Word32) (hs : s.busy = true) (hl : l.interlocked = true) :
    s.hostWrite l w = { s with accerr := true } := by
  simp [State.hostWrite, hs, hl]

/-- A control register reads its word at all times. -/
theorem reads_register (ho : off.toNat < 0x100) (h4 : off.toNat % 4 = 0)
    (hl : locateControl off.toNat = l) (hw : l.isWindow = false) : reads s off (s.wordAt l) :=
  State.hostRead_of_not_isWindow hw ▸ reads_of_locate h4 ((locate_control ho).trans hl)

/-- A write of a control register is the host write of its location. -/
theorem storesTo_register (w : Word32) (ho : off.toNat < 0x100) (h4 : off.toNat % 4 = 0)
    (hl : locateControl off.toNat = l) : storesTo s off w (s.hostWrite l w) :=
  storesTo_of_locate w h4 ((locate_control ho).trans hl)

/-- A control register outside the interlock is written at all times. -/
theorem storesTo_free_register (w : Word32) (ho : off.toNat < 0x100) (h4 : off.toNat % 4 = 0)
    (hl : locateControl off.toNat = l) (hi : l.interlocked = false) :
    storesTo s off w (s.storeWord w l) :=
  State.hostWrite_of_not_interlocked w hi ▸ storesTo_register w ho h4 hl

/-! ### The words of CAP and CTRL -/

/-- MSG_CAP fits the 16 bits that CAP has for it (00_scope.md R11, 10_state.md R42). -/
theorem MsgCap.bytes_lt (cap : MsgCap) : cap.bytes < 2 ^ 16 := by
  have := cap.legal
  omega

/-- CAP reads MSG_CAP as a number (10_state.md R42). -/
theorem State.capWord_eq (s : State) : s.capWord = BitVec.ofNat 32 s.msgCap.bytes := by
  have hcap := s.msgCap.bytes_lt
  apply BitVec.eq_of_toNat_eq
  change BitVec.toNat (w := 16 + 16) (0#16 ++ BitVec.ofNat 16 s.msgCap.bytes) = _
  simp only [BitVec.toNat_append, BitVec.toNat_ofNat, Nat.zero_mod, Nat.zero_shiftLeft, Nat.zero_or]
  omega

/-- CTRL bit by bit (10_state.md R43). -/
theorem State.getLsbD_ctrlWord (s : State) (k : Nat) :
    s.ctrlWord.getLsbD k = if k = 0 then s.ieDone else if k = 1 then s.ieAccerr else false := by
  change BitVec.getLsbD (w := 30 + (1 + 1))
    (0#30 ++ (BitVec.ofBool s.ieAccerr ++ BitVec.ofBool s.ieDone)) k = _
  match k with
  | 0 => simp only [BitVec.getLsbD_append, BitVec.getLsbD_ofBool]; simp
  | 1 => simp only [BitVec.getLsbD_append, BitVec.getLsbD_ofBool]; simp
  | k + 2 => simp only [BitVec.getLsbD_append, BitVec.getLsbD_zero]; simp

/-- A CTRL write with bit 31 clear stores the enables (10_state.md R43). -/
theorem State.writeCtrl_of_clear {w : Word32} (hw : w.getLsbD 31 = false) :
    s.writeCtrl w = { s with ieDone := w.getLsbD 0, ieAccerr := w.getLsbD 1 } := by
  rw [State.writeCtrl, hw, if_neg Bool.false_ne_true]

/-- A CTRL write with bit 31 set resets the core (10_state.md R43). -/
theorem State.writeCtrl_of_set {w : Word32} (hw : w.getLsbD 31 = true) :
    s.writeCtrl w = s.restart := by
  rw [State.writeCtrl, if_pos hw]

/-- CTRL reads 0 after reset (10_state.md R43, R57). -/
theorem State.ctrlWord_resetOf (cap : MsgCap) : (State.resetOf cap).ctrlWord = 0#32 := by
  simp [State.ctrlWord, State.resetOf]

/-- Reset leaves the reset state (70_reset_and_hazards.md R341). -/
theorem State.atReset_restart (s : State) : atReset s.msgCap s.restart := rfl

/-! ### Commands and CMD -/

/-- No command writes CMD (10_state.md R46), whether it completes or ends in an error. -/
theorem exec_cmd {i : Instr} {s t : State} (h : exec i s = .next t) : t.cmd = s.cmd := by
  rcases exec_cases i s with ⟨e, _, he⟩ | ⟨r, hr, he⟩
  case inl =>
    obtain rfl : s.completeErr e = t := by simpa [he] using h
    exact s.completeErr_cmd e
  case inr =>
    obtain rfl : r.complete = t := by simpa [he] using h
    exact hr.cmd

end Sys2Proof.Machine

namespace Sys2Proof.Proofs

open Sys2Proof.Machine

/-- Settles O22: a CMD write is the acceptance of an idle core and is dropped by the interlock of a busy one;
that commands keep CMD is the inversion of `exec`. -/
theorem commandRegisterIssuesCommands : Obligations.CommandRegisterIssuesCommands := by
  have readCmd (s : State) : reads s 0x0010#16 s.cmd := reads_register (l := .cmd) (by decide) rfl rfl rfl
  have writeCmd (s : State) (w : Word32) : storesTo s 0x0010#16 w (s.hostWrite .cmd w) :=
    storesTo_register w (by decide) rfl rfl
  refine ⟨fun s w hs => ?idle, fun s w hs => ?busy, readCmd, fun _ _ _ => exec_cmd,
    fun cap => readCmd (State.resetOf cap)⟩
  case idle =>
    have accepted : s.hostWrite .cmd w = { s with cmd := w, busy := true, done := false, err := .ok } :=
      State.hostWrite_of_idle w hs
    exact accepted ▸ writeCmd s w
  case busy =>
    have dropped : s.hostWrite .cmd w = { s with accerr := true } := State.hostWrite_of_busy w hs rfl
    exact dropped ▸ writeCmd s w

/-- Settles O20: ID, CAP and CTRL lie outside the interlock, so each is read and written in the same way
whatever BUSY is. -/
theorem identityAndControlRegisters : Obligations.IdentityAndControlRegisters := by
  have readCtrl (s : State) : reads s 0x0008#16 s.ctrlWord :=
    reads_register (l := .ctrl) (by decide) rfl rfl rfl
  have writeCtrl (s : State) (w : Word32) : storesTo s 0x0008#16 w (s.writeCtrl w) :=
    storesTo_free_register (l := .ctrl) w (by decide) rfl rfl rfl
  refine ⟨fun s w => ⟨?readId, ?readCap, s.msgCap.bytes_lt, ?writeId, ?writeCap⟩,
    fun s w => ⟨⟨s.ctrlWord, readCtrl s, ?bit0, ?bit1, ?rest⟩, fun hw => ?enables, fun hw => ?reset⟩,
    fun cap => State.ctrlWord_resetOf cap ▸ readCtrl (State.resetOf cap)⟩
  case readId => exact reads_register (l := .id) (by decide) rfl rfl rfl
  case readCap => exact s.capWord_eq ▸ reads_register (l := .cap) (by decide) rfl rfl rfl
  case writeId => exact storesTo_free_register (l := .id) w (by decide) rfl rfl rfl
  case writeCap => exact storesTo_free_register (l := .cap) w (by decide) rfl rfl rfl
  case bit0 => exact s.getLsbD_ctrlWord 0
  case bit1 => exact s.getLsbD_ctrlWord 1
  case rest =>
    intro k hk
    rw [State.getLsbD_ctrlWord, if_neg (by omega), if_neg (by omega)]
  case enables => exact State.writeCtrl_of_clear hw ▸ writeCtrl s w
  case reset =>
    exact ⟨s.restart, State.writeCtrl_of_set hw ▸ writeCtrl s w, s.atReset_restart, s.restart_inputs⟩

end Sys2Proof.Proofs

/-! PROOFS. The windows of the register files and of the two buffers at the host's port (20_memory.md R72 to
R80): what one access to a word of each window does, and the three statements on the windows. -/

namespace Sys2Proof.Machine

variable {s t : State} {off : BitVec 16} {l : Loc}

/-! ### Accesses to words of the windows -/

/-- The aperture's 16-bit offsets reach every word that lies below 64 KiB (20_memory.md R70). -/
theorem exists_offset {n : Nat} (hn : n < 2 ^ 16) : ∃ off : BitVec 16, off.toNat = n :=
  ⟨BitVec.ofNatLT n hn, BitVec.toNat_ofNatLT n hn⟩

/-- An idle core reads every word as it stands (20_memory.md R81). -/
theorem State.hostRead_of_idle (hs : s.busy = false) : s.hostRead l = s.wordAt l := by
  simp [State.hostRead, hs]

theorem reads_of_idle (hs : s.busy = false) (h4 : off.toNat % 4 = 0)
    (hl : locate s.msgCap.bytes off.toNat = l) : reads s off (s.wordAt l) :=
  State.hostRead_of_idle hs ▸ reads_of_locate h4 hl

theorem storesTo_of_idle (w : Word32) (hs : s.busy = false) (h4 : off.toNat % 4 = 0)
    (hl : locate s.msgCap.bytes off.toNat = l) : storesTo s off w (s.storeWord w l) :=
  State.hostWrite_of_idle w hs ▸ storesTo_of_locate w h4 hl

/-- A word outside the interlock is written at all times, by its location (20_memory.md R82). -/
theorem storesTo_of_not_interlocked (w : Word32) (h4 : off.toNat % 4 = 0)
    (hl : locate s.msgCap.bytes off.toNat = l) (hi : l.interlocked = false) :
    storesTo s off w (s.storeWord w l) :=
  State.hostWrite_of_not_interlocked w hi ▸ storesTo_of_locate w h4 hl

/-- A reserved word reads 0 at all times (20_memory.md R80). -/
theorem reads_reservedWord (h : reservedWord s.msgCap.bytes off.toNat) : reads s off 0#32 := by
  have read := reads_of_locate h.1 (locate_reservedWord h)
  rwa [State.hostRead_of_not_isWindow rfl] at read

/-- A reserved word ignores writes at all times, without ACCERR (20_memory.md R80). -/
theorem storesTo_reservedWord (w : Word32) (h : reservedWord s.msgCap.bytes off.toNat) :
    storesTo s off w s :=
  storesTo_of_not_interlocked w h.1 (locate_reservedWord h) rfl

/-- A write keeps the buffers in good order (10_state.md R39, R40). -/
theorem storesTo_buffersWf {w : Word32} (h : storesTo s off w t) (hwf : s.buffersWf = true) :
    t.buffersWf = true := by
  have kept := s.hostAccess_buffersWf (.write .w32 off w) hwf
  rwa [h] at kept

/-! ### Places in the windows -/

/-- Word `j` of a coordinate of PR[i] (20_memory.md R75): `coordinateOffset` lays out the three slots in the
order in which `compOfSlot` reads them. -/
theorem locate_prCoordinate (cap : Nat) (i : PReg) (c : Comp) {j : Nat} (hj : j < 14) :
    locate cap (0x2000 + 192 * i.val + coordinateOffset c + 4 * j) = .pr i c j := by
  cases c with
  | x => exact locate_prWord cap i 0 j i.isLt (by decide) hj
  | y => exact locate_prWord cap i 1 j i.isLt (by decide) hj
  | z => exact locate_prWord cap i 2 j i.isLt (by decide) hj

theorem coordinateOffset_cases (c : Comp) :
    coordinateOffset c = 0 ∨ coordinateOffset c = 64 ∨ coordinateOffset c = 128 := by
  cases c <;> decide

/-! ### Bytes of the windows -/

/-- Byte `k` of word `j` of a byte string of fixed length, or 0 past its end (20_memory.md R76, R77). -/
theorem wordByte_bytesWord_toList {n : Nat} (e : Vector Byte n) (j : Nat) {k : Nat} (hk : k < 4) :
    wordByte (bytesWord e.toList j) k = if h : 4 * j + k < n then e[4 * j + k] else 0#8 := by
  rw [wordByte_bytesWord _ _ _ hk, List.getD_eq_getElem?_getD]
  split
  case isTrue h => simp [h]
  case isFalse h => simp [h]

theorem wordByte_zero (k : Nat) : wordByte 0#32 k = 0#8 := by
  simp [wordByte]

/-- A register written with its own value stays as it was. -/
theorem State.setS_getS (s : State) (i : SReg) : s.setS i (s.getS i) = s := by
  simp [State.setS, State.getS]

theorem State.wf_of_buffersWf (h : s.buffersWf = true) : s.msgbuf.wf = true ∧ s.ctxbuf.wf = true := by
  simp only [State.buffersWf, Bool.and_eq_true] at h
  obtain ⟨⟨⟨hmsg, _⟩, hctx⟩, _⟩ := h
  exact ⟨hmsg, hctx⟩

end Sys2Proof.Machine

namespace Sys2Proof.Proofs

open Sys2Proof.Machine

/-- Settles O23: a slot's words 0 to 13 are mapped to the words of its 448-bit value, which `setElemWord`
replaces bit by bit, and its words 14 and 15 are reserved. -/
theorem fieldAndPointWindows : Obligations.FieldAndPointWindows := by
  refine ⟨fun s i j w hs hj => ?field, fun s i c j w hs hj => ?point⟩
  case field =>
    obtain ⟨off, ho⟩ := exists_offset (n := 0x1000 + 64 * i.val + 4 * j) (by omega)
    refine ⟨off, ho, fun hm => ?mapped, fun hr => ?reserved⟩
    case mapped =>
      have hl : locate s.msgCap.bytes off.toNat = .fr i j := ho ▸ locate_frWord _ i j i.isLt hm
      have written : (s.storeWord w (.fr i j)).getF i = setElemWord (s.getF i) j w :=
        s.getF_setF_same i _
      refine ⟨reads_of_idle hs (by omega) hl, _, storesTo_of_idle w hs (by omega) hl, ?frame, ?bits⟩
      case frame => rw [written]; rfl
      case bits => exact fun b => written ▸ getLsbD_setElemWord (s.getF i) j w hm b
    case reserved =>
      have hres : reservedWord s.msgCap.bytes off.toNat := by
        unfold reservedWord
        omega
      exact ⟨reads_reservedWord hres, storesTo_reservedWord w hres⟩
  case point =>
    have hc := coordinateOffset_cases c
    obtain ⟨off, ho⟩ :=
      exists_offset (n := 0x2000 + 192 * i.val + coordinateOffset c + 4 * j) (by omega)
    refine ⟨off, ho, fun hm => ?mapped, fun hr => ?reserved⟩
    case mapped =>
      have hl : locate s.msgCap.bytes off.toNat = .pr i c j := ho ▸ locate_prCoordinate _ i c hm
      exact ⟨reads_of_idle hs (by omega) hl, _, storesTo_of_idle w hs (by omega) hl,
        getLsbD_setElemWord ((s.getP i).get c) j w hm⟩
    case reserved =>
      have hres : reservedWord s.msgCap.bytes off.toNat := by
        unfold reservedWord
        omega
      exact ⟨reads_reservedWord hres, storesTo_reservedWord w hres⟩

/-- Settles O24: both windows hold byte strings whose bytes past the end read 0, in the last mapped word as in
the reserved words after it; the WB words lie outside the interlock and `storeWord` ignores them. -/
theorem scalarAndDigitWindows : Obligations.ScalarAndDigitWindows := by
  refine ⟨fun s i j w hs hj => ?scalar, fun s i j w hj => ?digits⟩
  case scalar =>
    obtain ⟨off, ho⟩ := exists_offset (n := 0x3000 + 64 * i.val + 4 * j) (by omega)
    refine ⟨off, ho, ?_⟩
    by_cases hm : j < 15
    case pos =>
      have hl : locate s.msgCap.bytes off.toNat = .sr i j := ho ▸ locate_srWord _ i j i.isLt hm
      have written : (s.storeWord w (.sr i j)).getS i = setStrWord (s.getS i) j w :=
        s.getS_setS_same i _
      refine ⟨⟨_, reads_of_idle hs (by omega) hl, fun k hk => wordByte_bytesWord_toList _ j hk⟩,
        _, storesTo_of_idle w hs (by omega) hl, ?frame, ?bytes⟩
      case frame => rw [written]; rfl
      case bytes => exact fun k => written ▸ getElem_setStrWord (s.getS i) j w k
    case neg =>
      have hres : reservedWord s.msgCap.bytes off.toNat := by
        unfold reservedWord
        omega
      refine ⟨⟨0#32, reads_reservedWord hres, fun k _ => ?past⟩,
        s, storesTo_reservedWord w hres, (s.setS_getS i).symm, fun k => ?kept⟩
      case past => rw [wordByte_zero, dif_neg (by omega)]
      case kept => rw [if_neg (by omega)]
  case digits =>
    obtain ⟨off, ho⟩ := exists_offset (n := 0x3800 + 512 * i.val + 4 * j) (by omega)
    refine ⟨off, ho, ?_⟩
    by_cases hm : j < 112
    case pos =>
      have hl : locate s.msgCap.bytes off.toNat = .wb i j := ho ▸ locate_wbWord _ i j i.isLt hm
      exact ⟨storesTo_of_not_interlocked w (by omega) hl rfl, fun hs =>
        ⟨_, reads_of_idle hs (by omega) hl, fun k hk => wordByte_bytesWord_toList _ j hk⟩⟩
    case neg =>
      have hres : reservedWord s.msgCap.bytes off.toNat := by
        unfold reservedWord
        omega
      refine ⟨storesTo_reservedWord w hres, fun _ => ⟨0#32, reads_reservedWord hres, fun k _ => ?past⟩⟩
      case past => rw [wordByte_zero, dif_neg (by omega)]

/-- Settles O25: a write is a word write of the byte memory, whose bytes are read back by `read_writeWord`,
and every access keeps the buffers in good order. -/
theorem bufferWindows : Obligations.BufferWindows := by
  intro s j w hs hwf
  obtain ⟨hmsg, hctx⟩ := State.wf_of_buffersWf hwf
  refine ⟨fun hj => ?message, fun hj => ?context⟩
  case message =>
    have hcap := s.msgCap.legal
    obtain ⟨off, ho⟩ := exists_offset (n := 0x4000 + 4 * j) (by omega)
    have hl : locate s.msgCap.bytes off.toNat = .msgbuf (4 * j) := ho ▸ locate_msgWord _ _ hj
    have written := storesTo_of_idle w hs (by omega) hl
    exact ⟨off, ho, ⟨_, reads_of_idle hs (by omega) hl, wordByte_readWord s.msgbuf (4 * j)⟩,
      _, written, rfl, storesTo_buffersWf written hwf, fun k => Memory.read_writeWord (4 * j) w k hmsg⟩
  case context =>
    obtain ⟨off, ho⟩ := exists_offset (n := 0x0100 + 4 * j) (by omega)
    have hl : locate s.msgCap.bytes off.toNat = .ctxbuf (4 * j) := ho ▸ locate_ctxWord _ _ hj
    have written := storesTo_of_idle w hs (by omega) hl
    exact ⟨off, ho, ⟨_, reads_of_idle hs (by omega) hl, wordByte_readWord s.ctxbuf (4 * j)⟩,
      _, written, rfl, storesTo_buffersWf written hwf, fun k => Memory.read_writeWord (4 * j) w k hctx⟩

end Sys2Proof.Proofs

/-! PROOFS. E_OPC (30_encoding.md R108): which words the decoder refuses for their opcode byte alone, and what
the controller does with a word that it refuses. -/

namespace Sys2Proof

/-- An encoding rule that a known command breaks is never E_OPC (30_encoding.md R105). -/
theorem strict_ne_illegalOpcode (legal : Bool) (i : Instr) :
    strict legal i ≠ .error .illegalOpcode := by
  cases legal <;> simp [strict]

/-- The listed ranges meet no row of the opcode map (30_encoding.md R107, R108): only the last arm is left. -/
theorem decodeFields_of_unmappedOpcode {f : Fields} (h : Machine.unmappedOpcode f.opc.toNat) :
    decodeFields f = .error .illegalOpcode := by
  unfold Machine.unmappedOpcode at h
  unfold decodeFields
  split
  case h_41 => rfl
  all_goals omega

/-- Outside the listed ranges every opcode byte has its row (30_encoding.md R107, R108), and a row ends in its
command or in E_ENC. -/
theorem decodeFields_ne_illegalOpcode {f : Fields} (h : ¬ Machine.unmappedOpcode f.opc.toNat) :
    decodeFields f ≠ .error .illegalOpcode := by
  unfold decodeFields
  split
  -- no row: the byte would lie in a listed range
  case h_41 =>
    have hbyte := f.opc.isLt
    unfold Machine.unmappedOpcode at h
    simp only [imp_false] at *
    omega
  -- FLDI, which has no illegal word
  case h_14 => exact nofun
  -- PGET, PPUT, PLOOK and WNAF, whose flag byte or destination may itself be illegal
  case h_26 | h_27 | h_32 | h_33 =>
    split
    · exact strict_ne_illegalOpcode _ _
    · exact nofun
  all_goals exact strict_ne_illegalOpcode _ _

/-- A word ends in E_OPC exactly for an opcode byte in the listed ranges (30_encoding.md R108). -/
theorem decode_eq_illegalOpcode_iff (w : Word32) :
    decode w = .error .illegalOpcode ↔ Machine.unmappedOpcode (w.extractLsb' 0 8).toNat :=
  ⟨fun h => by_contra fun hmapped => decodeFields_ne_illegalOpcode (f := fieldsOf w) hmapped h,
    decodeFields_of_unmappedOpcode (f := fieldsOf w)⟩

end Sys2Proof

namespace Sys2Proof.Machine

/-- A busy core whose CMD word is no command completes with the error of its decoding (30_encoding.md R110,
60_exceptions.md R304). -/
theorem State.controllerStep_of_decode_error {s : State} {e : DecodeError} (hs : s.busy = true)
    (h : decode s.cmd = .error e) : s.controllerStep = .next (errorOf (errOfDecode e) s) := by
  simp only [State.controllerStep, State.fetch, if_pos hs, h, errorOf_eq]

end Sys2Proof.Machine

namespace Sys2Proof.Proofs

open Sys2Proof.Machine

/-- Settles O4: the decoder's E_OPC is a fact about the opcode byte alone, and the controller completes with the
decoder's error. -/
theorem unmappedOpcodesEndInEOpc : Obligations.UnmappedOpcodesEndInEOpc :=
  ⟨fun w => (decode_eq_illegalOpcode_iff w).symm, fun s hs hop =>
    State.controllerStep_of_decode_error hs ((decode_eq_illegalOpcode_iff s.cmd).mpr hop)⟩

end Sys2Proof.Proofs

/-! PROOFS. NOP and ZEROIZE (40_control.md R131, R132): the one legal word of a command without operands, what
ZEROIZE clears, and the statement on both commands. -/

namespace Sys2Proof

/-! ### Commands without operands -/

/-- Every register field and the flag byte of a format-R word are 0: the encoding rule of a command without
operands (30_encoding.md R105). -/
def Fields.noOperands (f : Fields) : Bool := f.rd = 0 && onlyD f && decide (f.flg = 0#8)

theorem Fields.noOperands_iff (f : Fields) :
    f.noOperands = true ↔ f.rd = 0 ∧ f.ra = 0 ∧ f.rb = 0 ∧ f.rc = 0 ∧ f.flg = 0#8 := by
  simp [noOperands, onlyD, and_assoc]

theorem regBits_regField (w : Word32) (lo : Nat) : regBits (regField w lo) = w.extractLsb' lo 4 := rfl

/-- The fields of format R cover the word (30_encoding.md R101). -/
theorem encodeR_fieldsOf (w : Word32) :
    encodeR (fieldsOf w).opc (fieldsOf w).rd (fieldsOf w).ra (fieldsOf w).rb (fieldsOf w).rc
      (fieldsOf w).flg = w := by
  refine BitVec.eq_of_getLsbD_eq fun i hi => ?_
  rw [encodeR_getLsbD _ _ _ _ _ _ _ hi]
  simp only [fieldsOf, regBits_regField, BitVec.getLsbD_extractLsb']
  split_ifs <;> grind

/-- Of the words of one opcode, exactly the one with no other bit set has every operand field 0. -/
theorem noOperands_fieldsOf_iff (w : Word32) :
    (fieldsOf w).noOperands = true ↔ w = encodeR (w.extractLsb' 0 8) 0 0 0 0 0#8 := by
  constructor
  case mp =>
    intro h
    obtain ⟨hrd, hra, hrb, hrc, hflg⟩ := (Fields.noOperands_iff _).mp h
    have hw := encodeR_fieldsOf w
    rw [hrd, hra, hrb, hrc, hflg] at hw
    exact hw.symm
  case mpr =>
    intro h
    rw [h, fieldsOf_encodeR]
    rfl

/-- A command whose row admits no operand has one legal word, and every other word of its opcode is E_ENC
(30_encoding.md R105, R107). -/
theorem decode_of_noOperands {opc : BitVec 8} {i : Instr}
    (hrow : ∀ f : Fields, f.opc = opc → decodeFields f = strict f.noOperands i)
    (w : Word32) (hopc : w.extractLsb' 0 8 = opc) :
    (w = encodeR opc 0 0 0 0 0#8 → decode w = .ok i) ∧
      (w ≠ encodeR opc 0 0 0 0 0#8 → decode w = .error .illegalEncoding) := by
  have hdecode : decode w = strict (fieldsOf w).noOperands i := hrow (fieldsOf w) hopc
  have hlegal := noOperands_fieldsOf_iff w
  rw [hopc] at hlegal
  rw [hdecode]
  exact ⟨fun h => if_pos (hlegal.mpr h), fun h => if_neg (mt hlegal.mp h)⟩

theorem decodeFields_nop (f : Fields) (h : f.opc = 0x00#8) : decodeFields f = strict f.noOperands .nop := by
  simp only [decodeFields, h]
  rfl

theorem decodeFields_zeroize (f : Fields) (h : f.opc = 0x01#8) :
    decodeFields f = strict f.noOperands .zeroize := by
  simp only [decodeFields, h]
  rfl

end Sys2Proof

namespace Sys2Proof.Machine

variable (s : State)

/-! ### What ZEROIZE clears -/

theorem exec_nop : exec .nop s = .next s.complete := rfl
theorem exec_zeroize : exec .zeroize s = .next s.zeroize.complete := rfl

@[simp] theorem State.getF_zeroize (i : FReg) : s.zeroize.getF i = 0#448 := by
  simp [State.getF, State.zeroize]

@[simp] theorem State.getP_zeroize (i : PReg) : s.zeroize.getP i = ⟨0#448, 0#448, 0#448⟩ := by
  simp [State.getP, State.zeroize]

@[simp] theorem State.getS_zeroize (i : SReg) : s.zeroize.getS i = Vector.replicate 57 0#8 := by
  simp [State.getS, State.zeroize]

@[simp] theorem State.getW_zeroize (i : WReg) : s.zeroize.getW i = Vector.replicate 448 0#8 := by
  simp [State.getW, State.zeroize]

@[simp] theorem State.read_msgbuf_zeroize (k : Nat) : s.zeroize.msgbuf.read k = 0#8 := rfl
@[simp] theorem State.read_ctxbuf_zeroize (k : Nat) : s.zeroize.ctxbuf.read k = 0#8 := rfl

/-- ZEROIZE leaves CTRL, CMD, MSG_CAP, ACCERR and the model's own fields as they are (40_control.md R132). -/
theorem keepsControl_zeroize : keepsControl s s.zeroize.complete := ⟨rfl, rfl, rfl, rfl, rfl, rfl, rfl⟩

end Sys2Proof.Machine

namespace Sys2Proof.Proofs

open Sys2Proof.Machine

/-- Settles O6: both commands have the one word without operands, and ZEROIZE completes from the cleared
state. -/
theorem controlCommands : Obligations.ControlCommands := by
  refine ⟨⟨decode_of_noOperands decodeFields_nop, exec_nop⟩,
    decode_of_noOperands decodeFields_zeroize, fun s => ⟨s.zeroize.complete, exec_zeroize s,
      endsWith_complete _, State.getF_zeroize s, State.getP_zeroize s, ?strings, ?digits,
      State.read_msgbuf_zeroize s, State.read_ctxbuf_zeroize s, rfl, rfl, rfl, rfl, rfl, rfl, rfl,
      keepsControl_zeroize s⟩⟩
  case strings => simp
  case digits => simp

end Sys2Proof.Proofs

/-! PROOFS. The field unit and the checks (41_field.md R142 to R153, 42_scalar.md R171, 43_point.md R208): one
lemma for every row of the opcode map whose legality is a rule on its fields, one for each way in which these
commands end, the functions of the unit as the spec writes them, and the statements on them. -/

namespace Sys2Proof.Machine

/-! ### Rows of the opcode map -/

/-- A row of the opcode map that admits the words keeping a rule: they are its command, and every other word of
the opcode is E_ENC (30_encoding.md R105, R107). -/
theorem decodesAs_of_row {opc : BitVec 8} {rule : Fields → Bool} {legal : Fields → Prop}
    {i : Fields → Instr} (hrow : ∀ f : Fields, decodeFields { f with opc := opc } = strict (rule f) (i f))
    (hrule : ∀ f, rule f = true ↔ legal f) : decodesAs opc legal i := by
  rintro w rfl
  have hdecode : decode w = strict (rule (fieldsOf w)) (i (fieldsOf w)) := hrow (fieldsOf w)
  rw [hdecode]
  exact ⟨fun h => if_pos ((hrule _).mpr h), fun h => if_neg (mt (hrule _).mp h)⟩

theorem unusedDAB_iff (f : Fields) : (onlyDAB f && decide (f.flg = 0#8)) = true ↔ unusedDAB f := by
  simp [onlyDAB, unusedDAB]

theorem unusedDA_iff (f : Fields) : (onlyDA f && decide (f.flg = 0#8)) = true ↔ unusedDA f := by
  simp [onlyDA, unusedDA, and_assoc]

theorem unusedA_iff (f : Fields) : (onlyA f && decide (f.flg = 0#8)) = true ↔ unusedA f := by
  simp [onlyA, unusedA, and_assoc]

/-! ### How the commands end -/

section Endings

variable {i : Instr} {s : State} {d : FReg}

/-- A command that moves a raw value into FR[d] completes and changes nothing else. -/
theorem exec_of_moveField {v : Elem} (hexec : exec i s = moveField d v s) :
    ∃ t, exec i s = .next t ∧ endsWith .ok t ∧ changesOnly { fr := [d] } s t ∧ t.getF d = v :=
  ⟨_, hexec, endsWith_complete _,
    ((changesOnly_refl _ s).setF (List.mem_singleton_self d) v).complete, s.getF_setF_same d v⟩

/-- A command that writes a canonical value to FR[d] completes and changes nothing else; `m` is the value in
the spec's form. -/
theorem exec_of_writeField {n m : Nat} (hexec : exec i s = writeField d n s) (hn : n < Config.p)
    (hm : n = m) :
    ∃ t, exec i s = .next t ∧ endsWith .ok t ∧ changesOnly { fr := [d] } s t ∧ (t.getF d).toNat = m := by
  obtain ⟨t, ht, hend, hframe, hval⟩ := exec_of_moveField (v := elemOf n) hexec
  exact ⟨t, ht, hend, hframe, by rw [hval, toNat_elemOf hn, hm]⟩

/-- A command that writes a condition to CF completes and changes nothing else. -/
theorem exec_of_setCF {b : Bool} {Q : Prop} (hexec : exec i s = .next (s.setCF b).complete)
    (hb : b = true ↔ Q) :
    ∃ t, exec i s = .next t ∧ endsWith .ok t ∧ changesOnly { cf := true } s t ∧ (t.cf = true ↔ Q) :=
  ⟨_, hexec, endsWith_complete _, ((changesOnly_refl _ s).setCF rfl b).complete, hb⟩

end Endings

/-! ### The field functions as the spec writes them -/

theorem State.fval_lt (s : State) (i : FReg) : s.fval i < Config.p := fieldVal_lt _

/-- A product of residues is the product of the raw values, reduced (41_field.md R144). -/
theorem fmul_fieldVal (v w : Elem) : fmul (fieldVal v) (fieldVal w) = v.toNat * w.toNat % Config.p :=
  (Nat.mul_mod _ _ _).symm

/-- Squaring is multiplication by itself (41_field.md R145). -/
theorem fsqr_fieldVal (v : Elem) : fsqr (fieldVal v) = v.toNat ^ 2 % Config.p := by
  rw [pow_two]
  exact fmul_fieldVal v v

theorem fneg_fieldVal (v : Elem) :
    fneg (fieldVal v) = (Config.p - v.toNat % Config.p) % Config.p := by
  rw [fneg, fieldVal, Nat.mod_mod]

theorem rootCandidate_lt (u v : Nat) : rootCandidate u v < Config.p := Nat.mod_lt _ p_pos

/-- The unit's chain of multiplications gives the candidate of 41_field.md R151: both are canonical, and they are
the same power product in ZMod p. -/
theorem sqrtCandidate_eq (u v : Nat) : sqrtCandidate u v = rootCandidate u v := by
  have he : (Config.p - 3) / 4 < 2 ^ 448 := ((Nat.div_le_self _ _).trans (Nat.sub_le _ _)).trans_lt p_lt
  have hcast : (sqrtCandidate u v : ZMod Config.p) = (rootCandidate u v : ZMod Config.p) := by
    simp only [sqrtCandidate, rootCandidate, fpow_eq _ _ he, cast_fmul, cast_fsqr, cast_mod,
      Nat.cast_mul, Nat.cast_pow]
    ring
  have hmod := (ZMod.natCast_eq_natCast_iff' _ _ _).mp hcast
  rwa [Nat.mod_eq_of_lt (sqrtCandidate_lt u v), Nat.mod_eq_of_lt (rootCandidate_lt u v)] at hmod

/-- The square root of a ratio is the candidate exactly when it squares to the ratio (41_field.md R151). -/
theorem sqrtRatio_eq {u : Nat} (hu : u < Config.p) (v : Nat) :
    sqrtRatio u v =
      if v * rootCandidate u v ^ 2 % Config.p = u then some (rootCandidate u v) else none := by
  have hsquare (x : Nat) : fmul v (fsqr x) = v * x ^ 2 % Config.p := by
    rw [fmul, fsqr, Nat.mul_mod_mod, pow_two]
  simp only [sqrtRatio, sqrtCandidate_eq, hsquare, Nat.mod_eq_of_lt hu]

/-- FSQRTR writes CF = 1 with a root, CF = 0 without one (41_field.md R151). -/
theorem State.putRoot_some (s : State) (d : FReg) (x : Nat) :
    s.putRoot d (some x) = (s.setF d (elemOf x)).setCF true := rfl
theorem State.putRoot_none (s : State) (d : FReg) : s.putRoot d none = s.setCF false := rfl

/-! ### The checks -/

theorem schk_iff (e : Str57) : schk e = true ↔ e[56] = 0#8 ∧ sdec e < Config.groupOrder := by
  simp [schk]

theorem chkpt_iff (e : Str57) : chkpt e = true ↔ e[56] &&& 0x7F#8 = 0#8 ∧ sdec e < Config.p := by
  simp [chkpt]

/-- Bit 0 of a raw value is its parity (41_field.md R150). -/
theorem getLsbD_zero_iff (v : Elem) : v.getLsbD 0 = true ↔ v.toNat % 2 = 1 := by
  rw [BitVec.getLsbD, Nat.testBit_zero, decide_eq_true_iff]

end Sys2Proof.Machine

namespace Sys2Proof.Proofs

open Sys2Proof.Machine

/-- Settles O29: each command writes one canonical value, which the reduction of its sources puts in the
spec's form. -/
theorem fieldSumsAndNegation : Obligations.FieldSumsAndNegation := by
  refine ⟨decodesAs_of_row (fun _ => rfl) unusedDAB_iff, decodesAs_of_row (fun _ => rfl) unusedDAB_iff,
    decodesAs_of_row (fun _ => rfl) unusedDA_iff, decodesAs_of_row (fun _ => rfl) unusedDA_iff,
    fun d a b s => ⟨?fadd, ?fsub, ?fneg, ?fnorm⟩⟩
  case fadd => exact exec_of_writeField rfl (fadd_lt _ _) rfl
  case fsub =>
    obtain ⟨t, ht, hend, hframe, hval⟩ :=
      exec_of_writeField (i := .fsub d a b) (s := s) rfl (fsub_lt _ _) rfl
    exact ⟨t, ht, hend, hframe, by rw [hval]; exact fsub_eq _ _⟩
  case fneg => exact exec_of_writeField rfl (fneg_lt _) (fneg_fieldVal _)
  case fnorm => exact exec_of_writeField rfl (fieldVal_lt _) rfl

/-- Settles O30: the product of the reduced sources is the exact product, reduced. -/
theorem fieldProducts : Obligations.FieldProducts := by
  refine ⟨decodesAs_of_row (fun _ => rfl) unusedDAB_iff, decodesAs_of_row (fun _ => rfl) unusedDA_iff,
    fun d a b s => ⟨?fmul, ?fsqr⟩⟩
  case fmul => exact exec_of_writeField rfl (fmul_lt _ _) (fmul_fieldVal _ _)
  case fsqr => exact exec_of_writeField rfl (fsqr_lt _) (fsqr_fieldVal _)

/-- Settles O33: FSQRTR completes with what `sqrtRatio` answers, and that answer is the candidate exactly when
v·x² = u. -/
theorem squareRootOfRatio : Obligations.SquareRootOfRatio := by
  refine ⟨decodesAs_of_row (fun _ => rfl) unusedDAB_iff, fun d a b s => ?_⟩
  refine ⟨(s.putRoot d (sqrtRatio (s.fval a) (s.fval b))).complete, rfl, endsWith_complete _,
    s.fval a, s.fval b, rootCandidate (s.fval a) (s.fval b), rfl, rfl, rfl,
    fun hroot => ?root, fun hnone => ?noRoot⟩
  case root =>
    rw [sqrtRatio_eq (s.fval_lt a), if_pos hroot, State.putRoot_some]
    exact ⟨by simp [toNat_elemOf (rootCandidate_lt _ _)], rfl,
      ((changesOnly_refl _ s).setF (List.mem_singleton_self d) _).setCF rfl true⟩
  case noRoot =>
    rw [sqrtRatio_eq (s.fval_lt a), if_neg hnone, State.putRoot_none]
    exact ⟨rfl, (changesOnly_refl _ s).setCF rfl false⟩

/-- Settles O34: each command writes to CF what its check answers. -/
theorem checksOfRegisters : Obligations.ChecksOfRegisters :=
  ⟨⟨decodesAs_of_row (fun _ => rfl) unusedA_iff, fun _ _ => exec_of_setCF rfl decide_eq_true_iff⟩,
    ⟨decodesAs_of_row (fun _ => rfl) unusedA_iff, fun a s => exec_of_setCF rfl (schk_iff (s.getS a))⟩,
    decodesAs_of_row (fun _ => rfl) unusedA_iff, fun a s => exec_of_setCF rfl (chkpt_iff (s.getS a))⟩

/-- Settles O32: each command is a raw move into FR[d]. -/
theorem fieldMovesAndSelect : Obligations.FieldMovesAndSelect := by
  refine ⟨⟨decodesAs_of_row (fun _ => rfl) unusedDA_iff, ?fldiWords, fun d a imm s => ⟨?fmov, ?fldi⟩⟩,
    decodesAs_of_row (fun _ => rfl) (fun _ => decide_eq_true_iff), fun d a b c s => ?fsel⟩
  case fldiWords => exact decodesAs_of_row (rule := fun _ => true) (fun _ => rfl) (by simp)
  case fmov => exact exec_of_moveField rfl
  case fldi =>
    obtain ⟨t, ht, hend, hframe, hval⟩ := exec_of_moveField (i := .fldi d imm) (s := s) rfl
    exact ⟨t, ht, hend, hframe, by rw [hval]; exact BitVec.toNat_setWidth_of_le (by decide)⟩
  case fsel =>
    obtain ⟨t, ht, hend, hframe, hval⟩ := exec_of_moveField (i := .fsel d a b c) (s := s) rfl
    exact ⟨t, ht, hend, hframe, hval.trans (if_congr (getLsbD_zero_iff _) rfl rfl)⟩

end Sys2Proof.Proofs

/-! PROOFS. The scalar unit (42_scalar.md R172 to R174): how its commands end, single bytes of a scalar's value,
SPRUNE byte by byte, and the statements on SPRUNE, SRED and SCALC. -/

namespace Sys2Proof.Machine

/-! ### How the commands end -/

section ScalarEndings

variable {i : Instr} {s : State} {d : SReg}

/-- A command that writes a byte string to SR[d] completes and changes nothing else. -/
theorem exec_of_writeString {v : Str57} (hexec : exec i s = writeString d v s) :
    ∃ t, exec i s = .next t ∧ endsWith .ok t ∧ changesOnly { sr := [d] } s t ∧ t.getS d = v :=
  ⟨_, hexec, endsWith_complete _,
    ((changesOnly_refl _ s).setS (List.mem_singleton_self d) v).complete, s.getS_setS_same d v⟩

/-- A bit position `m` as the bit `k` of byte `n`: its weight in a little-endian string (00_scope.md R13). -/
theorem two_pow_eq_byte_weight {m n k : Nat} (hm : m = 8 * n + k) : 2 ^ m = 256 ^ n * 2 ^ k := by
  rw [hm, pow_add, pow_mul, show 2 ^ 8 = 256 by norm_num]

/-- The values of `n` bytes are those of 8n bits (00_scope.md R13). -/
theorem two_pow_eq_bytes {m n : Nat} (hm : m = 8 * n) : 2 ^ m = 256 ^ n := by
  rw [two_pow_eq_byte_weight (k := 0) hm, pow_zero, mul_one]

/-- A value mod L fits the 56 bytes that hold a scalar (42_scalar.md R170). -/
theorem mod_groupOrder_lt (n : Nat) : n % Config.groupOrder < 256 ^ 56 :=
  calc n % Config.groupOrder < Config.groupOrder := Nat.mod_lt n groupOrder_pos
    _ < 2 ^ 446 := groupOrder_lt
    _ < 2 ^ 448 := by gcongr <;> decide
    _ = 256 ^ 56 := two_pow_eq_bytes (by decide)

/-- A command that writes a value mod L to SR[d] completes with a canonical scalar and changes nothing else. -/
theorem exec_of_writeReduced {n : Nat}
    (hexec : exec i s = writeString d (le57 (n % Config.groupOrder)) s) :
    ∃ t, exec i s = .next t ∧ endsWith .ok t ∧ changesOnly { sr := [d] } s t ∧
      (t.getS d)[56] = 0#8 ∧ sdec (t.getS d) = n % Config.groupOrder := by
  obtain ⟨t, ht, hend, hframe, hval⟩ := exec_of_writeString hexec
  exact ⟨t, ht, hend, hframe, hval ▸ le57_top _ (mod_groupOrder_lt n),
    hval ▸ sdec_le57 _ (mod_groupOrder_lt n)⟩

end ScalarEndings

/-! ### Single bytes of a value -/

/-- A byte of a string contributes its weight to the value (00_scope.md R13). -/
theorem weight_mul_getD_le_intLE (bs : Bytes) (k : Nat) : 256 ^ k * (bs.getD k 0#8).toNat ≤ intLE bs := by
  induction bs generalizing k with
  | nil => simp [intLE]
  | cons b bs ih =>
    cases k with
    | zero => simp [intLE]
    | succ k =>
      have := ih k
      rw [List.getD_cons_succ, intLE, pow_succ', mul_assoc]
      omega

/-- The first byte alone decides the value mod 4 (00_scope.md R13). -/
theorem intLE_mod_four (bs : Bytes) : intLE bs % 4 = (bs.getD 0 0#8).toNat % 4 := by
  cases bs with
  | nil => rfl
  | cons b bs =>
    rw [intLE, List.getD_cons_zero]
    omega

/-- The bytes whose value `sdec` reads (42_scalar.md R170). -/
theorem getD_take_toList (e : Str57) {k : Nat} (hk : k < 56) :
    (e.toList.take 56).getD k 0#8 = e[k] := by
  simp [List.getD_eq_getElem?_getD, hk]

theorem weight_mul_getElem_le_sdec (e : Str57) {k : Nat} (hk : k < 56) :
    256 ^ k * e[k].toNat ≤ sdec e :=
  getD_take_toList e hk ▸ weight_mul_getD_le_intLE (e.toList.take 56) k

theorem sdec_mod_four (e : Str57) : sdec e % 4 = e[0].toNat % 4 :=
  getD_take_toList e (by decide : 0 < 56) ▸ intLE_mod_four (e.toList.take 56)

/-! ### SPRUNE -/

theorem and_0xFC_mod_four (b : Byte) : (b &&& 0xFC#8).toNat % 4 = 0 := by
  rw [BitVec.toNat_and]
  simpa using Nat.and_mod_two_pow (a := b.toNat) (b := 0xFC) (n := 2)

theorem le_or_0x80 (b : Byte) : 2 ^ 7 ≤ (b ||| 0x80#8).toNat := by
  rw [BitVec.toNat_or]
  exact Nat.right_le_or

variable (e : Str57)

@[simp] theorem sprune_first : (sprune e)[0] = e[0] &&& 0xFC#8 := by simp [sprune]
@[simp] theorem sprune_high : (sprune e)[55] = e[55] ||| 0x80#8 := by simp [sprune]
@[simp] theorem sprune_top : (sprune e)[56] = 0#8 := by simp [sprune]

/-- SPRUNE copies bytes 1 to 54 (42_scalar.md R172). -/
theorem sprune_copied {k : Nat} (h1 : 1 ≤ k) (h54 : k ≤ 54) : (sprune e)[k] = e[k] := by
  simp [sprune, show k ≠ 0 by omega, show k ≠ 55 by omega, show k ≠ 56 by omega]

/-- Bit 7 of byte 55 is bit 447 of a pruned scalar. -/
theorem le_sdec_sprune : 2 ^ 447 ≤ sdec (sprune e) := by
  have hbit : 2 ^ 7 ≤ (sprune e)[55].toNat := sprune_high e ▸ le_or_0x80 e[55]
  calc 2 ^ 447 = 256 ^ 55 * 2 ^ 7 := two_pow_eq_byte_weight (by decide)
    _ ≤ 256 ^ 55 * (sprune e)[55].toNat := by gcongr
    _ ≤ sdec (sprune e) := weight_mul_getElem_le_sdec (sprune e) (k := 55) (by decide)

theorem sdec_sprune_lt : sdec (sprune e) < 2 ^ 448 :=
  (sdec_lt _).trans_eq (two_pow_eq_bytes (by decide)).symm

theorem sdec_sprune_mod_four : sdec (sprune e) % 4 = 0 := by
  rw [sdec_mod_four, sprune_first, and_0xFC_mod_four]

/-- What SPRUNE does to each byte it does only once: it sets and clears bits, and copies the rest. -/
theorem sprune_sprune : sprune (sprune e) = sprune e := by
  ext1 k hk
  obtain rfl | rfl | rfl | ⟨h1, h54⟩ : k = 0 ∨ k = 55 ∨ k = 56 ∨ (1 ≤ k ∧ k ≤ 54) := by omega
  · rw [sprune_first, sprune_first, BitVec.and_assoc, BitVec.and_self]
  · rw [sprune_high, sprune_high, BitVec.or_assoc, BitVec.or_self]
  · rw [sprune_top, sprune_top]
  · exact sprune_copied (sprune e) h1 h54

end Sys2Proof.Machine

namespace Sys2Proof.Proofs

open Sys2Proof.Machine

/-- Settles O35: the command writes `sprune` of its source, whose bytes give the range of the result. -/
theorem scalarPrune : Obligations.ScalarPrune := by
  refine ⟨decodesAs_of_row (fun _ => rfl) unusedDA_iff, fun d a s => ?_, sprune_sprune⟩
  obtain ⟨t, ht, hend, hframe, hval⟩ := exec_of_writeString (i := .sprune d a) (s := s) rfl
  refine ⟨t, ht, hend, hframe, ?_⟩
  rw [hval]
  exact ⟨sprune_first _, sprune_high _, sprune_top _, fun _ => sprune_copied _, le_sdec_sprune _,
    sdec_sprune_lt _, sdec_sprune_mod_four _⟩

/-- Settles O36: both commands write an exact value mod L. -/
theorem scalarReductions : Obligations.ScalarReductions :=
  ⟨decodesAs_of_row (fun _ => rfl) unusedDAB_iff, decodesAs_of_row (fun _ => rfl) (fun _ => decide_eq_true_iff),
    fun _ _ _ _ _ => ⟨exec_of_writeReduced rfl, exec_of_writeReduced rfl⟩⟩

end Sys2Proof.Proofs

/-! PROOFS. The point unit (43_point.md R190 to R205): the rows of the opcode map with a COMP subfield or a NEG
flag, how the commands that write a point end, the one formula of both additions, and the statements on PDBL,
the additions and the moves. -/

namespace Sys2Proof.Machine

/-! ### Rows of the opcode map -/

/-- PADD and PDEC use the flag byte for NEG alone (30_encoding.md R104). -/
theorem unusedButNeg_iff (f : Fields) :
    (onlyDA f && flagOnly f) = true ↔ f.rb = 0 ∧ f.rc = 0 ∧ f.flg.extractLsb' 1 7 = 0#7 := by
  simp [onlyDA, flagOnly, and_assoc]

theorem onlyD_iff (f : Fields) :
    (onlyD f && decide (f.flg = 0#8)) = true ↔ f.ra = 0 ∧ f.rb = 0 ∧ f.rc = 0 ∧ f.flg = 0#8 := by
  simp [onlyD, and_assoc]

theorem compField_compFlag (c : Comp) : compField (compFlag c) = some c := by
  cases c <;> rfl

/-- COMP = 3 and the flag bytes with a bit of FLG[7:2] set name no coordinate (30_encoding.md R106). -/
theorem compField_eq_none_iff (flg : BitVec 8) : compField flg = none ↔ ¬ flg.toNat < 3 := by
  unfold compField
  split
  case h_4 =>
    simp only [imp_false, true_iff] at *
    omega
  all_goals simp only [reduceCtorEq, false_iff]; omega

/-- A row of the opcode map with a COMP subfield: the words that name a coordinate and leave RB and RC 0 are its
command, and every other word of the opcode is E_ENC (30_encoding.md R105, R106). -/
theorem decode_of_compRow {opc : BitVec 8} {i : Fields → Comp → Instr}
    (hnamed : ∀ (f : Fields) (c : Comp), compField f.flg = some c →
      decodeFields { f with opc := opc } = strict (onlyDA f) (i f c))
    (hunnamed : ∀ f : Fields, compField f.flg = none →
      decodeFields { f with opc := opc } = .error .illegalEncoding)
    (w : Word32) (c : Comp) (hopc : w.extractLsb' 0 8 = opc) :
    ((fieldsOf w).rb = 0 ∧ (fieldsOf w).rc = 0 ∧ (fieldsOf w).flg = compFlag c →
        decode w = .ok (i (fieldsOf w) c)) ∧
      (¬ ((fieldsOf w).rb = 0 ∧ (fieldsOf w).rc = 0 ∧ (fieldsOf w).flg.toNat < 3) →
        decode w = .error .illegalEncoding) := by
  subst hopc
  constructor
  case left =>
    rintro ⟨hrb, hrc, hflg⟩
    have hrow : decode w = strict (onlyDA (fieldsOf w)) (i (fieldsOf w) c) :=
      hnamed (fieldsOf w) c (hflg ▸ compField_compFlag c)
    rw [hrow]
    exact if_pos (by simp [onlyDA, hrb, hrc])
  case right =>
    intro hillegal
    cases hcomp : compField (fieldsOf w).flg with
    | none => exact hunnamed (fieldsOf w) hcomp
    | some c' =>
      have hflg : (fieldsOf w).flg.toNat < 3 := by
        by_contra hge
        simp [(compField_eq_none_iff _).mpr hge] at hcomp
      have hrow : decode w = strict (onlyDA (fieldsOf w)) (i (fieldsOf w) c') := hnamed (fieldsOf w) c' hcomp
      rw [hrow]
      refine if_neg fun hlegal => hillegal ?_
      simpa [onlyDA, hflg] using hlegal

theorem decodeFields_pget {f : Fields} {c : Comp} (h : compField f.flg = some c) :
    decodeFields { f with opc := 0x37#8 } = strict (onlyDA f) (.pget f.rd f.ra c) := by
  simp [decodeFields, h, onlyDA]

theorem decodeFields_pget_of_none {f : Fields} (h : compField f.flg = none) :
    decodeFields { f with opc := 0x37#8 } = .error .illegalEncoding := by
  simp [decodeFields, h]

theorem decodeFields_pput {f : Fields} {c : Comp} (h : compField f.flg = some c) :
    decodeFields { f with opc := 0x38#8 } = strict (onlyDA f) (.pput f.rd f.ra c) := by
  simp [decodeFields, h, onlyDA]

theorem decodeFields_pput_of_none {f : Fields} (h : compField f.flg = none) :
    decodeFields { f with opc := 0x38#8 } = .error .illegalEncoding := by
  simp [decodeFields, h]

/-! ### How the commands end -/

/-- A command that moves three raw coordinates into PR[d] completes and changes nothing else. -/
theorem next_of_movePoint {o : Host.Outcome State Fault Refusal} {s : State} {d : PReg} {q : PointReg}
    (ho : o = movePoint d q s) :
    ∃ t, o = .next t ∧ endsWith .ok t ∧ changesOnly { pr := [d] } s t ∧ t.getP d = q :=
  ⟨_, ho, endsWith_complete _,
    ((changesOnly_refl _ s).setP (List.mem_singleton_self d) q).complete, s.getP_setP_same d q⟩

/-- A command that writes a triple of field values to PR[d] is a raw move of the triple. -/
theorem writePoint_eq (d : PReg) (q : Pt) (s : State) : writePoint d q s = movePoint d q.reg s := rfl

/-- A canonical triple is held as it is (43_point.md R190). -/
theorem Pt.toNat_reg {q : Pt} (hq : q.canonical) :
    q.reg.x.toNat = q.x ∧ q.reg.y.toNat = q.y ∧ q.reg.z.toNat = q.z := by
  obtain ⟨hx, hy, hz⟩ := hq
  exact ⟨toNat_elemOf hx, toNat_elemOf hy, toNat_elemOf hz⟩

theorem Pt.allCanonical_reg {q : Pt} (hq : q.canonical) : q.reg.allCanonical := by
  obtain ⟨hx, hy, hz⟩ := Pt.toNat_reg hq
  simp only [PointReg.allCanonical, Machine.canonical, hx, hy, hz]
  exact hq

theorem Pt.residue_reg {q : Pt} (hq : q.canonical) :
    residue q.reg.x = q.x ∧ residue q.reg.y = q.y ∧ residue q.reg.z = q.z := by
  obtain ⟨hx, hy, hz⟩ := Pt.toNat_reg hq
  simp only [residue, hx, hy, hz, and_self]

/-- A command that writes a canonical triple to PR[d] completes, changes nothing else, and leaves canonical
coordinates with the residues of the triple. -/
theorem next_of_writePoint {o : Host.Outcome State Fault Refusal} {s : State} {d : PReg} {q : Pt}
    (ho : o = writePoint d q s) (hq : q.canonical) :
    ∃ t, o = .next t ∧ endsWith .ok t ∧ changesOnly { pr := [d] } s t ∧ (t.getP d).allCanonical ∧
      residue (t.getP d).x = q.x ∧ residue (t.getP d).y = q.y ∧ residue (t.getP d).z = q.z := by
  obtain ⟨t, ht, hend, hframe, hval⟩ := next_of_movePoint (ho.trans (writePoint_eq d q s))
  exact ⟨t, ht, hend, hframe, hval ▸ Pt.allCanonical_reg hq, hval ▸ Pt.residue_reg hq⟩

/-! ### The addition formulas -/

/-- The point that PADD and PADDP add: PADDP takes Z1 = 1 and does not read Z (43_point.md R198, R199). -/
def addend (affine : Bool) (q : PointReg) : Pt :=
  if affine then ⟨fieldVal q.x, fieldVal q.y, 1⟩ else q.val

theorem cast_addend_x (affine : Bool) (q : PointReg) : ((addend affine q).x : ZMod Config.p) = residue q.x := by
  cases affine <;> exact cast_fieldVal q.x

theorem cast_addend_y (affine : Bool) (q : PointReg) : ((addend affine q).y : ZMod Config.p) = residue q.y := by
  cases affine <;> exact cast_fieldVal q.y

theorem cast_addend_z (affine : Bool) (q : PointReg) :
    ((addend affine q).z : ZMod Config.p) = if affine then 1 else residue q.z := by
  cases affine
  case false => exact cast_fieldVal q.z
  case true => exact Nat.cast_one

/-- PADD and PADDP run one formula: PADDP is the addition without negation of its addend. -/
theorem exec_addition (d a : PReg) (neg affine : Bool) (s : State) :
    (if affine then exec (.paddp d a) s else exec (.padd d a neg) s) =
      writePoint d (add (neg && !affine) (addend affine (s.getP a)) (s.pval d)) s := by
  cases affine
  case false => simp only [Bool.not_false, Bool.and_true]; rfl
  case true => simp only [Bool.not_true, Bool.and_false]; rfl

theorem cast_ite_fneg (neg : Bool) (x : Nat) :
    ((if neg then fneg x else x : Nat) : ZMod Config.p) = if neg then -(x : ZMod Config.p) else x := by
  cases neg
  case false => rfl
  case true => exact cast_fneg x

end Sys2Proof.Machine

namespace Sys2Proof.Proofs

open Sys2Proof.Machine

/-- Settles O37: PDBL writes the canonical triple `dbl`, whose steps are those of the formulas in GF(p). -/
theorem pointDoubling : Obligations.PointDoubling := by
  refine ⟨decodesAs_of_row (fun _ => rfl) unusedDA_iff, fun d a s => ?_⟩
  obtain ⟨t, ht, hend, hframe, hcanon, hx, hy, hz⟩ :=
    next_of_writePoint (o := exec (.pdbl d a) s) rfl (dbl_canonical (s.pval a))
  refine ⟨t, ht, hend, hframe, hcanon, _, _, _, _, _, _, _, _, _, rfl, rfl, rfl, rfl, rfl, rfl, rfl, rfl,
    rfl, hx.trans ?_, hy.trans ?_, hz.trans ?_⟩ <;>
  simp only [dbl, State.pval, PointReg.val, cast_fmul, cast_fsub, cast_fadd, cast_fsqr, cast_fieldVal,
    Nat.cast_ofNat]

/-- Settles O38: both commands write the canonical triple `add` of their addend and the accumulator, whose
steps are those of the formulas in GF(p). -/
theorem pointAdditions : Obligations.PointAdditions := by
  refine ⟨decodesAs_of_row (fun _ => rfl) unusedButNeg_iff, decodesAs_of_row (fun _ => rfl) unusedDA_iff,
    fun d a neg affine s => ?_⟩
  obtain ⟨t, ht, hend, hframe, hcanon, hx, hy, hz⟩ :=
    next_of_writePoint (exec_addition d a neg affine s) (add_canonical _ _ _)
  refine ⟨t, ht, hend, hframe, hcanon, _, _, _, _, _, _, _, _, _, _, _, _, _, _, rfl, rfl, rfl, rfl, rfl,
    rfl, rfl, rfl, rfl, rfl, rfl, rfl, rfl, rfl, hx.trans ?_, hy.trans ?_, hz.trans ?_⟩ <;>
  simp only [add, State.pval, PointReg.val, cast_fmul, cast_fsub, cast_fadd, cast_fsqr, cast_fieldVal,
    cast_ite_fneg, cast_addend_x, cast_addend_y, cast_addend_z, cast_curveD]

/-- Settles O39: PNEG writes a canonical triple, and the other commands are raw moves. -/
theorem pointMovesAndNegation : Obligations.PointMovesAndNegation := by
  refine ⟨⟨decodesAs_of_row (fun _ => rfl) unusedDA_iff, decodesAs_of_row (fun _ => rfl) onlyD_iff,
    decodesAs_of_row (fun _ => rfl) unusedDAB_iff,
    decode_of_compRow (fun _ _ => decodeFields_pget) (fun _ => decodeFields_pget_of_none),
    decode_of_compRow (fun _ _ => decodeFields_pput) (fun _ => decodeFields_pput_of_none),
    fun d a f g s => ?moves⟩, decodesAs_of_row (fun _ => rfl) unusedDA_iff, fun d a s => ?pneg⟩
  case moves =>
    exact ⟨next_of_movePoint rfl, next_of_movePoint rfl, next_of_movePoint rfl, exec_of_moveField rfl,
      exec_of_moveField rfl, exec_of_moveField rfl, next_of_movePoint rfl, next_of_movePoint rfl,
      next_of_movePoint rfl⟩
  case pneg =>
    obtain ⟨t, ht, hend, hframe, hval⟩ := next_of_movePoint (o := exec (.pneg d a) s) rfl
    obtain ⟨hx, hy, hz⟩ := Pt.toNat_reg (q := ⟨fneg (s.pval a).x, (s.pval a).y, (s.pval a).z⟩)
      ⟨fneg_lt _, fieldVal_lt _, fieldVal_lt _⟩
    refine ⟨t, ht, hend, hframe, ?_⟩
    rw [hval]
    exact ⟨hx.trans (fneg_fieldVal _), hy, hz⟩

end Sys2Proof.Proofs

/-! PROOFS. The point codec (43_point.md R194, R196, R206, R207): the bytes of an encoding in the spec's terms,
the tests of a decoding as one condition, and the statements on PENC and PDEC. -/

namespace Sys2Proof.Machine

/-! ### Encoding -/

/-- The unit's division by inversion is the spec's power (41_field.md R146). -/
theorem fmul_finv (a z : Nat) : fmul a (finv z) = dividedBy a z := by
  rw [fmul, finv_eq, Nat.mul_mod_mod, dividedBy]

theorem dividedBy_zero (a : Nat) : dividedBy a 0 = 0 := by
  have hexp : Config.p - 2 ≠ 0 := by decide +kernel
  rw [dividedBy, zero_pow hexp, mul_zero, Nat.zero_mod]

theorem dividedBy_lt (a z : Nat) : dividedBy a z < Config.p := Nat.mod_lt _ p_pos

/-- A field value fits the 56 bytes that hold y (43_point.md R194). -/
theorem lt_bytes_of_lt_p {n : Nat} (h : n < Config.p) : n < 256 ^ 56 :=
  (h.trans p_lt).trans_eq (two_pow_eq_bytes (by decide))

variable (q : Pt)

theorem enc_eq : enc q = str57 (leBytes 56 (dividedBy q.y q.z) ++ [signByte (dividedBy q.x q.z)]) := by
  simp only [enc, affine, fmul_finv]

/-- Bytes 0 to 55 of an encoding are the affine y (43_point.md R194). -/
theorem sdec_enc : sdec (enc q) = dividedBy q.y q.z := by
  rw [sdec, enc_eq, str57_toList _ (by simp), List.take_left' (leBytes_length _ _), intLE_leBytes,
    Nat.mod_eq_of_lt (lt_bytes_of_lt_p (dividedBy_lt _ _))]

/-- Byte 56 of an encoding is the sign byte of the affine x (43_point.md R194). -/
theorem enc_top : (enc q)[56] = signByte (dividedBy q.x q.z) := by
  rw [enc_eq, str57_getElem, List.getD_append_right _ _ _ _ (by simp)]
  simp

theorem signByte_eq (x : Nat) : signByte x = if x % 2 = 1 then 0x80#8 else 0x00#8 := by
  obtain h | h := Nat.mod_two_eq_zero_or_one x <;> simp [signByte, h]

/-- A string of value 0 with byte 56 zero is the zero string (00_scope.md R13). -/
theorem getElem_of_sdec_eq_zero {e : Str57} (hval : sdec e = 0) (htop : e[56] = 0#8) {k : Nat} (hk : k < 57) :
    e[k] = 0#8 := by
  obtain rfl | hlow : k = 56 ∨ k < 56 := by omega
  · exact htop
  · have hweight := weight_mul_getElem_le_sdec e hlow
    rw [hval, Nat.le_zero, mul_eq_zero] at hweight
    exact BitVec.eq_of_toNat_eq (hweight.resolve_left (by positivity))

/-- The encoding of a triple with Z ≡ 0 is 57 zero bytes (43_point.md R194). -/
theorem enc_of_zero (hz : q.z = 0) {k : Nat} (hk : k < 57) : (enc q)[k] = 0#8 := by
  refine getElem_of_sdec_eq_zero ?_ ?_ hk
  · rw [sdec_enc, hz, dividedBy_zero]
  · rw [enc_top, hz, dividedBy_zero, signByte_eq]
    rfl

/-- The inversion of a canonical Z sets ZDIV exactly for 0 (10_state.md R49). -/
theorem PointReg.zeroZ_val (q : PointReg) : q.val.zeroZ = decide (q.z.toNat % Config.p = 0) := by
  simp only [Pt.zeroZ, invertsZero, PointReg.val, fieldVal, Nat.mod_mod]

/-! ### Decoding -/

/-- u = 1 − y² of 43_point.md R196, in the unit's arithmetic. -/
def ratioU (y : Nat) : Nat := fsub 1 (fsqr y)

/-- v = 1 − d·y² of 43_point.md R196, in the unit's arithmetic. -/
def ratioV (y : Nat) : Nat := fsub 1 (fmul Config.curveD (fsqr y))

/-- The candidate x of 43_point.md R196. -/
def candidateX (y : Nat) : Nat := rootCandidate (ratioU y) (ratioV y)

/-- The tests of 43_point.md R196: CHKPT, the square root, and the sign of x = 0. -/
def encodesPoint (e : Str57) : Prop :=
  e[56] &&& 0x7F#8 = 0#8 ∧ sdec e < Config.p ∧
    ratioV (sdec e) * candidateX (sdec e) ^ 2 % Config.p = ratioU (sdec e) ∧
    ¬ ((e[56]).getLsbD 7 = true ∧ candidateX (sdec e) = 0)

theorem ratioU_lt (y : Nat) : ratioU y < Config.p := fsub_lt _ _
theorem ratioV_lt (y : Nat) : ratioV y < Config.p := fsub_lt _ _

theorem ratioU_eq (y : Nat) : (ratioU y : Int) = (1 - (y : Int) ^ 2) % Config.p := by
  rw [ratioU, fsub_eq, fsqr, Nat.cast_one, Int.natCast_mod, Int.sub_emod, Int.emod_emod, ← Int.sub_emod,
    Nat.cast_mul, pow_two]

theorem ratioV_eq (y : Nat) : ratioV y = (1 + 39081 * y ^ 2) % Config.p := by
  have hcast : (ratioV y : ZMod Config.p) = ((1 + 39081 * y ^ 2 : Nat) : ZMod Config.p) := by
    rw [ratioV, cast_fsub, cast_fmul, cast_fsqr, cast_curveD]
    push_cast
    ring
  have hmod := (ZMod.natCast_eq_natCast_iff' _ _ _).mp hcast
  rwa [Nat.mod_eq_of_lt (ratioV_lt y)] at hmod

/-- x0 is bit 7 of byte 56 (43_point.md R196). -/
theorem toNat_ushiftRight_seven (b : Byte) : (b >>> 7).toNat = (b.getLsbD 7).toNat := by
  have hbyte := b.isLt
  rw [BitVec.toNat_ushiftRight, BitVec.getLsbD, Nat.toNat_testBit, Nat.shiftRight_eq_div_pow]
  omega

/-- The parity asked for is not that of x (43_point.md R196). -/
theorem bitToNat_ne_mod_two_iff (b : Bool) (x : Nat) : b.toNat ≠ x % 2 ↔ (x % 2 = 1) ≠ (b = true) := by
  obtain h | h := Nat.mod_two_eq_zero_or_one x <;> cases b <;> simp [h]

/-- The x that DECPT chooses: the root of the parity asked for, negated for NEG = 1 (43_point.md R196). -/
def chosenX (e : Str57) (neg : Bool) : Nat :=
  if xor neg (decide ((candidateX (sdec e) % 2 = 1) ≠ ((e[56]).getLsbD 7 = true))) = true then
    (Config.p - candidateX (sdec e)) % Config.p
  else candidateX (sdec e)

theorem candidateX_lt (y : Nat) : candidateX y < Config.p := rootCandidate_lt _ _

theorem chosenX_lt (e : Str57) (neg : Bool) : chosenX e neg < Config.p := by
  unfold chosenX
  split
  · exact Nat.mod_lt _ p_pos
  · exact candidateX_lt _

/-- The square root inside DECPT is the candidate when v·x² = u (43_point.md R196). -/
theorem sqrtRatio_of_y (y : Nat) :
    sqrtRatio (fsub 1 (fsqr y)) (fsub 1 (fmul Config.curveD (fsqr y))) =
      if ratioV y * candidateX y ^ 2 % Config.p = ratioU y then some (candidateX y) else none :=
  sqrtRatio_eq (ratioU_lt y) (ratioV y)

variable {e : Str57}

/-- An encoding that passes the tests decodes to its y and the root chosen (43_point.md R196). -/
theorem decpt_of_encodesPoint (h : encodesPoint e) (neg : Bool) :
    decpt e neg = some ⟨chosenX e neg, sdec e, 1⟩ := by
  obtain ⟨htop, hy, hroot, hsign⟩ := h
  have hsqrt := (sqrtRatio_of_y (sdec e)).trans (if_pos hroot)
  have hx : candidateX (sdec e) % Config.p = candidateX (sdec e) := Nat.mod_eq_of_lt (candidateX_lt _)
  rw [decpt, if_pos ((chkpt_iff e).mpr ⟨htop, hy⟩)]
  simp only [hsqrt, toNat_ushiftRight_seven, Bool.toNat_eq_one, bitToNat_ne_mod_two_iff, fneg, hx]
  exact if_neg hsign

/-- An encoding that fails a test does not decode (43_point.md R196). -/
theorem decpt_of_not_encodesPoint (h : ¬ encodesPoint e) (neg : Bool) : decpt e neg = none := by
  by_cases hchk : chkpt e = true
  case neg => exact if_neg hchk
  case pos =>
    obtain ⟨htop, hy⟩ := (chkpt_iff e).mp hchk
    rw [decpt, if_pos hchk]
    by_cases hroot : ratioV (sdec e) * candidateX (sdec e) ^ 2 % Config.p = ratioU (sdec e)
    case neg => simp only [(sqrtRatio_of_y (sdec e)).trans (if_neg hroot)]
    case pos =>
      simp only [(sqrtRatio_of_y (sdec e)).trans (if_pos hroot), toNat_ushiftRight_seven, Bool.toNat_eq_one]
      exact if_pos (by_contra fun hsign => h ⟨htop, hy, hroot, hsign⟩)

/-- The decoded triple is canonical (43_point.md R196). -/
theorem decoded_canonical (h : encodesPoint e) (neg : Bool) :
    (Pt.mk (chosenX e neg) (sdec e) 1).canonical := by
  obtain ⟨_, hy, _⟩ := h
  exact ⟨chosenX_lt e neg, hy, one_lt_p⟩

/-- PDEC writes CF = 1 with a point, CF = 0 without one (43_point.md R207). -/
theorem State.putDecoded_some (s : State) (d : PReg) (q : Pt) :
    s.putDecoded d (some q) = (s.setP d q.reg).setCF true := rfl
theorem State.putDecoded_none (s : State) (d : PReg) : s.putDecoded d none = s.setCF false := rfl

end Sys2Proof.Machine

namespace Sys2Proof.Proofs

open Sys2Proof.Machine

/-- Settles O40: PENC writes `enc` of its source and sets ZDIV for Z ≡ 0. -/
theorem pointEncoding : Obligations.PointEncoding := by
  refine ⟨decodesAs_of_row (fun _ => rfl) unusedDA_iff, fun d a s => ?_⟩
  have hval : (((s.setS d (enc (s.pval a))).orZDIV (s.pval a).zeroZ).complete).getS d = enc (s.pval a) := by
    simp
  refine ⟨_, rfl, endsWith_complete _,
    (((changesOnly_refl _ s).setS (List.mem_singleton_self d) _).orZDIV rfl _).complete,
    _, _, _, rfl, rfl, rfl, ?_⟩
  rw [hval]
  refine ⟨sdec_enc _, (enc_top _).trans (signByte_eq _), fun hz => ⟨fun k => enc_of_zero _ hz k.isLt, ?zero⟩,
    fun hz => ?nonzero⟩
  case zero => simp [State.pval, PointReg.zeroZ_val, hz]
  case nonzero => simp [State.pval, PointReg.zeroZ_val, hz]

/-- Settles O41: PDEC completes with what `decpt` answers, and that is a point exactly when the encoding passes
the tests. -/
theorem pointDecoding : Obligations.PointDecoding := by
  refine ⟨decodesAs_of_row (fun _ => rfl) unusedButNeg_iff, fun d a neg s => ?_⟩
  refine ⟨(s.putDecoded d (decpt (s.getS a) neg)).complete, rfl, endsWith_complete _, s.getS a, _, _, _, _, _,
    encodesPoint (s.getS a), rfl, rfl, rfl, ratioU_eq _, ratioV_eq _, rfl, Iff.rfl, fun hfail => ?invalid,
    fun hok => ?valid⟩
  case invalid =>
    rw [decpt_of_not_encodesPoint hfail, State.putDecoded_none]
    exact ⟨rfl, (changesOnly_refl _ s).setCF rfl false⟩
  case valid =>
    obtain ⟨hx, hy, _⟩ := Pt.toNat_reg (decoded_canonical hok neg)
    rw [decpt_of_encodesPoint hok, State.putDecoded_some]
    refine ⟨rfl, ((changesOnly_refl _ s).setP (List.mem_singleton_self d) _).setCF rfl true, ?_⟩
    rw [State.getP_complete, State.getP_setCF, State.getP_setP_same]
    exact ⟨hy, rfl, hx⟩

end Sys2Proof.Proofs

/-! PROOFS. PRECOMP and PLOOK (44_scalar_mult.md R230, R241, R242): what the two commands leave of the tables,
which entry PLOOK reads, and the statement on both commands. -/

namespace Sys2Proof

theorem decodeFields_precomp (f : Fields) (h : f.opc = 0x40#8) :
    decodeFields f = strict f.noOperands .precomp := by
  simp only [decodeFields, h]
  rfl

end Sys2Proof

namespace Sys2Proof.Machine

variable {s t : State}

/-! ### The tables a command leaves -/

/-- A write of a point register keeps the tables ready. -/
theorem tablesReady.setP (h : tablesReady s t) (d : PReg) (v : PointReg) : tablesReady s (t.setP d v) := by
  simpa only [tablesReady, State.setP_tblv, State.setP_btab, State.setP_ctab] using h

/-- The completion keeps the tables ready. -/
theorem tablesReady.complete (h : tablesReady s t) : tablesReady s t.complete := by
  simpa only [tablesReady, State.complete_tblv, State.complete_btab, State.complete_ctab] using h

/-! ### The commands -/

theorem exec_precomp (s : State) : exec .precomp s = .next s.precompute.complete := rfl

theorem exec_plook (d : PReg) (e : TableEntry) (s : State) :
    exec (.plook d e) s = .next (s.precompute.setP d (s.precompute.tableEntry e)).complete := rfl

/-- After Precompute() a comb entry is the affine pair of the comb table in use, with Z = 1
(44_scalar_mult.md R242). -/
theorem tableEntry_precompute_comb (s : State) (b : Fin 5) (i : Fin 16) :
    s.precompute.tableEntry (.comb b i) = ⟨(usedCtab s)[b][i].x, (usedCtab s)[b][i].y, 1#448⟩ := by
  rw [usedCtab_eq, State.tableEntry]

/-- After Precompute() a window entry is the triple of the base window table in use (44_scalar_mult.md R242). -/
theorem tableEntry_precompute_win (s : State) (i : Fin 32) :
    s.precompute.tableEntry (.win i) = (usedBtab s)[i] := by
  rw [usedBtab_eq, State.tableEntry]

/-- PLOOK completes with the tables ready, and PR[d] holds the entry it names; nothing else changes
(44_scalar_mult.md R242). -/
theorem next_of_plook (d : PReg) {e : TableEntry} {s : State} {v : PointReg}
    (hentry : s.precompute.tableEntry e = v) :
    ∃ t, exec (.plook d e) s = .next t ∧ endsWith .ok t ∧
      changesOnly { pr := [d], tables := true } s t ∧ tablesReady s t ∧ t.getP d = v := by
  refine ⟨_, exec_plook d e s, endsWith_complete _,
    ((changesOnly_precompute _ s rfl).setP (List.mem_singleton_self d) _).complete,
    ((tablesReady_precompute s).setP d _).complete, ?_⟩
  rw [State.getP_complete, State.getP_setP_same, hentry]

end Sys2Proof.Machine

namespace Sys2Proof.Proofs

open Sys2Proof.Machine

/-- Settles O45: PRECOMP has the one word without operands and completes from the state that Precompute()
leaves, and PLOOK adds a write of the entry in use. -/
theorem precompAndTableLookup : Obligations.PrecompAndTableLookup := by
  refine ⟨⟨decode_of_noOperands decodeFields_precomp, fun s => ?precomp⟩, fun d b i s => ?comb,
    fun d i s => ?win⟩
  case precomp =>
    exact ⟨s.precompute.complete, exec_precomp s, endsWith_complete _,
      (changesOnly_precompute _ s rfl).complete, (tablesReady_precompute s).complete⟩
  case comb => exact next_of_plook d (tableEntry_precompute_comb s b i)
  case win => exact next_of_plook d (tableEntry_precompute_win s i)

end Sys2Proof.Proofs

/-! PROOFS. The argument checks of SIGN, VERIFY and XOFH (45_protocol.md R272): which code the checks answer, how
a command ends on either answer, and the statement on their order. -/

namespace Sys2Proof.Machine

variable {s : State} {ph : Bool} {e : ErrCode}

/-! ### The checks -/

/-- CTX_LEN is checked first. -/
theorem State.protocolError_of_ctxLen (hctx : 255 < s.ctxLen.toNat) : s.protocolError ph = some .ctx :=
  if_pos hctx

/-- MSG_LEN is checked against the capacity once CTX_LEN passes. -/
theorem State.protocolError_of_msgLen (hctx : s.ctxLen.toNat ≤ 255) (hmsg : s.msgCap.bytes < s.msgLen.toNat) :
    s.protocolError ph = some .msg := by
  rw [State.protocolError, if_neg (Nat.not_lt.mpr hctx), if_pos hmsg]

/-- With both lengths in range the prehash length is the one check left. -/
theorem State.protocolError_of_lengths (hctx : s.ctxLen.toNat ≤ 255) (hmsg : s.msgLen.toNat ≤ s.msgCap.bytes) :
    s.protocolError ph = if ph = true ∧ s.msgLen.toNat ≠ 64 then some .ph else none := by
  rw [State.protocolError, if_neg (Nat.not_lt.mpr hctx), if_neg (Nat.not_lt.mpr hmsg)]

theorem State.protocolError_of_argumentsPass (h : argumentsPass s ph) : s.protocolError ph = none := by
  obtain ⟨hctx, hmsg, hprehash⟩ := h
  rw [State.protocolError_of_lengths hctx hmsg]
  exact if_neg fun ⟨hph, hlen⟩ => hlen (hprehash hph)

/-! ### The commands -/

theorem exec_sign_of_protocolError {dR dS : SReg} (hd : dR ≠ dS) (sk : SReg) (sup : Option SReg)
    (he : s.protocolError ph = some e) : exec (.sign dR dS sk sup ph) s = .next (errorOf e s) := by
  change execSign dR dS sk sup ph s = _
  simp only [execSign, if_neg hd, he, errorOf_eq]

/-- SIGN past its checks writes the two halves of the signature in their order, over built tables
(45_protocol.md R275). -/
theorem exec_sign_of_argumentsPass {dR dS : SReg} (hd : dR ≠ dS) (sk : SReg) (sup : Option SReg)
    (h : argumentsPass s ph) :
    exec (.sign dR dS sk sup ph) s =
      .next (((s.precompute.setS dR (s.precompute.signature sk sup ph).r).setS dS
        (s.precompute.signature sk sup ph).t).orZDIV (s.precompute.signature sk sup ph).zdiv).complete := by
  change execSign dR dS sk sup ph s = _
  simp only [execSign, if_neg hd, State.protocolError_of_argumentsPass h]

theorem exec_verify_of_protocolError (r t pk : SReg) (he : s.protocolError ph = some e) :
    exec (.verify r t pk ph) s = .next (errorOf e s) := by
  change execVerify r t pk ph s = _
  simp only [execVerify, he, errorOf_eq]

theorem exec_verify_of_argumentsPass (r t pk : SReg) (h : argumentsPass s ph) :
    exec (.verify r t pk ph) s = .next (s.verified r t pk ph).complete := by
  change execVerify r t pk ph s = _
  simp only [execVerify, State.protocolError_of_argumentsPass h]

theorem exec_xofh_of_msgLen {lo hi : SReg} (hd : lo ≠ hi) (hmsg : s.msgCap.bytes < s.msgLen.toNat) :
    exec (.xofh lo hi) s = .next (errorOf .msg s) := by
  change execXofh lo hi s = _
  rw [execXofh, if_neg hd, if_pos hmsg, errorOf_eq]

/-- XOFH past its check writes the two halves of the hash in their order (45_protocol.md R277). -/
theorem exec_xofh_of_fits {lo hi : SReg} (hd : lo ≠ hi) (hmsg : s.msgLen.toNat ≤ s.msgCap.bytes) :
    exec (.xofh lo hi) s =
      .next ((s.setS lo (lowHalf (xof s.message 114))).setS hi (highHalf (xof s.message 114))).complete := by
  change execXofh lo hi s = _
  rw [execXofh, if_neg hd, if_neg (Nat.not_lt.mpr hmsg)]

end Sys2Proof.Machine

namespace Sys2Proof.Proofs

open Sys2Proof.Machine

/-- Settles O55: SIGN and VERIFY end with the code that the checks answer, and complete when they answer none;
XOFH has the check of MSG_LEN alone. -/
theorem protocolArgumentChecks : Obligations.ProtocolArgumentChecks := by
  intro s ph dR dS sk r t pk sup hd
  have ends_in {e : ErrCode} (he : s.protocolError ph = some e) :
      exec (.sign dR dS sk sup ph) s = .next (errorOf e s) ∧
        exec (.verify r t pk ph) s = .next (errorOf e s) :=
    ⟨exec_sign_of_protocolError hd sk sup he, exec_verify_of_protocolError r t pk he⟩
  refine ⟨fun hctx => ends_in (State.protocolError_of_ctxLen hctx),
    fun hctx hmsg => ends_in (State.protocolError_of_msgLen hctx hmsg),
    exec_xofh_of_msgLen hd, fun hctx hmsg hph hlen => ends_in ?prehash, fun hpass => ⟨?sign, ?verify⟩,
    fun hmsg => ⟨_, exec_xofh_of_fits hd hmsg, State.complete_err _⟩⟩
  case prehash => exact (State.protocolError_of_lengths hctx hmsg).trans (if_pos ⟨hph, hlen⟩)
  case sign => exact ⟨_, exec_sign_of_argumentsPass hd sk sup hpass, State.complete_err _⟩
  case verify => exact ⟨_, exec_verify_of_argumentsPass r t pk hpass, State.complete_err _⟩

end Sys2Proof.Proofs

/-! PROOFS. Command errors, bus errors and the interrupt line (60_exceptions.md R302 to R309): what an error leaves
of the state, the codes each command ends in, the words without a command, illegal accesses, and the four
statements of the chapter. -/

namespace Sys2Proof

/-! ### Words that end in E_ENC -/

/-- The word of an opcode with every other bit set. -/
def onesWord (opc : BitVec 8) : Word32 := encodeR opc 15 15 15 15 0xFF#8

theorem opcode_onesWord (opc : BitVec 8) : (onesWord opc).extractLsb' 0 8 = opc :=
  congrArg Fields.opc (fieldsOf_encodeR opc 15 15 15 15 0xFF#8)

/-- Every row but FLDI's leaves a field unused, has a reserved flag or bounds a field's value, so none takes a
word with every operand bit set (30_encoding.md R105, R106). -/
theorem decodeFields_of_ones {opc : BitVec 8} (hfldi : opc ≠ 0x1B#8) (imm : BitVec 20) :
    ∃ e, decodeFields ⟨opc, 15, 15, 15, 15, 0xFF#8, imm⟩ = .error e := by
  unfold decodeFields
  split
  -- FLDI
  case h_14 hopc => exact absurd (BitVec.eq_of_toNat_eq hopc) hfldi
  -- PLOOK and SIGN, refused for reserved bits inside the flag byte (30_encoding.md R104)
  case h_32 => exact ⟨.illegalEncoding, by simp [tableField]⟩
  case h_38 => exact ⟨.illegalEncoding, by simp [strict]⟩
  all_goals exact ⟨_, rfl⟩

theorem decode_onesWord {opc : BitVec 8} (hmapped : ¬ Machine.unmappedOpcode opc.toNat)
    (hfldi : opc ≠ 0x1B#8) : decode (onesWord opc) = .error .illegalEncoding := by
  obtain ⟨e, he⟩ : ∃ e, decode (onesWord opc) = .error e := by
    rw [decode, onesWord, fieldsOf_encodeR]
    exact decodeFields_of_ones hfldi _
  cases e with
  | illegalEncoding => exact he
  | illegalOpcode =>
    rw [decode_eq_illegalOpcode_iff, opcode_onesWord] at he
    exact absurd he hmapped

/-- FLDI's immediate takes all the bits above its destination (30_encoding.md R102), so it has no illegal word. -/
theorem decodeFields_fldi (f : Fields) (h : f.opc = 0x1B#8) : decodeFields f = .ok (.fldi f.rd f.imm) := by
  simp only [decodeFields, h]
  rfl

end Sys2Proof

namespace Sys2Proof.Machine

variable {s t : State}

/-! ### What an error leaves of the state -/

/-- A command that does not complete with OK has written ERR, DONE and BUSY only (60_exceptions.md R304). -/
theorem eq_errorOf_of_exec {i : Instr} (h : exec i s = .next t) (herr : t.err ≠ .ok) : t = errorOf t.err s := by
  rcases exec_cases i s with ⟨e, _, he⟩ | ⟨r, _, he⟩
  case inl =>
    obtain rfl : s.completeErr e = t := by simpa [he] using h
    exact errorOf_eq e s
  case inr =>
    obtain rfl : r.complete = t := by simpa [he] using h
    exact absurd r.complete_err herr

theorem State.controllerStep_of_decode_ok {i : Instr} (hs : s.busy = true) (h : decode s.cmd = .ok i) :
    s.controllerStep = exec i s := by
  simp only [State.controllerStep, State.fetch, if_pos hs, h]

/-! ### The codes of a command's row -/

/-- A command answers a next state whose code is one of `errs`. -/
def EndsWithin (errs : List ErrCode) (o : Host.Outcome State Fault Refusal) : Prop :=
  ∃ t, o = .next t ∧ t.err ∈ errs

/-- The argument checks pass, or answer one of their three codes (45_protocol.md R272). -/
theorem State.argumentsPass_or_protocolError (s : State) (ph : Bool) :
    argumentsPass s ph ∨ ∃ e ∈ [ErrCode.ctx, .msg, .ph], s.protocolError ph = some e := by
  by_cases hctx : 255 < s.ctxLen.toNat
  · exact .inr ⟨.ctx, by decide, State.protocolError_of_ctxLen hctx⟩
  by_cases hmsg : s.msgCap.bytes < s.msgLen.toNat
  · exact .inr ⟨.msg, by decide, State.protocolError_of_msgLen (Nat.not_lt.mp hctx) hmsg⟩
  by_cases hprehash : ph = true ∧ s.msgLen.toNat ≠ 64
  · exact .inr ⟨.ph, by decide,
      (State.protocolError_of_lengths (Nat.not_lt.mp hctx) (Nat.not_lt.mp hmsg)).trans (if_pos hprehash)⟩
  · exact .inl ⟨Nat.not_lt.mp hctx, Nat.not_lt.mp hmsg, fun hph => by_contra fun hlen => hprehash ⟨hph, hlen⟩⟩

/-- WNAF of a scalar out of range is E_RANGE (44_scalar_mult.md R243). -/
theorem exec_wnaf_of_outOfRange {width : Fin 16} (hw : legalWidth width = true) (d : WReg) {a : SReg}
    (ha : Config.scalarRange ≤ s.sval a) : exec (.wnaf d a width) s = .next (errorOf .range s) := by
  change execWnaf d a width s = _
  rw [execWnaf, hw, if_neg (by decide), if_pos ha, errorOf_eq]

theorem exec_wnaf_of_inRange {width : Fin 16} (hw : legalWidth width = true) (d : WReg) {a : SReg}
    (ha : s.sval a < Config.scalarRange) :
    exec (.wnaf d a width) s = .next (s.setW d (wnafBytes (s.sval a) width.val)).complete := by
  change execWnaf d a width s = _
  rw [execWnaf, hw, if_neg (by decide), if_neg (Nat.not_le.mpr ha)]

/-- SMULSV of a scalar out of range is E_RANGE (44_scalar_mult.md R245). -/
theorem exec_smulsv_of_outOfRange (d : PReg) {nb np : SReg} (q : PReg)
    (h : Config.scalarRange ≤ s.sval nb ∨ Config.scalarRange ≤ s.sval np) :
    exec (.smulsv d nb np q) s = .next (errorOf .range s) := by
  change execSmulsv d nb np q s = _
  rw [execSmulsv, if_pos h, errorOf_eq]

theorem exec_wnaf_endsWithin {width : Fin 16} (hw : legalWidth width = true) (d : WReg) (a : SReg) (s : State) :
    EndsWithin [.ok, .range] (exec (.wnaf d a width) s) := by
  rcases Nat.lt_or_ge (s.sval a) Config.scalarRange with hin | hout
  · exact ⟨_, exec_wnaf_of_inRange hw d hin, by simp⟩
  · exact ⟨_, exec_wnaf_of_outOfRange hw d hout, by simp [errorOf]⟩

theorem exec_smulsv_endsWithin (d : PReg) (nb np : SReg) (q : PReg) (s : State) :
    EndsWithin [.ok, .range] (exec (.smulsv d nb np q) s) := by
  by_cases h : Config.scalarRange ≤ s.sval nb ∨ Config.scalarRange ≤ s.sval np
  · exact ⟨_, exec_smulsv_of_outOfRange d q h, by simp [errorOf]⟩
  · exact ⟨_, if_neg h, by simp⟩

theorem exec_smulbxy_endsWithin {dx dy : FReg} (hd : dx ≠ dy) (a : SReg) (s : State) :
    EndsWithin [.ok] (exec (.smulbxy dx dy a) s) :=
  ⟨_, if_neg hd, by simp⟩

theorem exec_sign_endsWithin {dR dS : SReg} (hd : dR ≠ dS) (sk : SReg) (sup : Option SReg) (ph : Bool) (s : State) :
    EndsWithin [.ok, .ctx, .msg, .ph] (exec (.sign dR dS sk sup ph) s) := by
  rcases s.argumentsPass_or_protocolError ph with hpass | ⟨e, he, hcheck⟩
  · exact ⟨_, exec_sign_of_argumentsPass hd sk sup hpass, by simp⟩
  · exact ⟨_, exec_sign_of_protocolError hd sk sup hcheck, List.mem_cons_of_mem _ he⟩

theorem exec_verify_endsWithin (r t pk : SReg) (ph : Bool) (s : State) :
    EndsWithin [.ok, .ctx, .msg, .ph] (exec (.verify r t pk ph) s) := by
  rcases s.argumentsPass_or_protocolError ph with hpass | ⟨e, he, hcheck⟩
  · exact ⟨_, exec_verify_of_argumentsPass r t pk hpass, by simp⟩
  · exact ⟨_, exec_verify_of_protocolError r t pk hcheck, List.mem_cons_of_mem _ he⟩

theorem exec_xofh_endsWithin {lo hi : SReg} (hd : lo ≠ hi) (s : State) :
    EndsWithin [.ok, .msg] (exec (.xofh lo hi) s) := by
  rcases Nat.lt_or_ge s.msgCap.bytes s.msgLen.toNat with hmsg | hfits
  · exact ⟨_, exec_xofh_of_msgLen hd hmsg, by simp [errorOf]⟩
  · exact ⟨_, exec_xofh_of_fits hd hfits, by simp⟩

/-- A legal command ends in OK or in a code of its row (60_exceptions.md R302): six commands check their
arguments or destinations, and every other one completes from every state. -/
theorem exec_endsWithin_errorsOf {i : Instr} (hwf : i.wf = true) (s : State) :
    EndsWithin (errorsOf i) (exec i s) := by
  cases i with
  | wnaf d a width => exact exec_wnaf_endsWithin hwf d a s
  | smulsv d nb np q => exact exec_smulsv_endsWithin d nb np q s
  | smulbxy dx dy a => exact exec_smulbxy_endsWithin (of_decide_eq_true hwf) a s
  | sign dR dS sk sup ph => exact exec_sign_endsWithin (of_decide_eq_true hwf) sk sup ph s
  | verify r t pk ph => exact exec_verify_endsWithin r t pk ph s
  | xofh lo hi => exact exec_xofh_endsWithin (of_decide_eq_true hwf) s
  | _ => exact ⟨_, rfl, List.mem_singleton.mpr rfl⟩

/-! ### Each code occurs -/

/-- Each code of the argument checks is answered after a prehash command in some state. -/
theorem exists_protocolError {e : ErrCode} (he : e ∈ [ErrCode.ctx, .msg, .ph]) :
    ∃ s : State, s.protocolError true = some e := by
  simp only [List.mem_cons, List.not_mem_nil, or_false] at he
  rcases he with rfl | rfl | rfl
  · exact ⟨{ State.reset with ctxLen := 256#16 }, State.protocolError_of_ctxLen (by decide)⟩
  · exact ⟨{ State.reset with msgLen := 4097#16 }, State.protocolError_of_msgLen (by decide) (by decide)⟩
  · exact ⟨{ State.reset with msgLen := 63#16 }, State.protocolError_of_lengths (by decide) (by decide)⟩

/-- The reset state with the least scalar out of range in SR[0]. -/
def scalarOutOfRange : State := State.reset.setS 0 (le57 Config.scalarRange)

theorem sval_scalarOutOfRange : scalarOutOfRange.sval 0 = Config.scalarRange := by
  have hfits : Config.scalarRange < 256 ^ 56 :=
    calc Config.scalarRange = 2 ^ 446 := scalarRange_eq
      _ < 2 ^ 448 := by gcongr <;> decide
      _ = 256 ^ 56 := two_pow_eq_bytes (by decide)
  rw [State.sval, scalarOutOfRange, State.getS_setS_same, sdec_le57 _ hfits]

/-! ### The interrupt line -/

theorem State.getLsbD_statusWord_done (s : State) : s.statusWord.getLsbD 1 = s.done := by
  change BitVec.getLsbD (w := 20 + (4 + (2 + (1 + (1 + (1 + (1 + (1 + 1)))))))) (0#20 ++ _) 1 = _
  simp only [BitVec.getLsbD_append, BitVec.getLsbD_ofBool]
  simp

theorem State.getLsbD_statusWord_accerr (s : State) : s.statusWord.getLsbD 4 = s.accerr := by
  change BitVec.getLsbD (w := 20 + (4 + (2 + (1 + (1 + (1 + (1 + (1 + 1)))))))) (0#20 ++ _) 4 = _
  simp only [BitVec.getLsbD_append, BitVec.getLsbD_ofBool]
  simp

/-! ### Illegal accesses -/

theorem legalAccess_eq_false {width : AccessWidth} {off : BitVec 16} (h : width ≠ .w32 ∨ off.toNat % 4 ≠ 0) :
    legalAccess width off = false := by
  rw [legalAccess, Bool.and_eq_false_iff]
  exact h.imp decide_eq_false decide_eq_false

/-- A bus error is the answer to any access that is not legal (20_memory.md R71). -/
theorem State.hostAccess_of_illegal {width : AccessWidth} {off : BitVec 16} (h : legalAccess width off = false)
    (s : State) (w : Word32) :
    s.hostAccess (.read width off) = { s with resp := .readError 0#32 } ∧
      s.hostAccess (.write width off w) = { s with resp := .writeError } := by
  simp only [State.hostAccess, h, Bool.false_eq_true, if_false, and_self]

end Sys2Proof.Machine

namespace Sys2Proof.Proofs

open Sys2Proof.Machine

/-- Settles O8: the latched word is no command, and the controller answers its decoding error, or it is one, and
`exec` ends in its error alone. -/
theorem commandErrorsArePrecise : Obligations.CommandErrorsArePrecise := by
  intro s t hs hstep herr
  cases hdecode : decode s.cmd with
  | error e =>
    rw [State.controllerStep_of_decode_error hs hdecode] at hstep
    obtain rfl : errorOf (errOfDecode e) s = t := Host.Outcome.next.inj hstep
    rfl
  | ok i => exact eq_errorOf_of_exec (State.controllerStep_of_decode_ok hs hdecode ▸ hstep) herr

/-- Settles O9: the encoding errors by the decoder's rows, the codes of a legal command by its checks, and each
code by a state whose arguments fail the check. -/
theorem errorsByCommand : Obligations.ErrorsByCommand := by
  refine ⟨fun w => mt (decode_eq_illegalOpcode_iff w).mp,
    fun opc hmapped hfldi => ⟨onesWord opc, opcode_onesWord opc, decode_onesWord hmapped hfldi⟩,
    fun w hopc => ⟨_, decodeFields_fldi (fieldsOf w) hopc⟩, ?codes, ?protocol, ?xofh, ?wnaf, ?smulsv⟩
  case codes =>
    intro i s t hwf h
    obtain ⟨u, hu, hmem⟩ := exec_endsWithin_errorsOf hwf s
    obtain rfl : u = t := Host.Outcome.next.inj (hu.symm.trans h)
    exact hmem
  case protocol =>
    intro e he
    obtain ⟨s, hcheck⟩ := exists_protocolError he
    exact ⟨⟨s, _, exec_sign_of_protocolError (by decide) 2 none hcheck, rfl⟩,
      s, _, exec_verify_of_protocolError 0 1 2 hcheck, rfl⟩
  case xofh =>
    exact ⟨{ State.reset with msgLen := 4097#16 }, _, exec_xofh_of_msgLen (by decide) (by decide), rfl⟩
  case wnaf =>
    exact ⟨scalarOutOfRange, _, exec_wnaf_of_outOfRange rfl 0 sval_scalarOutOfRange.ge, rfl⟩
  case smulsv =>
    exact ⟨scalarOutOfRange, _, exec_smulsv_of_outOfRange 0 0 (.inl sval_scalarOutOfRange.ge), rfl⟩

/-- Settles O13: the four bits of the two words, each the flag that the line is made of. -/
theorem interruptLineFormula : Obligations.InterruptLineFormula := by
  refine ⟨fun s => ?words, fun _ => rfl⟩
  rw [s.getLsbD_statusWord_done, s.getLsbD_statusWord_accerr, s.getLsbD_ctrlWord 0, s.getLsbD_ctrlWord 1]
  rfl

/-- Settles O19: an access of another width or at a misaligned offset is not legal. -/
theorem illegalAccessIsABusError : Obligations.IllegalAccessIsABusError := fun s _ _ w h =>
  State.hostAccess_of_illegal (legalAccess_eq_false h) s w

end Sys2Proof.Proofs

/-! PROOFS. Reset (70_reset_and_hazards.md R341): what RST and the soft reset leave, and the flags that are 0
there. -/

namespace Sys2Proof.Machine

/-- RST is taken in one step, whatever the core is doing (70_reset_and_hazards.md R341). -/
theorem step_rst {s : State} {rest : List Input} (h : s.inputs = .rst :: rest) :
    step s = .next { s with inputs := rest }.restart := by
  simp only [step, h, State.perform]

/-- The soft reset is stored whatever BUSY is (10_state.md R43). -/
theorem storesTo_softReset (s : State) {w : Word32} (hw : w.getLsbD 31 = true) :
    storesTo s 0x0008#16 w s.restart :=
  State.writeCtrl_of_set hw ▸ storesTo_free_register (l := .ctrl) w (by decide) rfl rfl rfl

/-- The flags and the interrupt line of a reset core, whatever its tables hold (10_state.md R57). -/
theorem flags_of_atReset {cap : MsgCap} {t : State} (h : atReset cap t) :
    t.done = false ∧ t.busy = false ∧ t.tblv = false ∧ t.irq = false := by
  rw [h]
  exact ⟨rfl, rfl, rfl, rfl⟩

end Sys2Proof.Machine

namespace Sys2Proof.Proofs

open Sys2Proof.Machine

/-- Settles O16: RST and the soft reset are the same `restart`, which reads nothing of the state but its capacity
and its schedule; the flags are read off the reset state. -/
theorem bothResetsRestoreResetState : Obligations.BothResetsRestoreResetState := by
  refine ⟨fun s rest hrst => ?rst, fun s w hw => ?soft, fun _ _ => flags_of_atReset⟩
  case rst =>
    exact ⟨_, step_rst hrst, State.atReset_restart { s with inputs := rest }, State.restart_inputs _⟩
  case soft => exact ⟨s.restart, storesTo_softReset s hw, s.atReset_restart, s.restart_inputs⟩

end Sys2Proof.Proofs

/-! PROOFS. The decoder and the encoder undo each other (30_encoding.md R105 to R110): the subfields of the flag
byte, each row of the opcode map in both directions, and the three statements on them. -/

namespace Sys2Proof

/-! ### Subfields of the flag byte -/

theorem tableField_tableFlag (e : TableEntry) : tableField (tableFlag e) = some e := by
  cases e with
  | comb blk idx => revert blk idx; decide
  | win idx => revert idx; decide

theorem compFlag_of_compField {flg : BitVec 8} {c : Comp} (h : compField flg = some c) : compFlag c = flg := by
  unfold compField at h
  split at h <;> cases h <;> exact BitVec.eq_of_toNat_eq (Eq.symm ‹_›)

theorem tableFlag_of_tableField {flg : BitVec 8} {e : TableEntry} (h : tableField flg = some e) :
    tableFlag e = flg := by
  revert flg e; decide

@[simp] theorem reserved_bitFlag (b : Bool) : (bitFlag b).extractLsb' 1 7 = 0#7 := by cases b <;> decide
@[simp] theorem getElem_bitFlag (b : Bool) : (bitFlag b)[0] = b := by cases b <;> decide

@[simp] theorem reserved_signFlag (pkv ph : Bool) : (signFlag pkv ph).extractLsb' 2 6 = 0#6 := by
  cases pkv <;> cases ph <;> decide
@[simp] theorem getElem_signFlag_zero (pkv ph : Bool) : (signFlag pkv ph)[0] = ph := by
  cases pkv <;> cases ph <;> decide
@[simp] theorem getElem_signFlag_one (pkv ph : Bool) : (signFlag pkv ph)[1] = pkv := by
  cases pkv <;> cases ph <;> decide

theorem bitFlag_of_flagOnly {flg : BitVec 8} (h : flg.extractLsb' 1 7 = 0#7) : bitFlag flg[0] = flg := by
  revert flg; decide

theorem signFlag_of_reserved {flg : BitVec 8} (h : flg.extractLsb' 2 6 = 0#6) :
    signFlag flg[1] flg[0] = flg := by
  revert flg; decide

theorem widthFlag_of_reserved {flg : BitVec 8} (h : flg.extractLsb' 4 4 = 0#4) :
    0#4 ++ regBits (flg.extractLsb' 0 4).toFin = flg := by
  revert flg; decide

/-! ### Rows of the opcode map, from command to word -/

theorem strict_of_legal {legal : Bool} (h : legal = true) (i : Instr) : strict legal i = .ok i := if_pos h

/-- Decoding a format-R word is decoding the fields it was made from (30_encoding.md R101). -/
theorem decode_encodeR {opc : BitVec 8} {rd ra rb rc : Fin 16} {flg : BitVec 8} {i : Instr}
    (h : ∀ imm, decodeFields ⟨opc, rd, ra, rb, rc, flg, imm⟩ = .ok i) :
    decode (encodeR opc rd ra rb rc flg) = .ok i := by
  rw [decode, fieldsOf_encodeR]
  exact h _

theorem decode_encode_pget (d : FReg) (a : PReg) (c : Comp) : decode (encode (.pget d a c)) = .ok (.pget d a c) := by
  cases c <;> exact decode_encodeR fun _ => rfl

theorem decode_encode_pput (d : PReg) (a : FReg) (c : Comp) : decode (encode (.pput d a c)) = .ok (.pput d a c) := by
  cases c <;> exact decode_encodeR fun _ => rfl

theorem decode_encode_plook (d : PReg) (e : TableEntry) : decode (encode (.plook d e)) = .ok (.plook d e) := by
  refine decode_encodeR fun imm => ?_
  simp only [decodeFields, BitVec.reduceToNat, tableField_tableFlag]
  rfl

/-- The widths 2 to 8 survive the flag byte (30_encoding.md R104). -/
theorem decode_encode_wnaf (d : WReg) (a : SReg) {width : Fin 16} (h : legalWidth width = true) :
    decode (encode (.wnaf d a width)) = .ok (.wnaf d a width) := by
  refine decode_encodeR fun imm => ?_
  have hflg : (0#4 ++ regBits width).extractLsb' 4 4 = 0#4 ∧
      ((0#4 ++ regBits width).extractLsb' 0 4).toFin = width := by
    revert width; decide
  obtain ⟨hhigh, hlow⟩ := hflg
  simp only [decodeFields, BitVec.reduceToNat, d.isLt, dif_pos, hhigh, hlow]
  exact strict_of_legal (by simp [onlyDA, h]) _

theorem decode_encode_smulbxy {dx dy : FReg} (hd : dx ≠ dy) (a : SReg) :
    decode (encode (.smulbxy dx dy a)) = .ok (.smulbxy dx dy a) :=
  decode_encodeR fun _ => strict_of_legal (by simp [onlyDAB, hd]) _

theorem decode_encode_padd (d a : PReg) (neg : Bool) : decode (encode (.padd d a neg)) = .ok (.padd d a neg) :=
  decode_encodeR fun _ => by simp [decodeFields, onlyDA, flagOnly, strict]

theorem decode_encode_pdec (d : PReg) (a : SReg) (neg : Bool) :
    decode (encode (.pdec d a neg)) = .ok (.pdec d a neg) :=
  decode_encodeR fun _ => by simp [decodeFields, onlyDA, flagOnly, strict]

theorem decode_encode_verify (r t pk : SReg) (ph : Bool) :
    decode (encode (.verify r t pk ph)) = .ok (.verify r t pk ph) :=
  decode_encodeR fun _ => by simp [decodeFields, flagOnly, strict]

theorem decode_encode_sign {dR dS : SReg} (hd : dR ≠ dS) (sk : SReg) (pk : Option SReg) (ph : Bool) :
    decode (encode (.sign dR dS sk pk ph)) = .ok (.sign dR dS sk pk ph) := by
  cases pk <;> exact decode_encodeR fun _ => by simp [decodeFields, strict, hd]

theorem decode_encode_xofh {lo hi : SReg} (hd : lo ≠ hi) : decode (encode (.xofh lo hi)) = .ok (.xofh lo hi) :=
  decode_encodeR fun _ => strict_of_legal (by simp [onlyDAB, hd]) _

theorem decode_encode_fldi (d : FReg) (imm : BitVec 20) : decode (encode (.fldi d imm)) = .ok (.fldi d imm) := by
  obtain ⟨hopc, hrd, himm⟩ := fieldsOf_encodeI 0x1B#8 d imm
  rw [decode, encode, decodeFields_fldi _ hopc, hrd, himm]

/-- A legal command is read back from its word: six rows have a condition or a subfield of their own, and every
other one admits its fields whatever the operands are. -/
theorem decode_encode {i : Instr} (h : i.wf = true) : decode (encode i) = .ok i := by
  cases i with
  | fldi d imm => exact decode_encode_fldi d imm
  | pget d a c => exact decode_encode_pget d a c
  | pput d a c => exact decode_encode_pput d a c
  | plook d e => exact decode_encode_plook d e
  | wnaf d a width => exact decode_encode_wnaf d a h
  | smulbxy dx dy a => exact decode_encode_smulbxy (of_decide_eq_true h) a
  | sign dR dS sk pk ph => exact decode_encode_sign (of_decide_eq_true h) sk pk ph
  | xofh lo hi => exact decode_encode_xofh (of_decide_eq_true h)
  | padd d a neg => exact decode_encode_padd d a neg
  | pdec d a neg => exact decode_encode_pdec d a neg
  | verify r t pk ph => exact decode_encode_verify r t pk ph
  | _ => exact decode_encodeR fun _ => rfl

/-! ### Rows of the opcode map, from word to command -/

theorem strict_eq_ok {legal : Bool} {i j : Instr} (h : strict legal j = .ok i) : legal = true ∧ j = i := by
  cases legal with
  | false => cases h
  | true => exact ⟨rfl, Except.ok.inj h⟩

/-- A command of format R is legal and is encoded in the fields `f`. -/
def EncodedIn (f : Fields) (i : Instr) : Prop :=
  i.wf = true ∧ encode i = encodeR f.opc f.rd f.ra f.rb f.rc f.flg

theorem eq_ofNat_of_toNat {opc : BitVec 8} {n : Nat} (h : opc.toNat = n) : opc = BitVec.ofNat 8 n := by
  rw [← h, BitVec.ofNat_toNat, BitVec.setWidth_eq]

/-- SIGN's row: with PKV = 0 the public key's field is 0 (30_encoding.md R104). -/
theorem encodedIn_sign {rd ra rb rc : Fin 16} {flg : BitVec 8} {imm : BitVec 20}
    (h : (decide (flg.extractLsb' 2 6 = 0#6) && (flg.getLsbD 1 || decide (rc = 0)) && decide (rd ≠ rb)) = true) :
    EncodedIn ⟨0x51#8, rd, ra, rb, rc, flg, imm⟩
      (.sign rd rb ra (if flg.getLsbD 1 then some rc else none) (flg.getLsbD 0)) := by
  simp only [Bool.and_eq_true, Bool.or_eq_true, decide_eq_true_eq] at h
  obtain ⟨⟨hreserved, hpk⟩, hd⟩ := h
  have hflg := signFlag_of_reserved hreserved
  refine ⟨decide_eq_true hd, ?_⟩
  cases hpkv : flg.getLsbD 1 <;> simp_all [encode]

/-- WNAF's row: the width is the low half of the flag byte (30_encoding.md R104). -/
theorem encodedIn_wnaf {rd ra rb rc : Fin 16} {flg : BitVec 8} {imm : BitVec 20} {hd : rd.val < 2}
    (h : (onlyDA ⟨0x42#8, rd, ra, rb, rc, flg, imm⟩ && decide (flg.extractLsb' 4 4 = 0#4) &&
      legalWidth (flg.extractLsb' 0 4).toFin) = true) :
    EncodedIn ⟨0x42#8, rd, ra, rb, rc, flg, imm⟩ (.wnaf ⟨rd.val, hd⟩ ra (flg.extractLsb' 0 4).toFin) := by
  simp only [onlyDA, Bool.and_eq_true, decide_eq_true_eq] at h
  obtain ⟨⟨⟨hrb, hrc⟩, hreserved⟩, hwidth⟩ := h
  refine ⟨hwidth, ?_⟩
  rw [encode, widthFlag_of_reserved hreserved, hrb, hrc]

/-- What a row of the opcode map that admits the fields makes of them is encoded in those fields: no field is
ignored (30_encoding.md R105, R106). -/
theorem encodedIn_of_decodeFields {f : Fields} {i : Instr} (hfldi : f.opc ≠ 0x1B#8)
    (h : decodeFields f = .ok i) : EncodedIn f i := by
  obtain ⟨opc, rd, ra, rb, rc, flg, imm⟩ := f
  unfold decodeFields at h
  simp only at h hfldi
  split at h
  case h_41 => cases h
  case h_14 hopc => exact absurd (BitVec.eq_of_toNat_eq hopc) hfldi
  all_goals
    rename_i hopc
    obtain rfl := eq_ofNat_of_toNat hopc
  -- PGET and PPUT, whose flag byte names a coordinate (30_encoding.md R104)
  case h_26 | h_27 =>
    split at h
    case h_1 c hc =>
      obtain ⟨hlegal, rfl⟩ := strict_eq_ok h
      simp_all [EncodedIn, Instr.wf, encode, onlyDA, compFlag_of_compField hc]
    case h_2 => cases h
  -- PLOOK, whose flag byte names a table entry
  case h_32 =>
    split at h
    case h_1 e he =>
      obtain ⟨hlegal, rfl⟩ := strict_eq_ok h
      simp_all [EncodedIn, Instr.wf, encode, onlyD, tableFlag_of_tableField he]
    case h_2 => cases h
  -- WNAF, whose destination and width are bounded
  case h_33 =>
    split at h
    case isTrue =>
      obtain ⟨hlegal, rfl⟩ := strict_eq_ok h
      exact encodedIn_wnaf hlegal
    case isFalse => cases h
  -- SIGN, whose RC field is used for PKV = 1 alone
  case h_38 =>
    obtain ⟨hlegal, rfl⟩ := strict_eq_ok h
    exact encodedIn_sign hlegal
  all_goals
    obtain ⟨hlegal, rfl⟩ := strict_eq_ok h
    simp_all [EncodedIn, Instr.wf, encode, onlyD, onlyA, onlyDA, onlyDAB, flagOnly, bitFlag_of_flagOnly]

/-- The fields of format I cover the word (30_encoding.md R102). -/
theorem encodeI_fieldsOf (w : Word32) : encodeI (fieldsOf w).opc (fieldsOf w).rd (fieldsOf w).imm = w := by
  refine BitVec.eq_of_getLsbD_eq fun i hi => ?_
  rw [encodeI_getLsbD _ _ _ _ hi]
  simp only [fieldsOf, regBits_regField, BitVec.getLsbD_extractLsb']
  split_ifs <;> grind

/-- A word that decodes is the one word of its command, and the command is legal. -/
theorem encode_of_decode {w : Word32} {i : Instr} (h : decode w = .ok i) : i.wf = true ∧ encode i = w := by
  by_cases hfldi : (fieldsOf w).opc = 0x1B#8
  case pos =>
    obtain rfl : Instr.fldi (fieldsOf w).rd (fieldsOf w).imm = i :=
      Except.ok.inj ((decodeFields_fldi _ hfldi).symm.trans h)
    refine ⟨rfl, ?_⟩
    rw [encode, ← hfldi, encodeI_fieldsOf]
  case neg =>
    obtain ⟨hwf, hword⟩ := encodedIn_of_decodeFields hfldi h
    exact ⟨hwf, hword.trans (encodeR_fieldsOf w)⟩

end Sys2Proof

namespace Sys2Proof.Proofs

open Sys2Proof

/-- Settles O2: row by row, the fields of the encoding are those the decoder admits for the command. -/
theorem decodeOfEncodeIsTheCommand : Obligations.DecodeOfEncodeIsTheCommand := fun _ => decode_encode

/-- Settles O3: row by row, the fields that the decoder admits are those of the command's encoding, and the
fields of either format cover the word. -/
theorem legalWordIsTheEncoding : Obligations.LegalWordIsTheEncoding := fun _ _ => encode_of_decode

/-- Settles O1, by running the decoder on the twelve words. -/
theorem wordsOfEachFamilyDecode : Obligations.WordsOfEachFamilyDecode := by
  unfold Obligations.WordsOfEachFamilyDecode
  decide

end Sys2Proof.Proofs

/-! PROOFS. The words of the aperture at all times (20_memory.md R80, R82, 10_state.md R45, R47, R48): the fields of
STATUS, the two lengths, and the statements on the reserved words, the interlock and the STATUS register. -/

namespace Sys2Proof.Machine

variable {s : State} {off : BitVec 16} {w : Word32}

/-! ### STATUS -/

/-- STATUS bit by bit, as the fields it is put together from (10_state.md R45). -/
theorem State.getLsbD_statusWord (s : State) (k : Nat) :
    s.statusWord.getLsbD k =
      if k = 0 then s.busy else if k = 1 then s.done else if k = 2 then s.cf else if k = 3 then s.tblv
      else if k = 4 then s.accerr else if k = 5 then s.zdiv
      else if 8 ≤ k ∧ k < 12 then s.err.code.getLsbD (k - 8) else false := by
  change BitVec.getLsbD (w := 20 + (4 + (2 + (1 + (1 + (1 + (1 + (1 + 1)))))))) (0#20 ++ _) k = _
  match k with
  | 0 | 1 | 2 | 3 | 4 | 5 | 6 | 7 => simp only [BitVec.getLsbD_append, BitVec.getLsbD_ofBool]; simp
  | k + 8 => simp only [BitVec.getLsbD_append]; simp

/-- ERR stands in STATUS[11:8], and the reserved bits read 0 (10_state.md R45). -/
theorem State.statusWord_fields (s : State) :
    s.statusWord.extractLsb' 6 2 = 0#2 ∧ s.statusWord.extractLsb' 8 4 = s.err.code ∧
      s.statusWord.extractLsb' 12 20 = 0#20 := by
  refine ⟨extract_field _ _ _ _ fun i hi => ?low, extract_field _ _ _ _ fun i hi => ?err,
    extract_field _ _ _ _ fun i hi => ?high⟩
  all_goals rw [State.getLsbD_statusWord, if_neg (by omega), if_neg (by omega), if_neg (by omega),
    if_neg (by omega), if_neg (by omega), if_neg (by omega)]
  case low => rw [if_neg (by omega), BitVec.getLsbD_zero]
  case err => rw [if_pos (by omega), Nat.add_sub_cancel_left]
  case high => rw [if_neg (by omega), BitVec.getLsbD_zero]

/-- A W1C bit written with 1 is cleared (10_state.md R45). -/
theorem and_not_eq_ite (a b : Bool) : (a && !b) = if b then false else a := by
  cases b <;> simp

/-- A STATUS write acknowledges W1C bits at all times. -/
theorem storesTo_status (s : State) (w : Word32) : storesTo s 0x000C#16 w (s.acknowledge w) :=
  storesTo_free_register (l := .status) w (by decide) rfl rfl rfl

theorem reads_status (s : State) : reads s 0x000C#16 s.statusWord :=
  reads_register (l := .status) (by decide) rfl rfl rfl

/-! ### The lengths -/

theorem setWidth_eq_ofNat (v : BitVec 16) : v.setWidth 32 = BitVec.ofNat 32 v.toNat :=
  (BitVec.ofNat_toNat 32 v).symm

theorem extractLsb'_zero_eq_setWidth (w : Word32) : w.extractLsb' 0 16 = w.setWidth 16 :=
  BitVec.eq_of_toNat_eq (by simp)

/-! ### The interlock -/

/-- A busy core drops a write of an operand word with ACCERR (20_memory.md R82). -/
theorem storesTo_operandWord (hs : s.busy = true) (w : Word32) (h : operandWord s.msgCap.bytes off.toNat) :
    storesTo s off w { s with accerr := true } :=
  State.hostWrite_of_busy w hs (locate_operandWord h) ▸ storesTo_of_locate w h.1 rfl

/-- A busy core reads 0 from a window (20_memory.md R82). -/
theorem reads_windowWord (hs : s.busy = true) (h : windowWord s.msgCap.bytes off.toNat) : reads s off 0#32 := by
  have hzero : s.hostRead (locate s.msgCap.bytes off.toNat) = 0#32 := by
    simp [State.hostRead, hs, locate_windowWord h]
  exact hzero ▸ reads_of_locate h.1 rfl

/-- CTRL is written at all times (10_state.md R43). -/
theorem storesTo_ctrl (s : State) (w : Word32) : storesTo s 0x0008#16 w (s.writeCtrl w) :=
  storesTo_free_register (l := .ctrl) w (by decide) rfl rfl rfl

end Sys2Proof.Machine

namespace Sys2Proof.Proofs

open Sys2Proof.Machine

/-- Settles O26: a reserved word has no location in any window, so neither BUSY nor the interlock matters. -/
theorem reservedWordsReadZero : Obligations.ReservedWordsReadZero := fun _ _ w h =>
  ⟨reads_reservedWord h, storesTo_reservedWord w h⟩

/-- Settles O27: the interlock covers the operand words and the windows, and no control register it reads. -/
theorem busyInterlock : Obligations.BusyInterlock := by
  intro s off w hs
  refine ⟨storesTo_operandWord hs w, reads_windowWord hs, reads_register (l := .id) (by decide) rfl rfl rfl,
    reads_register (l := .cap) (by decide) rfl rfl rfl, reads_register (l := .ctrl) (by decide) rfl rfl rfl,
    reads_status s, reads_register (l := .cmd) (by decide) rfl rfl rfl,
    storesTo_free_register (l := .id) w (by decide) rfl rfl rfl,
    storesTo_free_register (l := .cap) w (by decide) rfl rfl rfl, fun hw => ?enables, fun hw => ?reset,
    storesTo_status s w⟩
  case enables => exact State.writeCtrl_of_clear hw ▸ storesTo_ctrl s w
  case reset => exact ⟨s.restart, storesTo_softReset s hw, s.atReset_restart, s.restart_inputs⟩

/-- Settles O21: STATUS bit by bit, a write of it as an acknowledgement, and the lengths as registers that an idle
core stores. -/
theorem statusAndLengthRegisters : Obligations.StatusAndLengthRegisters := by
  refine ⟨fun s w => ⟨⟨s.statusWord, reads_status s, ?bits⟩, ?acknowledge⟩,
    fun s w => ⟨?readCtx, ?readMsg, fun hs => ⟨?writeCtx, ?writeMsg⟩⟩⟩
  case bits =>
    refine ⟨?_, ?_, ?_, ?_, ?_, ?_, s.statusWord_fields⟩ <;> rw [State.getLsbD_statusWord] <;> rfl
  case acknowledge =>
    exact ⟨s.acknowledge w, storesTo_status s w, and_not_eq_ite _ _, and_not_eq_ite _ _, and_not_eq_ite _ _, rfl⟩
  case readCtx => exact setWidth_eq_ofNat s.ctxLen ▸ reads_register (l := .ctxLen) (by decide) rfl rfl rfl
  case readMsg => exact setWidth_eq_ofNat s.msgLen ▸ reads_register (l := .msgLen) (by decide) rfl rfl rfl
  case writeCtx =>
    rw [extractLsb'_zero_eq_setWidth]
    exact storesTo_of_idle (l := .ctxLen) w hs rfl rfl
  case writeMsg =>
    rw [extractLsb'_zero_eq_setWidth]
    exact storesTo_of_idle (l := .msgLen) w hs rfl rfl

end Sys2Proof.Proofs

/-! PROOFS. One step of the machine (40_control.md R130, 70_reset_and_hazards.md R340 to R349): what the controller
and an event of the schedule can do, one argument for everything that a step keeps, and the statements on the
lifecycle, on reset, and on what holds along every run. -/

namespace Sys2Proof.Machine

variable {s t : State}

/-! ### The controller -/

/-- What a busy core's controller does: it completes with results, or with an error that writes nothing else
(40_control.md R130). -/
theorem State.controllerStep_cases (hs : s.busy = true) :
    (∃ e, s.controllerStep = .next (s.completeErr e)) ∨
      ∃ r, Results s r ∧ s.controllerStep = .next r.complete := by
  cases hdecode : decode s.cmd with
  | error e => exact .inl ⟨_, State.controllerStep_of_decode_error hs hdecode⟩
  | ok i =>
    rw [State.controllerStep_of_decode_ok hs hdecode]
    exact (exec_cases i s).imp (fun ⟨e, _, he⟩ => ⟨e, he⟩) id

/-- An idle core's controller does nothing. -/
theorem State.controllerStep_of_idle (hs : s.busy = false) : s.controllerStep = .next s := by
  simp [State.controllerStep, hs]

/-- The controller keeps whatever an error and the results of a command keep. -/
theorem State.controllerStep_keeps {P : State → Prop} (herr : ∀ e, P s → P (s.completeErr e))
    (hresults : ∀ r, Results s r → P s → P r.complete) (hP : P s) (h : s.controllerStep = .next t) : P t := by
  cases hs : s.busy with
  | false =>
    obtain rfl : s = t := Host.Outcome.next.inj ((State.controllerStep_of_idle hs).symm.trans h)
    exact hP
  | true =>
    rcases State.controllerStep_cases hs with ⟨e, he⟩ | ⟨r, hr, he⟩
    · obtain rfl : s.completeErr e = t := Host.Outcome.next.inj (he.symm.trans h)
      exact herr e hP
    · obtain rfl : r.complete = t := Host.Outcome.next.inj (he.symm.trans h)
      exact hresults r hr hP

/-- A busy core completes with CMD kept, whatever the word (70_reset_and_hazards.md R349). -/
theorem State.controllerStep_completes (hs : s.busy = true) :
    ∃ t, s.controllerStep = .next t ∧ t.done = true ∧ t.busy = false ∧ t.cmd = s.cmd := by
  rcases State.controllerStep_cases hs with ⟨e, he⟩ | ⟨r, hr, he⟩
  · exact ⟨_, he, rfl, rfl, rfl⟩
  · exact ⟨_, he, rfl, rfl, hr.cmd⟩

theorem State.controllerStep_next (s : State) : ∃ t, s.controllerStep = .next t := by
  cases hs : s.busy with
  | false => exact ⟨s, State.controllerStep_of_idle hs⟩
  | true =>
    obtain ⟨t, ht, _⟩ := State.controllerStep_completes hs
    exact ⟨t, ht⟩

/-! ### Events -/

/-- An access in the step of a completion is performed entirely before or entirely after it
(20_memory.md R84). -/
theorem State.completeWith_cases (s : State) (a : HostAccess) :
    s.completeWith a = (s.hostAccess a).controllerStep ∨
      ∃ u, s.controllerStep = .next u ∧ s.completeWith a = .next (u.hostAccess a) := by
  unfold State.completeWith
  split
  · exact .inl rfl
  · obtain ⟨u, hu⟩ := s.controllerStep_next
    exact .inr ⟨u, hu, by rw [hu]⟩

/-- The table build shown early is Precompute(), or nothing (20_memory.md R87). -/
theorem State.buildEarly_cases (s : State) : s.buildEarly = s.precompute ∨ s.buildEarly = s := by
  unfold State.buildEarly
  split
  · exact .inl rfl
  · exact .inr rfl

theorem State.perform_next (s : State) (e : Input) : ∃ t, s.perform e = .next t := by
  cases e with
  | rst => exact ⟨_, rfl⟩
  | host a => exact ⟨_, rfl⟩
  | controller => exact s.controllerStep_next
  | tableBuild => exact ⟨_, rfl⟩
  | completionAndHost a =>
    rcases s.completeWith_cases a with he | ⟨u, _, he⟩
    · obtain ⟨t, ht⟩ := (s.hostAccess a).controllerStep_next
      exact ⟨t, he.trans ht⟩
    · exact ⟨_, he⟩

/-- A step is the controller's or an event's. -/
theorem step_of_empty (h : s.inputs = []) : step s = s.controllerStep := by
  simp only [step, h]

theorem step_of_event {e : Input} {rest : List Input} (h : s.inputs = e :: rest) :
    step s = State.perform { s with inputs := rest } e := by
  simp only [step, h]

theorem safeStep_always (s : State) : safeStep s := by
  unfold safeStep
  cases h : s.inputs with
  | nil => exact step_of_empty h ▸ s.controllerStep_next
  | cons e rest => exact step_of_event h ▸ State.perform_next _ e

/-! ### What a step keeps -/

/-- What the parts of a step keep of a state, up to the accesses that `allowed` leaves out: the schedule does not
matter, and commands, the table build and the allowed accesses keep it. -/
structure KeptByParts (allowed : HostAccess → Prop) (P : State → Prop) : Prop where
  inputs : ∀ (s : State) (rest : List Input), P s → P { s with inputs := rest }
  completeErr : ∀ (s : State) (e : ErrCode), P s → P (s.completeErr e)
  results : ∀ s r : State, Results s r → P s → P r.complete
  build : ∀ s : State, P s → P s.precompute
  access : ∀ (s : State) (a : HostAccess), allowed a → P s → P (s.hostAccess a)

variable {allowed : HostAccess → Prop} {P : State → Prop}

theorem KeptByParts.controllerStep (h : KeptByParts allowed P) (hP : P s) (hnext : s.controllerStep = .next t) :
    P t :=
  State.controllerStep_keeps (h.completeErr s) (h.results s) hP hnext

theorem KeptByParts.completeWith (h : KeptByParts allowed P) {a : HostAccess} (ha : allowed a) (hP : P s)
    (hnext : s.completeWith a = .next t) : P t := by
  rcases s.completeWith_cases a with he | ⟨u, hu, he⟩
  · exact h.controllerStep (h.access s a ha hP) (he.symm.trans hnext)
  · obtain rfl : u.hostAccess a = t := Host.Outcome.next.inj (he.symm.trans hnext)
    exact h.access u a ha (h.controllerStep hP hu)

theorem KeptByParts.buildEarly (h : KeptByParts allowed P) (hP : P s) : P s.buildEarly := by
  rcases s.buildEarly_cases with he | he <;> rw [he]
  · exact h.build s hP
  · exact hP

/-- An event other than RST, with an allowed access if it carries one, keeps what the parts keep. -/
theorem KeptByParts.perform (h : KeptByParts allowed P) {e : Input} (hrst : e ≠ .rst)
    (ha : ∀ a, e.access = some a → allowed a) (hP : P s) (hnext : s.perform e = .next t) : P t := by
  cases e with
  | rst => exact absurd rfl hrst
  | host a =>
    obtain rfl : s.hostAccess a = t := Host.Outcome.next.inj hnext
    exact h.access s a (ha a rfl) hP
  | controller => exact h.controllerStep hP hnext
  | tableBuild =>
    obtain rfl : s.buildEarly = t := Host.Outcome.next.inj hnext
    exact h.buildEarly hP
  | completionAndHost a => exact h.completeWith (ha a rfl) hP hnext

/-- A step keeps what its parts keep, or its event is RST or carries an access that is left out. -/
theorem KeptByParts.step (h : KeptByParts allowed P) (hP : P s) (hnext : step s = .next t) :
    P t ∨ ∃ e rest, s.inputs = e :: rest ∧ (e = .rst ∨ ∃ a, e.access = some a ∧ ¬ allowed a) := by
  cases hin : s.inputs with
  | nil => exact .inl (h.controllerStep hP (step_of_empty hin ▸ hnext))
  | cons e rest =>
    by_cases hevent : e = .rst ∨ ∃ a, e.access = some a ∧ ¬ allowed a
    case pos => exact .inr ⟨e, rest, rfl, hevent⟩
    case neg =>
      rw [not_or, not_exists] at hevent
      obtain ⟨hrst, hacc⟩ := hevent
      refine .inl (h.perform hrst (fun a ha => by_contra fun hn => hacc a ⟨ha, hn⟩) (h.inputs s rest hP) ?_)
      exact step_of_event hin ▸ hnext

/-! ### ZDIV and the tables -/

/-- Only a soft reset and a write of 1 to STATUS bit 5 clear ZDIV (10_state.md R49). -/
theorem State.hostAccess_zdiv {a : HostAccess} (hsoft : ¬ softReset a) (hclear : ¬ clearsBit 5 a)
    (hz : s.zdiv = true) : (s.hostAccess a).zdiv = true := by
  cases a with
  | read width off =>
    simp only [State.hostAccess]
    split <;> exact hz
  | write width off w =>
    simp only [State.hostAccess]
    split
    case isFalse => exact hz
    case isTrue hl =>
      simp only [legalAccess, Bool.and_eq_true, decide_eq_true_eq] at hl
      obtain ⟨rfl, _⟩ := hl
      unfold State.hostWrite
      split
      case isTrue => exact hz
      case isFalse =>
        cases hloc : s.locate off with
        | status =>
          have hoff : off = 0x000C#16 := BitVec.eq_of_toNat_eq (locate_status hloc)
          have hbit : w.getLsbD 5 ≠ true := fun hb => hclear ⟨rfl, hoff, hb⟩
          change (s.acknowledge w).zdiv = true
          rw [State.acknowledge_zdiv, hz, eq_false_of_ne_true hbit]
          rfl
        | ctrl =>
          have hoff : off = 0x0008#16 := BitVec.eq_of_toNat_eq (locate_ctrl hloc)
          have hbit : w.getLsbD 31 ≠ true := fun hb => hsoft ⟨rfl, hoff, hb⟩
          simp only [State.storeWord, State.writeCtrl_of_clear (eq_false_of_ne_true hbit)]
          exact hz
        | _ => exact hz

/-- ZDIV is sticky but for the two ways that 10_state.md R49 names. -/
theorem zdiv_keptByParts : KeptByParts (fun a => ¬ softReset a ∧ ¬ clearsBit 5 a) (fun s => s.zdiv = true) where
  inputs _ _ := id
  completeErr _ _ := id
  results _ _ hr := hr.zdiv
  build s hz := by simpa using hz
  access _ _ ha := State.hostAccess_zdiv ha.1 ha.2

/-- The results of a command leave built tables as they are (10_state.md R50). -/
theorem Results.tables_of_built {r : State} (h : Results s r) (htblv : s.tblv = true) :
    r.tblv = true ∧ r.btab = s.btab ∧ r.ctab = s.ctab := by
  rcases h.tables with ⟨h1, h2, h3⟩ | ⟨h1, h2, h3⟩
  · exact ⟨h1.trans htblv, h2, h3⟩
  · rw [s.precompute_of_tblv htblv] at h1 h2 h3
    exact ⟨h1.trans htblv, h2, h3⟩

/-- An access other than a soft reset keeps TBLV and the tables. -/
theorem State.hostAccess_tables {a : HostAccess} (hsoft : ¬ softReset a) :
    (s.hostAccess a).tblv = s.tblv ∧ (s.hostAccess a).btab = s.btab ∧ (s.hostAccess a).ctab = s.ctab := by
  rcases s.hostAccess_cases a with h | ⟨h, _⟩
  · exact ⟨h.tblv, h.btab, h.ctab⟩
  · exact absurd h hsoft

/-- Built tables stay as they are without a reset (10_state.md R50, 20_memory.md R89). -/
theorem tables_keptByParts (bt : Vector PointReg 32) (ct : Vector (Vector AffineReg 16) 5) :
    KeptByParts (fun a => ¬ softReset a) (fun s => s.tblv = true ∧ s.btab = bt ∧ s.ctab = ct) where
  inputs _ _ := id
  completeErr _ _ := id
  results s r hr := by
    rintro ⟨htblv, rfl, rfl⟩
    exact hr.tables_of_built htblv
  build s h := by rwa [s.precompute_of_tblv h.1]
  access s a ha h := by
    obtain ⟨h1, h2, h3⟩ := s.hostAccess_tables ha
    rwa [h1, h2, h3]

/-! ### The invariant -/

theorem State.buffersWf_iff (s : State) :
    s.buffersWf = true ↔ s.msgbuf.wf = true ∧ s.msgbuf.below s.msgCap.bytes = true ∧
      s.ctxbuf.wf = true ∧ s.ctxbuf.below 256 = true := by
  simp only [State.buffersWf, Bool.and_eq_true, and_assoc]

/-- Commands keep the buffers in good order: they keep them, or ZEROIZE empties them (10_state.md R58). -/
theorem Results.buffersWf {r : State} (h : Results s r) (hwf : s.buffersWf = true) : r.buffersWf = true := by
  rw [State.buffersWf_iff] at hwf ⊢
  rcases h.buffers with ⟨hmsg, hctx, _⟩ | ⟨hmsg, hctx, _⟩
  · rwa [hmsg, hctx, h.msgCap]
  · rw [hmsg, hctx]
    exact ⟨rfl, rfl, rfl, rfl⟩

theorem State.tablesWf_precompute (h : s.tablesWf) : s.precompute.tablesWf := by
  intro _
  rcases s.precompute_cases with ⟨htblv, he⟩ | ⟨_, he⟩ <;> rw [he]
  · exact h htblv
  · exact ⟨rfl, rfl⟩

/-- Commands keep the tables as Precompute() builds them (44_scalar_mult.md R230). -/
theorem Results.tablesWf {r : State} (h : Results s r) (hwf : s.tablesWf) : r.tablesWf := by
  intro htblv
  rcases h.tables with ⟨h1, h2, h3⟩ | ⟨_, h2, h3⟩ <;> rw [h2, h3]
  · exact hwf (h1.symm.trans htblv)
  · exact State.tablesWf_precompute hwf s.precompute_tblv

/-- A completed core is idle, so the lifecycle asks nothing of it. -/
theorem State.lifecycleWf_of_idle (h : s.busy = false) : s.lifecycleWf := fun hb => by simp [h] at hb

theorem State.inv_resetOf (cap : MsgCap) : (State.resetOf cap).Inv where
  buffers := rfl
  tables := nofun
  lifecycle := nofun

/-- The invariant does not depend on the schedule or the port's answer. -/
theorem State.Inv.withEnvironment (h : s.Inv) (rest : List Input) (r : HostResponse) :
    State.Inv { s with inputs := rest, resp := r } :=
  ⟨h.buffers, h.tables, h.lifecycle⟩

theorem State.inv_restart (s : State) : s.restart.Inv := (State.inv_resetOf s.msgCap).withEnvironment s.inputs .none

/-- A command that was not running before an access runs with DONE and ERR cleared; one that was running keeps
them so (40_control.md R130, 20_memory.md R82). -/
theorem AccessResult.lifecycleWf (h : AccessResult s t) (hwf : s.lifecycleWf) : t.lifecycleWf := by
  intro hbusy
  cases hs : s.busy with
  | false => exact h.accepted hs hbusy
  | true =>
    obtain ⟨hdone, herr⟩ := hwf hs
    obtain ⟨_, _, _, _, _, _, _, _, _, herr'⟩ := h.held hs
    exact ⟨eq_false_of_ne_true fun hd => by simp [h.done hd] at hdone, herr'.trans herr⟩

theorem State.Inv.hostAccess (h : s.Inv) (a : HostAccess) : (s.hostAccess a).Inv := by
  have hbuf := s.hostAccess_buffersWf a h.buffers
  rcases s.hostAccess_cases a with hacc | ⟨_, he⟩
  case inl =>
    refine ⟨hbuf, fun htblv => ?_, hacc.lifecycleWf h.lifecycle⟩
    rw [hacc.btab, hacc.ctab]
    exact h.tables (hacc.tblv.symm.trans htblv)
  case inr =>
    rw [he]
    exact s.inv_restart.withEnvironment s.inputs .done

/-- Every part of a step keeps the invariant. -/
theorem inv_keptByParts : KeptByParts (fun _ => True) State.Inv where
  inputs s rest h := h.withEnvironment rest s.resp
  completeErr s e h := ⟨h.buffers, h.tables, State.lifecycleWf_of_idle rfl⟩
  results s r hr h := ⟨hr.buffersWf h.buffers, hr.tablesWf h.tables, State.lifecycleWf_of_idle rfl⟩
  build s h := by
    refine ⟨?_, State.tablesWf_precompute h.tables, ?_⟩
    · simpa [State.buffersWf_iff] using (State.buffersWf_iff s).mp h.buffers
    · simpa [State.lifecycleWf] using h.lifecycle
  access s a _ h := h.hostAccess a

/-! ### Latched words -/

/-- `withFetchWord` accepts the word with nothing scheduled (log 3). -/
theorem State.withFetchWord_fields (s : State) (w : Nat) :
    (s.withFetchWord 32 w).inputs = [] ∧ (s.withFetchWord 32 w).busy = true ∧
      (s.withFetchWord 32 w).cmd = BitVec.ofNat 32 (w % 2 ^ 32) := ⟨rfl, rfl, rfl⟩

theorem decode_of_decodeTableWord {w : Nat} {i : Instr} (h : decodeTableWord 32 w = some i) :
    decode (BitVec.ofNat 32 (w % 2 ^ 32)) = .ok i := by
  rw [decodeTableWord, if_pos le_rfl] at h
  split at h
  case h_1 j hj => rw [hj, Option.some.inj h]
  case h_2 => cases h

end Sys2Proof.Machine

namespace Sys2Proof.Proofs

open Sys2Proof.Machine

/-- Settles O18: each part of a step keeps the invariant, and RST leaves the reset state. -/
theorem everyStepKeepsTheInvariant : Obligations.EveryStepKeepsTheInvariant := by
  intro s t hinv hstep
  rcases inv_keptByParts.step hinv hstep with h | ⟨e, rest, hin, rfl | ⟨a, _, ha⟩⟩
  · exact h
  · obtain rfl := Host.Outcome.next.inj ((step_rst hin).symm.trans hstep)
    exact State.inv_restart _
  · exact absurd trivial ha

/-- Settles O7: a busy core's controller completes, and every event answers a next state. -/
theorem everyCommandCompletes : Obligations.EveryCommandCompletes :=
  ⟨fun _ => State.controllerStep_completes, safeStep_always⟩

/-- Settles O11: every part of a step keeps ZDIV, up to the two accesses that clear it. -/
theorem zeroInversionFlagIsSticky : Obligations.ZeroInversionFlagIsSticky := by
  intro s t hz hstep hclear
  rcases zdiv_keptByParts.step hz hstep with h | ⟨e, rest, hin, hrst | ⟨a, hacc, ha⟩⟩
  · simp [hclear] at h
  · exact ⟨e, rest, hin, .inl (.inl hrst)⟩
  · rcases or_iff_not_and_not.mpr ha with hsoft | hbit
    · exact ⟨e, rest, hin, .inl (.inr ⟨a, hacc, hsoft⟩)⟩
    · exact ⟨e, rest, hin, .inr ⟨a, hacc, hbit⟩⟩

/-- Settles O12: every part of a step keeps built tables, up to the soft reset. -/
theorem tableStateIsOneWay : Obligations.TableStateIsOneWay := by
  intro s t htblv hstep
  rcases (tables_keptByParts s.btab s.ctab).step ⟨htblv, rfl, rfl⟩ hstep with h | ⟨e, rest, hin, hrst | ⟨a, hacc, ha⟩⟩
  · exact .inl h
  · exact .inr ⟨e, rest, hin, .inl hrst⟩
  · exact .inr ⟨e, rest, hin, .inr ⟨a, hacc, not_not.mp ha⟩⟩

/-- Settles O5: the three cases of a step, and the latched word as the CMD of a busy core. -/
theorem stepRunsTheDecodedCommand : Obligations.StepRunsTheDecodedCommand := by
  refine ⟨fun s i hin hs hdecode => ?command, fun s e hin hs hdecode => ?error, fun s hin hs => ?idle,
    fun s a rest hin => step_of_event hin, fun s w i hw => ?word⟩
  case command => exact (step_of_empty hin).trans (State.controllerStep_of_decode_ok hs hdecode)
  case error => exact (step_of_empty hin).trans (State.controllerStep_of_decode_error hs hdecode)
  case idle => exact (step_of_empty hin).trans (State.controllerStep_of_idle hs)
  case word =>
    obtain ⟨hin, hs, hcmd⟩ := s.withFetchWord_fields w
    exact (step_of_empty hin).trans
      (State.controllerStep_of_decode_ok hs (hcmd ▸ decode_of_decodeTableWord hw))

/-- Settles O17: the reset state has empty buffers, no tables and no running command. -/
theorem invariantHoldsAfterReset : Obligations.InvariantHoldsAfterReset := State.inv_resetOf

/-- Settles O15: field by field, for every capacity. -/
theorem resetValues : Obligations.ResetValues := by
  intro cap
  refine ⟨_, rfl, ?field, ?point, ?string, ?digits, fun _ => rfl, fun _ => rfl, rfl, State.capWord_eq _,
    State.ctrlWord_resetOf cap, ?status, rfl, rfl, rfl, rfl, rfl, rfl⟩
  case field => simp [State.getF, State.resetOf]
  case point => simp [State.getP, State.resetOf]
  case string => simp [State.getS, State.resetOf]
  case digits => simp [State.getW, State.resetOf]
  case status => simp [State.statusWord, State.resetOf, ErrCode.code]

end Sys2Proof.Proofs

/-! PROOFS. What a command writes and what it reads (10_state.md R58, 20_memory.md R86, 70_reset_and_hazards.md R344):
the frame of every command, the part of the state that only the host and the flags concern, the tables as every
command sees them, and the four statements on these. -/

namespace Sys2Proof.Machine

variable {s t : State}

/-! ### Endings by the checks of a command -/

theorem exec_wnaf_of_illegalWidth {width : Fin 16} (hw : legalWidth width = false) (d : WReg) (a : SReg)
    (s : State) : exec (.wnaf d a width) s = .next (errorOf .enc s) := by
  change execWnaf d a width s = _
  rw [execWnaf, hw, if_pos (by decide), errorOf_eq]

/-- A result of the multipliers in PR[d]: normalised, with ZDIV set for Z ≡ 0 (44_scalar_mult.md R247). -/
def State.putNormalized (s : State) (d : PReg) (r : Pt) : State := (s.setP d (norm r).reg).orZDIV r.zeroZ

/-- A result of the comb in FR[dx] and FR[dy]: its affine coordinates (44_scalar_mult.md R246). -/
def State.putAffine (s : State) (dx dy : FReg) (r : Pt) : State :=
  ((s.setF dx (elemOf (norm r).x)).setF dy (elemOf (norm r).y)).orZDIV r.zeroZ

/-- A result of the comb in SR[d]: its encoding (45_protocol.md R274). -/
def State.putEncoded (s : State) (d : SReg) (r : Pt) : State := (s.setS d (enc r)).orZDIV r.zeroZ

/-- A signature in SR[dR] and SR[dS], written in this order (45_protocol.md R275). -/
def State.putSignature (s : State) (dR dS : SReg) (g : Signature) : State :=
  ((s.setS dR g.r).setS dS g.t).orZDIV g.zdiv

/-- CF written and ZDIV set. -/
def State.putFlags (s : State) (cf zdiv : Bool) : State := (s.setCF cf).orZDIV zdiv

/-- What VERIFY writes past its early checks: CF by the comparison of R, ZDIV by the encoding
(45_protocol.md R276). -/
def State.putVerdict (s : State) (e : Str57) (q : Pt) : State := s.putFlags (decide (enc q = e)) q.zeroZ

/-- The early checks of VERIFY: R, S and the public key are well formed (45_protocol.md R276). -/
def State.passesEarlyChecks (s : State) (r t pk : SReg) : Prop :=
  chkpt (s.getS r) = true ∧ schk (s.getS t) = true ∧ (decpt (s.getS pk) true).isSome = true

theorem State.verified_of_rejected {r t pk : SReg} {ph : Bool} (h : ¬ s.passesEarlyChecks r t pk) :
    s.verified r t pk ph = s.setCF false := by
  unfold State.verified
  split
  case isTrue => rfl
  case isFalse hr =>
    split
    case isTrue => rfl
    case isFalse ht =>
      split
      case h_1 => rfl
      case h_2 A hA => exact absurd ⟨by simpa using hr, by simpa using ht, by simp [hA]⟩ h

theorem State.verified_of_accepted {r t pk : SReg} {ph : Bool} {A : Pt} (h : s.passesEarlyChecks r t pk)
    (hA : decpt (s.getS pk) true = some A) :
    s.verified r t pk ph = s.precompute.putVerdict (s.getS r)
      (straus s.precompute.btab (s.sval t) (sdec (s.challenge ph (s.getS r) (s.getS pk))) A) := by
  obtain ⟨hr, ht, _⟩ := h
  simp only [State.verified, hr, ht, hA, Bool.not_true, Bool.false_eq_true, if_false]
  rfl

theorem exec_smulb (d : PReg) {a : SReg} {k : Nat} (hk : s.sval a = k) :
    exec (.smulb d a) s = .next (s.precompute.putNormalized d (s.precompute.comb k)).complete := by
  subst hk
  rfl

theorem exec_keygen (d : SReg) {a : SReg} {e : Str57} (he : s.getS a = e) :
    exec (.keygen d a) s = .next (s.precompute.putEncoded d (s.precompute.comb (sdec (expand e).1))).complete := by
  subst he
  rfl

/-- SMULSV past its check, over the two scalars and the point it reads (44_scalar_mult.md R245). -/
theorem exec_smulsv_of_inRange (d : PReg) {nb np : SReg} {q : PReg} {n m : Nat} {P : Pt}
    (hn : s.sval nb = n) (hm : s.sval np = m) (hP : s.pval q = P)
    (h : ¬ (Config.scalarRange ≤ n ∨ Config.scalarRange ≤ m)) :
    exec (.smulsv d nb np q) s =
      .next (s.precompute.putNormalized d (straus s.precompute.btab n m P)).complete := by
  subst hn hm hP
  exact if_neg h

/-- SMULBXY with distinct destinations, over the string it reads and prunes (44_scalar_mult.md R246). -/
theorem exec_smulbxy_of_ne {dx dy : FReg} (hd : dx ≠ dy) {a : SReg} {e : Str57} (he : s.getS a = e) :
    exec (.smulbxy dx dy a) s =
      .next (s.precompute.putAffine dx dy (s.precompute.comb (sdec (sprune e)))).complete := by
  subst he
  exact if_neg hd

theorem exec_smulbxy_of_eq (d : FReg) (a : SReg) (s : State) :
    exec (.smulbxy d d a) s = .next (errorOf .enc s) := if_pos rfl

/-- Equal destinations have no legal word (30_encoding.md R106). -/
theorem exec_sign_of_eq (d sk : SReg) (pk : Option SReg) (ph : Bool) (s : State) :
    exec (.sign d d sk pk ph) s = .next (errorOf .enc s) := if_pos rfl

theorem exec_xofh_of_eq (d : SReg) (s : State) : exec (.xofh d d) s = .next (errorOf .enc s) := if_pos rfl

theorem changesOnly.putNormalized {w : Writes} (h : changesOnly w s t) {d : PReg} (hd : d ∈ w.pr)
    (hz : w.zdiv = true) (r : Pt) : changesOnly w s (t.putNormalized d r) :=
  (h.setP hd _).orZDIV hz _

theorem changesOnly.putAffine {w : Writes} (h : changesOnly w s t) {dx dy : FReg} (hx : dx ∈ w.fr) (hy : dy ∈ w.fr)
    (hz : w.zdiv = true) (r : Pt) : changesOnly w s (t.putAffine dx dy r) :=
  ((h.setF hx _).setF hy _).orZDIV hz _

theorem changesOnly.putEncoded {w : Writes} (h : changesOnly w s t) {d : SReg} (hd : d ∈ w.sr)
    (hz : w.zdiv = true) (r : Pt) : changesOnly w s (t.putEncoded d r) :=
  (h.setS hd _).orZDIV hz _

/-! ### Frames -/

/-- A command that answers a next state within a frame. -/
def Frames (w : Writes) (s : State) (o : Host.Outcome State Fault Refusal) : Prop :=
  ∃ t, o = .next t ∧ changesOnly w s t

section Frames

variable {w : Writes}

theorem frames_of_error (w : Writes) {i : Instr} {e : ErrCode} (h : exec i s = .next (errorOf e s)) :
    Frames w s (exec i s) :=
  ⟨_, h, (changesOnly_refl w s).completeErr e⟩

theorem changesOnly_putRoot {d : FReg} (hd : d ∈ w.fr) (hc : w.cf = true) (s : State) (o : Option Nat) :
    changesOnly w s (s.putRoot d o) := by
  cases o with
  | none => exact (changesOnly_refl w s).setCF hc _
  | some x => exact ((changesOnly_refl w s).setF hd _).setCF hc _

theorem changesOnly_putDecoded {d : PReg} (hd : d ∈ w.pr) (hc : w.cf = true) (s : State) (o : Option Pt) :
    changesOnly w s (s.putDecoded d o) := by
  cases o with
  | none => exact (changesOnly_refl w s).setCF hc _
  | some q => exact ((changesOnly_refl w s).setP hd _).setCF hc _

theorem changesOnly_verified (hc : w.cf = true) (hz : w.zdiv = true) (ht : w.tables = true) (s : State)
    (r t pk : SReg) (ph : Bool) : changesOnly w s (s.verified r t pk ph) := by
  by_cases h : s.passesEarlyChecks r t pk
  case neg =>
    rw [State.verified_of_rejected h]
    exact (changesOnly_refl w s).setCF hc _
  case pos =>
    obtain ⟨A, hA⟩ := Option.isSome_iff_exists.mp h.2.2
    rw [State.verified_of_accepted h hA]
    exact ((changesOnly_precompute w s ht).setCF hc _).orZDIV hz _

theorem frames_wnaf (d : WReg) (a : SReg) (width : Fin 16) (s : State) :
    Frames { wb := [d] } s (exec (.wnaf d a width) s) := by
  cases hw : legalWidth width with
  | false => exact frames_of_error _ (exec_wnaf_of_illegalWidth hw d a s)
  | true =>
    rcases Nat.lt_or_ge (s.sval a) Config.scalarRange with hin | hout
    · exact ⟨_, exec_wnaf_of_inRange hw d hin, ((changesOnly_refl _ s).setW (List.mem_singleton_self d) _).complete⟩
    · exact frames_of_error _ (exec_wnaf_of_outOfRange hw d hout)

theorem frames_smulsv (d : PReg) (nb np : SReg) (q : PReg) (s : State) :
    Frames { pr := [d], zdiv := true, tables := true } s (exec (.smulsv d nb np q) s) := by
  by_cases h : Config.scalarRange ≤ s.sval nb ∨ Config.scalarRange ≤ s.sval np
  · exact frames_of_error _ (exec_smulsv_of_outOfRange d q h)
  · exact ⟨_, exec_smulsv_of_inRange d rfl rfl rfl h,
      ((changesOnly_precompute _ s rfl).putNormalized (List.mem_singleton_self d) rfl _).complete⟩

theorem frames_smulbxy (dx dy : FReg) (a : SReg) (s : State) :
    Frames { fr := [dx, dy], zdiv := true, tables := true } s (exec (.smulbxy dx dy a) s) := by
  by_cases hd : dx = dy
  · subst hd
    exact frames_of_error _ (exec_smulbxy_of_eq dx a s)
  · exact ⟨_, exec_smulbxy_of_ne hd rfl,
      ((changesOnly_precompute _ s rfl).putAffine (by simp) (by simp) rfl _).complete⟩

theorem frames_sign (dR dS sk : SReg) (pk : Option SReg) (ph : Bool) (s : State) :
    Frames { sr := [dR, dS], zdiv := true, tables := true } s (exec (.sign dR dS sk pk ph) s) := by
  by_cases hd : dR = dS
  case pos =>
    subst hd
    exact frames_of_error _ (exec_sign_of_eq dR sk pk ph s)
  case neg =>
    rcases s.argumentsPass_or_protocolError ph with hpass | ⟨e, _, he⟩
    · exact ⟨_, exec_sign_of_argumentsPass hd sk pk hpass,
        ((((changesOnly_precompute _ s rfl).setS (by simp) _).setS (by simp) _).orZDIV rfl _).complete⟩
    · exact frames_of_error _ (exec_sign_of_protocolError hd sk pk he)

theorem frames_verify (r t pk : SReg) (ph : Bool) (s : State) :
    Frames { cf := true, zdiv := true, tables := true } s (exec (.verify r t pk ph) s) := by
  rcases s.argumentsPass_or_protocolError ph with hpass | ⟨e, _, he⟩
  · exact ⟨_, exec_verify_of_argumentsPass r t pk hpass, (changesOnly_verified rfl rfl rfl s r t pk ph).complete⟩
  · exact frames_of_error _ (exec_verify_of_protocolError r t pk he)

theorem frames_xofh (lo hi : SReg) (s : State) : Frames { sr := [lo, hi] } s (exec (.xofh lo hi) s) := by
  by_cases hd : lo = hi
  case pos =>
    subst hd
    exact frames_of_error _ (exec_xofh_of_eq lo s)
  case neg =>
    rcases Nat.lt_or_ge s.msgCap.bytes s.msgLen.toNat with hmsg | hfits
    · exact frames_of_error _ (exec_xofh_of_msgLen hd hmsg)
    · exact ⟨_, exec_xofh_of_fits hd hfits, (((changesOnly_refl _ s).setS (by simp) _).setS (by simp) _).complete⟩

/-- The frame of every command but ZEROIZE is its row of the access summary (10_state.md R58). -/
theorem frames_exec {i : Instr} (hi : i ≠ .zeroize) (s : State) : Frames (writesOf i) s (exec i s) := by
  have setF {w : Writes} {d : FReg} (hd : d ∈ w.fr) (v : Elem) := (changesOnly_refl w s).setF hd v
  have setP {w : Writes} {d : PReg} (hd : d ∈ w.pr) (v : PointReg) := (changesOnly_refl w s).setP hd v
  have setS {w : Writes} {d : SReg} (hd : d ∈ w.sr) (v : Str57) := (changesOnly_refl w s).setS hd v
  have setCF {w : Writes} (hc : w.cf = true) (b : Bool) := (changesOnly_refl w s).setCF hc b
  have pre {w : Writes} (ht : w.tables = true) := changesOnly_precompute w s ht
  cases i with
  | nop => exact ⟨_, rfl, (changesOnly_refl _ s).complete⟩
  | zeroize => exact absurd rfl hi
  | fadd d | fsub d | fmul d | fsqr d | fneg d | fnorm d | fmov d | fsel d | fldi d | pget d =>
    exact ⟨_, rfl, (setF (List.mem_singleton_self d) _).complete⟩
  | finv d a => exact ⟨_, rfl, (((changesOnly_refl _ s).orZDIV rfl _).setF (List.mem_singleton_self d) _).complete⟩
  | fsqrtr d u v => exact ⟨_, rfl, (changesOnly_putRoot (List.mem_singleton_self d) rfl s _).complete⟩
  | fisz | schk | pchk => exact ⟨_, rfl, (setCF rfl _).complete⟩
  | sprune d | sred d | scalc d => exact ⟨_, rfl, (setS (List.mem_singleton_self d) _).complete⟩
  | pdbl d | padd d | paddp d | pneg d | pcopy d | psetn d | pext d | pput d =>
    exact ⟨_, rfl, (setP (List.mem_singleton_self d) _).complete⟩
  | penc d a => exact ⟨_, rfl, ((setS (List.mem_singleton_self d) _).orZDIV rfl _).complete⟩
  | pdec d a neg => exact ⟨_, rfl, (changesOnly_putDecoded (List.mem_singleton_self d) rfl s _).complete⟩
  | precomp => exact ⟨_, rfl, (pre rfl).complete⟩
  | plook d e => exact ⟨_, rfl, ((pre rfl).setP (List.mem_singleton_self d) _).complete⟩
  | wnaf d a width => exact frames_wnaf d a width s
  | smulb d a => exact ⟨_, exec_smulb d rfl, ((pre rfl).putNormalized (List.mem_singleton_self d) rfl _).complete⟩
  | smulsv d nb np q => exact frames_smulsv d nb np q s
  | smulbxy dx dy a => exact frames_smulbxy dx dy a s
  | keygen d a => exact ⟨_, exec_keygen d rfl, ((pre rfl).putEncoded (List.mem_singleton_self d) rfl _).complete⟩
  | sign dR dS sk pk ph => exact frames_sign dR dS sk pk ph s
  | verify r t pk ph => exact frames_verify r t pk ph s
  | xofh lo high => exact frames_xofh lo high s

end Frames

/-! ### The tables and the host's part of the state -/

/-- TBLV and the two tables (10_state.md R50 to R52). -/
structure Tables where
  tblv : Bool
  btab : Vector PointReg 32
  ctab : Vector (Vector AffineReg 16) 5

/-- The fields that a host access other than a soft reset can change while a command runs (20_memory.md R82). -/
structure HostPart where
  ieDone : Bool
  ieAccerr : Bool
  done : Bool
  accerr : Bool
  zdiv : Bool
  resp : HostResponse

def State.tables (s : State) : Tables := ⟨s.tblv, s.btab, s.ctab⟩

def State.hostPart (s : State) : HostPart := ⟨s.ieDone, s.ieAccerr, s.done, s.accerr, s.zdiv, s.resp⟩

/-- The state with its tables and its host part replaced. -/
def State.around (s : State) (T : Tables) (h : HostPart) : State :=
  { s with
    tblv := T.tblv, btab := T.btab, ctab := T.ctab
    ieDone := h.ieDone, ieAccerr := h.ieAccerr, done := h.done, accerr := h.accerr, zdiv := h.zdiv, resp := h.resp }

/-- What Precompute() makes of the tables (44_scalar_mult.md R230). -/
def Tables.built (T : Tables) : Tables := if T.tblv then T else ⟨true, buildBtab, buildCtab⟩

theorem State.precompute_around (s : State) (T : Tables) (h : HostPart) :
    (s.around T h).precompute = s.around T.built h := by
  change (if T.tblv = true then _ else _) = s.around (if T.tblv = true then _ else _) h
  split <;> rfl

theorem State.precompute_eq_around (s : State) : s.precompute = s.around s.tables.built s.hostPart :=
  s.precompute_around s.tables s.hostPart

theorem Tables.built_tblv (T : Tables) : T.built.tblv = true := by
  unfold Tables.built
  split
  · assumption
  · rfl

theorem Tables.built_built (T : Tables) : T.built.built = T.built := if_pos T.built_tblv

/-- Tables that are not valid are built anew, whatever they hold (10_state.md R50). -/
theorem Tables.built_of_invalid {T : Tables} (h : T.tblv = false) : T.built = ⟨true, buildBtab, buildCtab⟩ := by
  simp [Tables.built, h]

/-- A command, in a state, that neither reads nor writes tables and host part, but sets DONE and may set ZDIV. -/
def Detached (i : Instr) (s : State) : Prop :=
  ∃ (t : State) (f : Bool → Bool), ∀ T h,
    exec i (s.around T h) = .next (t.around T { h with done := true, zdiv := f h.zdiv })

/-- A command, in a state, that runs Precompute() and then reads the built tables, and else is detached. -/
def OverTables (i : Instr) (s : State) : Prop :=
  ∃ (t : Tables → State) (f : Tables → Bool → Bool), ∀ T h,
    exec i (s.around T h) =
      .next ((t T.built).around T.built { h with done := true, zdiv := f T.built h.zdiv })

section Commands

variable {i : Instr} {g : State → State} {e : ErrCode}

/-- The state `t` that a detached command leaves is read off its run in `s`; `z` is what it sets ZDIV to. -/
theorem detached_of_next (_ : exec i s = .next t) (z : Bool)
    (h : ∀ T h, exec i (s.around T h) = .next (t.around T { h with done := true, zdiv := h.zdiv || z })) :
    Detached i s :=
  ⟨t, (· || z), h⟩

theorem detached_of_quiet (_ : exec i s = .next t)
    (h : ∀ T h, exec i (s.around T h) = .next (t.around T { h with done := true })) : Detached i s :=
  ⟨t, id, h⟩

theorem detached_of_error (h : ∀ T h, exec i (s.around T h) = .next (errorOf e (s.around T h))) : Detached i s :=
  ⟨s.completeErr e, id, h⟩

/-- The results `g` of a command over the tables are those of the state around any tables. -/
theorem overTables_of_results
    (hexec : ∀ T h, exec i (s.around T h) = .next (g (s.around T h).precompute))
    (hg : ∀ T h, g (s.around T h) = (g (s.around T s.hostPart)).around T
      { h with done := true, zdiv := (g (s.around T { s.hostPart with zdiv := h.zdiv })).zdiv }) :
    OverTables i s :=
  ⟨fun T => g (s.around T s.hostPart), fun T z => (g (s.around T { s.hostPart with zdiv := z })).zdiv,
    fun T h => by rw [hexec, State.precompute_around, hg]⟩

end Commands

/-! The results of the multipliers, written around any tables and host part. -/

theorem putNormalized_around (d : PReg) (r : Pt) (s : State) (T : Tables) (h : HostPart) :
    ((s.around T h).putNormalized d r).complete =
      ((s.around T s.hostPart).putNormalized d r).complete.around T
        { h with done := true, zdiv := h.zdiv || r.zeroZ } := rfl

theorem putAffine_around (dx dy : FReg) (r : Pt) (s : State) (T : Tables) (h : HostPart) :
    ((s.around T h).putAffine dx dy r).complete =
      ((s.around T s.hostPart).putAffine dx dy r).complete.around T
        { h with done := true, zdiv := h.zdiv || r.zeroZ } := rfl

theorem putEncoded_around (d : SReg) (r : Pt) (s : State) (T : Tables) (h : HostPart) :
    ((s.around T h).putEncoded d r).complete =
      ((s.around T s.hostPart).putEncoded d r).complete.around T
        { h with done := true, zdiv := h.zdiv || r.zeroZ } := rfl

/-- The signature is a function of the operands and the tables. -/
theorem signature_around (s : State) (sk : SReg) (pk : Option SReg) (ph : Bool) (T : Tables) (h k : HostPart) :
    (s.around T h).signature sk pk ph = (s.around T k).signature sk pk ph := rfl

theorem putSignature_around (dR dS : SReg) (g : Signature) (s : State) (T : Tables) (h : HostPart) :
    ((s.around T h).putSignature dR dS g).complete =
      ((s.around T s.hostPart).putSignature dR dS g).complete.around T
        { h with done := true, zdiv := h.zdiv || g.zdiv } := rfl

theorem putFlags_around (cf z : Bool) (s : State) (T : Tables) (h : HostPart) :
    ((s.around T h).putFlags cf z).complete =
      ((s.around T s.hostPart).putFlags cf z).complete.around T { h with done := true, zdiv := h.zdiv || z } := rfl

theorem putVerdict_around (e : Str57) (q : Pt) (s : State) (T : Tables) (h : HostPart) :
    ((s.around T h).putVerdict e q).complete =
      ((s.around T s.hostPart).putVerdict e q).complete.around T
        { h with done := true, zdiv := h.zdiv || q.zeroZ } :=
  putFlags_around _ _ s T h

theorem detached_wnaf (d : WReg) (a : SReg) (width : Fin 16) (s : State) : Detached (.wnaf d a width) s := by
  cases hw : legalWidth width with
  | false => exact detached_of_error fun _ _ => exec_wnaf_of_illegalWidth hw d a _
  | true =>
    rcases Nat.lt_or_ge (s.sval a) Config.scalarRange with hin | hout
    · exact detached_of_quiet (exec_wnaf_of_inRange hw d hin) fun T h =>
        exec_wnaf_of_inRange (s := s.around T h) hw d hin
    · exact detached_of_error fun T h => exec_wnaf_of_outOfRange (s := s.around T h) hw d hout

theorem detached_xofh (lo hi : SReg) (s : State) : Detached (.xofh lo hi) s := by
  by_cases hd : lo = hi
  case pos =>
    subst hd
    exact detached_of_error fun _ _ => exec_xofh_of_eq lo _
  case neg =>
    rcases Nat.lt_or_ge s.msgCap.bytes s.msgLen.toNat with hmsg | hfits
    · exact detached_of_error fun T h => exec_xofh_of_msgLen (s := s.around T h) hd hmsg
    · exact detached_of_quiet (exec_xofh_of_fits hd hfits) fun T h => exec_xofh_of_fits (s := s.around T h) hd hfits

theorem overTables_smulb (d : PReg) (a : SReg) (s : State) : OverTables (.smulb d a) s :=
  overTables_of_results (g := fun u => (u.putNormalized d (u.comb (s.sval a))).complete)
    (fun T h => exec_smulb (s := s.around T h) (k := s.sval a) d rfl) fun T h => putNormalized_around d _ s T h

theorem overTables_keygen (d a : SReg) (s : State) : OverTables (.keygen d a) s :=
  overTables_of_results (g := fun u => (u.putEncoded d (u.comb (sdec (expand (s.getS a)).1))).complete)
    (fun T h => exec_keygen (s := s.around T h) (e := s.getS a) d rfl) fun T h => putEncoded_around d _ s T h

theorem smulsv_detached_or_overTables (d : PReg) (nb np : SReg) (q : PReg) (s : State) :
    Detached (.smulsv d nb np q) s ∨ OverTables (.smulsv d nb np q) s := by
  by_cases hr : Config.scalarRange ≤ s.sval nb ∨ Config.scalarRange ≤ s.sval np
  · exact .inl (detached_of_error fun T h => exec_smulsv_of_outOfRange (s := s.around T h) d q hr)
  · exact .inr (overTables_of_results
      (g := fun u => (u.putNormalized d (straus u.btab (s.sval nb) (s.sval np) (s.pval q))).complete)
      (fun T h => exec_smulsv_of_inRange (s := s.around T h) (n := s.sval nb) (m := s.sval np) (P := s.pval q) d
        rfl rfl rfl hr) fun T h => putNormalized_around d _ s T h)

theorem smulbxy_detached_or_overTables (dx dy : FReg) (a : SReg) (s : State) :
    Detached (.smulbxy dx dy a) s ∨ OverTables (.smulbxy dx dy a) s := by
  by_cases hd : dx = dy
  case pos =>
    subst hd
    exact .inl (detached_of_error fun _ _ => exec_smulbxy_of_eq dx a _)
  case neg =>
    exact .inr (overTables_of_results
      (g := fun u => (u.putAffine dx dy (u.comb (sdec (sprune (s.getS a))))).complete)
      (fun T h => exec_smulbxy_of_ne (s := s.around T h) (e := s.getS a) hd rfl)
      fun T h => putAffine_around dx dy _ s T h)

theorem sign_detached_or_overTables (dR dS sk : SReg) (pk : Option SReg) (ph : Bool) (s : State) :
    Detached (.sign dR dS sk pk ph) s ∨ OverTables (.sign dR dS sk pk ph) s := by
  by_cases hd : dR = dS
  case pos =>
    subst hd
    exact .inl (detached_of_error fun _ _ => exec_sign_of_eq dR sk pk ph _)
  case neg =>
    rcases s.argumentsPass_or_protocolError ph with hpass | ⟨e, _, he⟩
    · refine .inr (overTables_of_results (g := fun u => (u.putSignature dR dS (u.signature sk pk ph)).complete)
        (fun T h => exec_sign_of_argumentsPass (s := s.around T h) hd sk pk hpass) fun T h => ?_)
      simp only [signature_around s sk pk ph T _ s.hostPart]
      exact putSignature_around dR dS _ s T h
    · exact .inl (detached_of_error fun T h => exec_sign_of_protocolError (s := s.around T h) hd sk pk he)

/-- VERIFY past its argument checks: the early checks read registers alone, and past them the tables are built. -/
theorem verify_detached_or_overTables (r t pk : SReg) (ph : Bool) (s : State) :
    Detached (.verify r t pk ph) s ∨ OverTables (.verify r t pk ph) s := by
  rcases s.argumentsPass_or_protocolError ph with hpass | ⟨e, _, he⟩
  case inr => exact .inl (detached_of_error fun T h => exec_verify_of_protocolError (s := s.around T h) r t pk he)
  case inl =>
    have hexec (T : Tables) (h : HostPart) := exec_verify_of_argumentsPass (s := s.around T h) r t pk hpass
    by_cases hchecks : s.passesEarlyChecks r t pk
    case neg =>
      refine .inl (detached_of_quiet (hexec s.tables s.hostPart) fun T h => (hexec T h).trans ?_)
      rw [State.verified_of_rejected (s := s.around T h) hchecks,
        State.verified_of_rejected (s := s.around s.tables s.hostPart) hchecks]
      rfl
    case pos =>
      obtain ⟨A, hA⟩ := Option.isSome_iff_exists.mp hchecks.2.2
      refine .inr (overTables_of_results (g := fun u => (u.putVerdict (s.getS r)
        (straus u.btab (s.sval t) (sdec (s.challenge ph (s.getS r) (s.getS pk))) A)).complete)
        (fun T h => (hexec T h).trans ?_) fun T h => putVerdict_around _ _ s T h)
      rw [State.verified_of_accepted (s := s.around T h) hchecks hA]
      rfl

/-- Every command, in every state, reads no tables, or builds them before it reads them; and it reads nothing of the
host part (44_scalar_mult.md R230, 20_memory.md R86). -/
theorem detached_or_overTables (i : Instr) (s : State) : Detached i s ∨ OverTables i s := by
  cases i with
  | finv d a => exact .inl (detached_of_next rfl (invertsZero (s.fval a)) fun _ _ => rfl)
  | penc d a => exact .inl (detached_of_next rfl (s.pval a).zeroZ fun _ _ => rfl)
  | precomp => exact .inr (overTables_of_results (g := State.complete) (fun _ _ => rfl) fun _ _ => rfl)
  | plook d e =>
    exact .inr (overTables_of_results (g := fun u => (u.setP d (u.tableEntry e)).complete) (fun _ _ => rfl)
      fun _ _ => by cases e <;> rfl)
  | wnaf d a width => exact .inl (detached_wnaf d a width s)
  | smulb d a => exact .inr (overTables_smulb d a s)
  | smulsv d nb np q => exact smulsv_detached_or_overTables d nb np q s
  | smulbxy dx dy a => exact smulbxy_detached_or_overTables dx dy a s
  | keygen d a => exact .inr (overTables_keygen d a s)
  | sign dR dS sk pk ph => exact sign_detached_or_overTables dR dS sk pk ph s
  | verify r t pk ph => exact verify_detached_or_overTables r t pk ph s
  | xofh lo high => exact .inl (detached_xofh lo high s)
  | fsqrtr d u v =>
    have hquiet (o : Option Nat) (T : Tables) (h : HostPart) :
        ((s.around T h).putRoot d o).complete = (s.putRoot d o).complete.around T { h with done := true } := by
      cases o <;> rfl
    exact .inl (detached_of_quiet rfl fun T h => congrArg Host.Outcome.next (hquiet _ T h))
  | pdec d a neg =>
    have hquiet (o : Option Pt) (T : Tables) (h : HostPart) :
        ((s.around T h).putDecoded d o).complete = (s.putDecoded d o).complete.around T { h with done := true } := by
      cases o <;> rfl
    exact .inl (detached_of_quiet rfl fun T h => congrArg Host.Outcome.next (hquiet _ T h))
  | _ => exact .inl (detached_of_quiet rfl fun _ _ => rfl)

end Sys2Proof.Machine

/-! PROOFS. What a running command does not see (20_memory.md R84, R86, 60_exceptions.md R303,
70_reset_and_hazards.md R344, R348): the host's accesses, the access of its last step, and the state of the tables. -/

namespace Sys2Proof.Machine

variable {s t : State}

/-! ### Host accesses beside a command -/

/-- An access of a busy core that is no soft reset changes its host part alone (20_memory.md R82, R86). -/
theorem AccessResult.eq_around (h : AccessResult s t) (hs : s.busy = true) : t = s.around s.tables t.hostPart := by
  obtain ⟨hfr, hpr, hsr, hmsg, hctx, hctxLen, hmsgLen, hcmd, hbusy, herr⟩ := h.held hs
  obtain ⟨hcap, hin, hwb, hcf, htblv, hbtab, hctab, _⟩ := h
  cases t
  simp only at *
  subst_vars
  simp [State.around, State.tables, State.hostPart, hs]

theorem State.foldl_hostAccess_of_busy (hs : s.busy = true) {l : List HostAccess} (hl : ∀ a ∈ l, ¬ softReset a) :
    ∃ h, l.foldl State.hostAccess s = s.around s.tables h := by
  induction l generalizing s with
  | nil => exact ⟨s.hostPart, rfl⟩
  | cons a l ih =>
    obtain ⟨ha, hl⟩ := List.forall_mem_cons.mp hl
    have hacc := (s.hostAccess_cases a).resolve_right fun h => ha h.1
    obtain ⟨_, _, _, _, _, _, _, _, hbusy, _⟩ := hacc.held hs
    obtain ⟨h, hfold⟩ := ih hbusy hl
    refine ⟨h, ?_⟩
    rw [List.foldl_cons, hfold, hacc.eq_around hs]
    rfl

/-- A busy core's controller reads nothing of the host part: it keeps it, sets DONE, and leaves ZDIV as some function
of what ZDIV was (20_memory.md R86). -/
theorem State.controllerStep_around (hs : s.busy = true) :
    ∃ (t : State) (U : Tables) (f : Bool → Bool), ∀ h,
      (s.around s.tables h).controllerStep = .next (t.around U { h with done := true, zdiv := f h.zdiv }) := by
  cases hdecode : decode s.cmd with
  | error e =>
    exact ⟨s.completeErr (errOfDecode e), s.tables, id, fun h =>
      State.controllerStep_of_decode_error (s := s.around s.tables h) hs hdecode⟩
  | ok i =>
    have hstep (h : HostPart) := State.controllerStep_of_decode_ok (s := s.around s.tables h) hs hdecode
    rcases detached_or_overTables i s with ⟨t, f, hexec⟩ | ⟨t, f, hexec⟩
    · exact ⟨t, s.tables, f, fun h => (hstep h).trans (hexec s.tables h)⟩
    · exact ⟨t s.tables.built, s.tables.built, f s.tables.built, fun h => (hstep h).trans (hexec s.tables h)⟩

/-! ### The access in the step of a completion -/

/-- Only a legal write of STATUS acknowledges (10_state.md R45). -/
theorem eq_status_write_of_acknowledges {a : HostAccess} (h : a.acknowledges s = true) :
    ∃ w, a = .write .w32 0x000C#16 w := by
  cases a with
  | read => cases h
  | write width off w =>
    simp only [HostAccess.acknowledges, legalAccess, Bool.and_eq_true, decide_eq_true_eq] at h
    obtain ⟨⟨rfl, _⟩, hloc⟩ := h
    exact ⟨w, congrArg (HostAccess.write .w32 · w) (BitVec.eq_of_toNat_eq (locate_status hloc))⟩

theorem acknowledges_status (s : State) (w : Word32) :
    HostAccess.acknowledges s (.write .w32 0x000C#16 w) = true := rfl

/-- An access other than to STATUS comes after the completion (60_exceptions.md R303). -/
theorem State.completeWith_of_other {a : HostAccess} (ha : ∀ w, a ≠ .write .w32 0x000C#16 w)
    (h : s.controllerStep = .next t) : s.completeWith a = .next (t.hostAccess a) := by
  have hack : ¬ a.acknowledges s = true := fun hack =>
    let ⟨w, hw⟩ := eq_status_write_of_acknowledges hack
    ha w hw
  rw [State.completeWith, if_neg hack, h]

/-- A write of STATUS comes before the completion (log 9). -/
theorem State.completeWith_status (s : State) (w : Word32) :
    s.completeWith (.write .w32 0x000C#16 w) = State.controllerStep { s.acknowledge w with resp := .done } := by
  have hwrite : s.hostAccess (.write .w32 0x000C#16 w) = { s.acknowledge w with resp := .done } := storesTo_status s w
  rw [State.completeWith, if_pos (acknowledges_status s w), hwrite]

/-- The completion of a busy core after a write of STATUS is that of the core with the cleared ZDIV, but for ACCERR
and the port's answer, which no command reads or writes. -/
theorem State.controllerStep_acknowledge (hs : s.busy = true) (w : Word32)
    (h : State.controllerStep { s with zdiv := s.zdiv && !w.getLsbD 5 } = .next t) :
    t.done = true ∧ State.controllerStep { s.acknowledge w with resp := .done } =
      .next { t with accerr := s.accerr && !w.getLsbD 4, resp := .done } := by
  obtain ⟨r, U, f, hstep⟩ := State.controllerStep_around (s := { s with zdiv := s.zdiv && !w.getLsbD 5 }) hs
  have ht := (hstep { s.hostPart with zdiv := s.zdiv && !w.getLsbD 5 }).symm.trans h
  obtain rfl := Host.Outcome.next.inj ht
  exact ⟨rfl, hstep { s.hostPart with
    done := s.done && !w.getLsbD 1, accerr := s.accerr && !w.getLsbD 4, zdiv := s.zdiv && !w.getLsbD 5,
    resp := .done }⟩

/-- The controller keeps the capacity and the schedule. -/
theorem State.controllerStep_environment (h : s.controllerStep = .next t) :
    t.msgCap = s.msgCap ∧ t.inputs = s.inputs :=
  State.controllerStep_keeps (P := fun u => u.msgCap = s.msgCap ∧ u.inputs = s.inputs) (fun _ => id)
    (fun _ hr _ => ⟨hr.msgCap, hr.inputs⟩) ⟨rfl, rfl⟩ h

/-! ### The state of the tables -/

theorem State.precompute_around_built (s : State) (T : Tables) (h : HostPart) :
    (s.around T.built h).precompute = (s.around T h).precompute := by
  rw [State.precompute_around, State.precompute_around, Tables.built_built]

/-- A command run after a table build leaves what it leaves before it, up to the build (70_reset_and_hazards.md
R344). -/
theorem exec_precompute (i : Instr) (s : State) :
    ∃ t u, exec i s = .next t ∧ exec i s.precompute = .next u ∧ u.precompute = t.precompute := by
  rw [s.precompute_eq_around]
  rcases detached_or_overTables i s with ⟨t, f, hexec⟩ | ⟨t, f, hexec⟩
  case inl => exact ⟨_, _, hexec s.tables s.hostPart, hexec _ _, t.precompute_around_built _ _⟩
  case inr =>
    refine ⟨_, _, hexec s.tables s.hostPart, hexec _ _, ?_⟩
    rw [Tables.built_built]

/-- What invalid tables hold changes nothing that a command leaves (10_state.md R50). -/
theorem exec_of_invalid_tables (i : Instr) (hs : s.tblv = false) (bt : Vector PointReg 32)
    (ct : Vector (Vector AffineReg 16) 5) :
    ∃ t u, exec i s = .next t ∧ exec i { s with btab := bt, ctab := ct } = .next u ∧
      (t.tblv = true → u = t) ∧ (t.tblv = false → u = { t with btab := bt, ctab := ct }) := by
  have hother : { s with btab := bt, ctab := ct } = s.around ⟨s.tblv, bt, ct⟩ s.hostPart := rfl
  rw [hother]
  rcases detached_or_overTables i s with ⟨t, f, hexec⟩ | ⟨t, f, hexec⟩
  case inl =>
    refine ⟨_, _, hexec s.tables s.hostPart, hexec _ _, fun ht => ?_, fun _ => rfl⟩
    exact absurd (hs.symm.trans ht) Bool.false_ne_true
  case inr =>
    refine ⟨_, _, hexec s.tables s.hostPart, hexec _ _, fun _ => ?_, fun ht => ?_⟩
    · rw [Tables.built_of_invalid (T := ⟨s.tblv, bt, ct⟩) hs, Tables.built_of_invalid (T := s.tables) hs]
    · exact absurd ((Tables.built_tblv s.tables).symm.trans ht) Bool.true_eq_false.mp

end Sys2Proof.Machine

namespace Sys2Proof.Proofs

open Sys2Proof.Machine

/-- Settles O28: the accesses change the host part of the running core alone, which its controller does not read. -/
theorem hostCannotDisturbARunningCommand : Obligations.HostCannotDisturbARunningCommand := by
  intro s l hs hl
  obtain ⟨h, hfold⟩ := State.foldl_hostAccess_of_busy hs hl
  obtain ⟨t, U, f, hstep⟩ := State.controllerStep_around hs
  rw [hfold]
  exact ⟨_, _, hstep s.hostPart, hstep h, rfl, rfl, rfl, rfl, rfl, rfl, rfl, rfl, rfl, rfl, rfl, rfl, rfl, rfl, rfl,
    rfl⟩

/-- Settles O10: each command's results are built from the writes of its row. -/
theorem commandsWriteOnlyTheirOwnState : Obligations.CommandsWriteOnlyTheirOwnState := by
  intro i s t hi hexec
  obtain ⟨u, hu, hframe⟩ := frames_exec hi s
  obtain rfl : u = t := Host.Outcome.next.inj (hu.symm.trans hexec)
  exact hframe

/-- Settles O14: an access other than to STATUS comes after the completion, the soft reset among them; what a write
of STATUS clears before it is ACCERR, which the completion keeps, and ZDIV, from which it starts. -/
theorem accessInTheCompletionStep : Obligations.AccessInTheCompletionStep := by
  refine ⟨fun s t a rest hs hin ha hstep => ?after, fun s t w rest hs hin hstep => ?before,
    fun s w rest hw hin => ?reset⟩
  case after => exact (step_of_event hin).trans (State.completeWith_of_other ha hstep)
  case before =>
    obtain ⟨hdone, hack⟩ := State.controllerStep_acknowledge (s := { s with inputs := rest }) hs w hstep
    exact ⟨hdone, (step_of_event hin).trans ((State.completeWith_status _ w).trans hack)⟩
  case reset =>
    obtain ⟨u, hu⟩ := State.controllerStep_next { s with inputs := rest }
    obtain ⟨hcap, hinputs⟩ := State.controllerStep_environment hu
    refine ⟨_, (step_of_event hin).trans (State.completeWith_of_other (fun _ => by simp) hu), ?_⟩
    rw [storesTo_softReset u hw]
    exact ⟨hcap ▸ rfl, hinputs⟩

/-- Settles O53: a command that reads no tables keeps them, and one that builds them reads what Precompute() made of
them. -/
theorem tablesAreInvisible : Obligations.TablesAreInvisible :=
  ⟨exec_precompute, fun i _ bt ct hs => exec_of_invalid_tables i hs bt ct⟩

end Sys2Proof.Proofs

/-! PROOFS. FINV, the curve and the checks of what the core writes (41_field.md R146, 43_point.md R193 to R196,
42_scalar.md R171 to R174): the four statements on them. -/

namespace Sys2Proof.Machine

variable {s t : State}

/-! ### FINV -/

theorem exec_finv (d a : FReg) (s : State) :
    exec (.finv d a) s = .next (((s.orZDIV (invertsZero (s.fval a))).setF d (elemOf (finv (s.fval a)))).complete) :=
  rfl

/-- Inversion sets ZDIV exactly for a value ≡ 0 (10_state.md R49). -/
theorem invertsZero_fval (s : State) (a : FReg) :
    invertsZero (s.fval a) = decide ((s.getF a).toNat % Config.p = 0) := by
  simp only [invertsZero, State.fval, fieldVal, Nat.mod_mod]

/-- 0 inverts to 0 (41_field.md R146). -/
theorem finv_zero : finv 0 = 0 := by
  have hpow {n : Nat} (hn : n ≠ 0) : 0 ^ n % Config.p = 0 := by rw [zero_pow hn, Nat.zero_mod]
  rw [finv_eq]
  exact hpow (by decide +kernel)

/-! ### Points of the curve -/

/-- A command that writes a canonical point of the curve leaves it in PR[d]. -/
theorem onCurve_of_writePoint {o : Host.Outcome State Fault Refusal} {d : PReg} {q : Pt}
    (ho : o = writePoint d q s) (hq : q.canonical) (hcurve : onCurve q) :
    ∃ t, o = .next t ∧ onCurve (t.pval d) := by
  obtain ⟨t, ht, _, _, hval⟩ := next_of_movePoint (ho.trans (writePoint_eq d q s))
  refine ⟨t, ht, ?_⟩
  rwa [State.pval, hval, Pt.val_reg hq]

/-! ### Decoded points -/

variable {e : Str57}

/-- Both roots that DECPT can choose have the same square (43_point.md R196). -/
theorem cast_chosenX_sq (e : Str57) (neg : Bool) :
    (chosenX e neg : ZMod Config.p) ^ 2 = (candidateX (sdec e) : ZMod Config.p) ^ 2 := by
  have hneg : (((Config.p - candidateX (sdec e)) % Config.p : Nat) : ZMod Config.p) = -candidateX (sdec e) := by
    rw [cast_mod, Nat.cast_sub (candidateX_lt _).le, ZMod.natCast_self, zero_sub]
  unfold chosenX
  split
  · rw [hneg, neg_sq]
  · rfl

/-- v·x² = u is the curve equation for Z = 1 (43_point.md R196). -/
theorem onCurve_decoded (h : encodesPoint e) (neg : Bool) : onCurve ⟨chosenX e neg, sdec e, 1⟩ := by
  obtain ⟨_, _, hroot, _⟩ := h
  have hcast : ((ratioV (sdec e) * candidateX (sdec e) ^ 2 % Config.p : Nat) : ZMod Config.p) =
      (ratioU (sdec e) : ZMod Config.p) := by rw [hroot]
  rw [cast_mod, Nat.cast_mul, Nat.cast_pow, ratioU, ratioV, cast_fsub, cast_fsub, cast_fmul, cast_fsqr] at hcast
  unfold onCurve
  rw [cast_chosenX_sq]
  push_cast at hcast ⊢
  linear_combination hcast

theorem p_odd : Config.p % 2 = 1 := by decide +kernel

/-- The negation of a nonzero canonical value has the other parity, since p is odd. -/
theorem sub_mod_two_ne {x : Nat} (h0 : x ≠ 0) (hx : x < Config.p) :
    (Config.p - x) % Config.p % 2 = 1 ↔ ¬ x % 2 = 1 := by
  have hp := p_odd
  have hlt : Config.p - x < Config.p := by omega
  rw [Nat.mod_eq_of_lt hlt]
  omega

/-- The root chosen for NEG = 0 has the encoded parity, unless it is 0 (43_point.md R196). -/
theorem chosenX_parity (h : encodesPoint e) (hx : chosenX e false ≠ 0) :
    chosenX e false % 2 = 1 ↔ (e[56]).getLsbD 7 = true := by
  obtain ⟨_, _, _, hsign⟩ := h
  have hlt := candidateX_lt (sdec e)
  unfold chosenX at hx ⊢
  simp only [Bool.false_bne, decide_eq_true_eq] at hx ⊢
  generalize candidateX (sdec e) = x at *
  split at hx
  case isTrue hne =>
    rw [if_pos hne]
    have h0 : x ≠ 0 := by
      rintro rfl
      simp at hx
    rw [sub_mod_two_ne h0 hlt]
    by_cases hpar : x % 2 = 1 <;> simp_all
  case isFalse heq =>
    rw [if_neg heq]
    simp only [ne_eq, not_not] at heq
    rw [heq]

/-- Of a value and its negation, whichever comes first, the sum is ≡ 0. -/
theorem ite_negation_add {n x : Nat} (hx : x < n) (b : Bool) :
    ((if xor true b = true then (n - x) % n else x) + (if xor false b = true then (n - x) % n else x)) % n = 0 := by
  have hsum : ((n - x) % n + x) % n = 0 := by rw [Nat.mod_add_mod, Nat.sub_add_cancel hx.le, Nat.mod_self]
  cases b with
  | false => simpa using hsum
  | true => simpa [Nat.add_comm] using hsum

/-- The roots for NEG = 0 and NEG = 1 are negations of each other (43_point.md R196). -/
theorem chosenX_add (e : Str57) : (chosenX e true + chosenX e false) % Config.p = 0 := by
  rw [chosenX, chosenX]
  exact ite_negation_add (candidateX_lt _) _

theorem exec_pdec (d : PReg) (a : SReg) (neg : Bool) (s : State) :
    exec (.pdec d a neg) s = .next (s.putDecoded d (decpt (s.getS a) neg)).complete := rfl

/-- The point that PDEC leaves for an encoding that passes the tests (43_point.md R207). -/
theorem pval_putDecoded (h : encodesPoint e) (neg : Bool) (s : State) (d : PReg) :
    (s.putDecoded d (decpt e neg)).complete.pval d = ⟨chosenX e neg, sdec e, 1⟩ := by
  rw [decpt_of_encodesPoint h, State.putDecoded_some, State.pval, State.getP_complete, State.getP_setCF,
    State.getP_setP_same, Pt.val_reg (decoded_canonical h neg)]

theorem cf_putDecoded (h : encodesPoint e) (neg : Bool) (s : State) (d : PReg) :
    (s.putDecoded d (decpt e neg)).complete.cf = true := by
  rw [decpt_of_encodesPoint h, State.putDecoded_some, State.complete_cf, State.setCF_cf]

/-! ### What the core writes -/

/-- Every encoding passes CHKPT: the sign byte has no other bit, and the affine y is canonical
(43_point.md R194, R195). -/
theorem chkpt_enc (q : Pt) : chkpt (enc q) = true := by
  rw [chkpt_iff, enc_top, sdec_enc, signByte_eq]
  refine ⟨?_, dividedBy_lt _ _⟩
  split <;> rfl

/-- Every scalar mod L passes SCHK (42_scalar.md R171). -/
theorem schk_le57 (n : Nat) : schk (le57 (n % Config.groupOrder)) = true := by
  rw [schk_iff, sdec_le57 _ (mod_groupOrder_lt n)]
  exact ⟨le57_top _ (mod_groupOrder_lt n), Nat.mod_lt _ groupOrder_pos⟩

/-- A check of the string that a command left answers that string's check. -/
theorem check_accepts {i j : Instr} {d : SReg} {v : Str57} {check : Str57 → Bool}
    (hi : ∃ t, exec i s = .next t ∧ t.getS d = v)
    (hj : ∀ t, exec j t = .next (t.setCF (check (t.getS d))).complete) (hv : check v = true) :
    ∃ t u, exec i s = .next t ∧ exec j t = .next u ∧ u.cf = true := by
  obtain ⟨t, ht, hval⟩ := hi
  exact ⟨t, _, ht, hj t, by rw [State.complete_cf, State.setCF_cf, hval, hv]⟩

theorem exec_writeReduced_value {i : Instr} {d : SReg} {n : Nat}
    (hexec : exec i s = writeString d (le57 (n % Config.groupOrder)) s) :
    ∃ t, exec i s = .next t ∧ t.getS d = le57 (n % Config.groupOrder) := by
  obtain ⟨t, ht, _, _, hval⟩ := exec_of_writeString hexec
  exact ⟨t, ht, hval⟩

end Sys2Proof.Machine

namespace Sys2Proof.Proofs

open Sys2Proof.Machine

/-- Settles O31: FINV sets ZDIV for a value ≡ 0 and writes the canonical power. -/
theorem fieldInversion : Obligations.FieldInversion := by
  refine ⟨decodesAs_of_row (fun _ => rfl) unusedDA_iff, fun d a s => ?_⟩
  obtain ⟨x, hx⟩ : ∃ x, x = (s.getF a).toNat % Config.p := ⟨_, rfl⟩
  have hfval : s.fval a = x := hx.symm
  rw [exec_finv, hfval, ← hx]
  refine ⟨_, rfl, endsWith_complete _,
    (((changesOnly_refl _ s).orZDIV rfl _).setF (List.mem_singleton_self d) _).complete, ?_⟩
  rw [State.getF_complete, State.getF_setF_same, State.complete_zdiv, State.setF_zdiv, toNat_elemOf (finv_lt _)]
  have hzdiv : invertsZero x = decide (x = 0) := by rw [← hfval, invertsZero_fval, hfval, hx]
  refine ⟨finv_eq _, fun hzero => ⟨?_, ?_⟩, fun hne => ?_⟩
  · rw [hzero, finv_zero]
    rfl
  · simp [State.orZDIV, hzdiv.trans (decide_eq_true hzero)]
  · simp [State.orZDIV, hzdiv.trans (decide_eq_false hne)]

/-- Settles O42: each command writes a canonical point, and its function stays on the curve. -/
theorem pointCommandsStayOnTheCurve : Obligations.PointCommandsStayOnTheCurve :=
  ⟨fun _ _ _ h => onCurve_of_writePoint rfl (dbl_canonical _) (onCurve_dbl h),
    fun _ _ neg _ ha hd => onCurve_of_writePoint rfl (add_canonical neg _ _) (onCurve_add neg ha hd),
    fun _ _ _ h => onCurve_of_writePoint rfl ⟨fneg_lt _, fieldVal_lt _, fieldVal_lt _⟩ (onCurve_fneg h),
    fun _ _ => onCurve_of_writePoint rfl neutral_canonical onCurve_neutral⟩

/-- Settles O43: an accepted encoding passes the tests, and then both points are the chosen roots of the curve
equation for the encoded y. -/
theorem decodedPointIsOnTheCurve : Obligations.DecodedPointIsOnTheCurve := by
  intro d a s
  refine ⟨_, _, exec_pdec d a false s, exec_pdec d a true s, ?_⟩
  by_cases h : encodesPoint (s.getS a)
  case neg =>
    rw [decpt_of_not_encodesPoint h, decpt_of_not_encodesPoint h, State.putDecoded_none]
    exact ⟨rfl, fun hcf => absurd hcf Bool.false_ne_true⟩
  case pos =>
    rw [pval_putDecoded h, pval_putDecoded h, cf_putDecoded h, cf_putDecoded h]
    have hcurve := onCurve_decoded h false
    have hcurve' := onCurve_decoded h true
    have hparity := chosenX_parity h
    have hsum := chosenX_add (s.getS a)
    generalize chosenX (s.getS a) false = x at *
    generalize chosenX (s.getS a) true = x' at *
    exact ⟨rfl, fun _ => ⟨hcurve, rfl, rfl, hparity, hcurve', rfl, rfl, hsum⟩⟩

/-- Settles O44: encodings pass CHKPT and reduced scalars pass SCHK. -/
theorem checksAcceptWhatTheCoreWrites : Obligations.ChecksAcceptWhatTheCoreWrites :=
  ⟨fun d a s => check_accepts (check := chkpt) ⟨_, rfl, s.getS_setS_same d _⟩ (fun _ => rfl) (chkpt_enc (s.pval a)),
    fun _ _ _ _ => check_accepts (check := schk) (exec_writeReduced_value rfl) (fun _ => rfl) (schk_le57 _),
    fun _ _ _ _ _ => check_accepts (check := schk) (exec_writeReduced_value rfl) (fun _ => rfl) (schk_le57 _)⟩

end Sys2Proof.Proofs

/-! PROOFS. The tables (44_scalar_mult.md R231 to R234): the odd multiples, the teeth of a comb block and their signed
sums in closed form, the affine forms of the comb table, the multipliers on the curve, and the statements on the
tables and on the multipliers. -/

namespace Sys2Proof.Machine

open Sys2Proof.Config

/-! ### Lists of points -/

theorem times_eq_iterate {α : Type} (f : α → α) (n : Nat) (a : α) : times f n a = f^[n] a := by
  induction n generalizing a with
  | zero => rfl
  | succ n ih => rw [times, ih, Function.iterate_succ_apply]

/-- Entry j of the odd multiples is reached by j additions of 2P (44_scalar_mult.md R231). -/
theorem oddMultiplesFrom_getD (d2 : Pt) {n j : Nat} (hj : j < n) (t : Pt) :
    (oddMultiplesFrom d2 n t).getD j neutral = (add false d2)^[j] t := by
  induction n generalizing j t with
  | zero => omega
  | succ n ih =>
    cases j with
    | zero => rfl
    | succ j => rw [oddMultiplesFrom, List.getD_cons_succ, ih (by omega), Function.iterate_succ_apply]

/-- The odd multiple (2j+1)·P. -/
def oddMultiple (q : Pt) (j : Nat) : Pt := (add false (dbl q))^[j] q

theorem precompVar_getD (q : Pt) {n j : Nat} (hj : j < n) : (precompVar q n).getD j neutral = oddMultiple q j :=
  oddMultiplesFrom_getD (dbl q) hj q

theorem oddMultiple_succ (q : Pt) (j : Nat) : oddMultiple q (j + 1) = add false (dbl q) (oddMultiple q j) :=
  Function.iterate_succ_apply' _ j q

theorem oddMultiple_canonical {q : Pt} (hq : q.canonical) (j : Nat) : (oddMultiple q j).canonical := by
  cases j with
  | zero => exact hq
  | succ j => exact oddMultiple_succ q j ▸ add_canonical _ _ _

theorem onCurve_oddMultiple {q : Pt} (hq : onCurve q) (j : Nat) : onCurve (oddMultiple q j) := by
  induction j with
  | zero => exact hq
  | succ j ih => exact oddMultiple_succ q j ▸ onCurve_add false (onCurve_dbl hq) ih

theorem onCurve_iterate_dbl {q : Pt} (hq : onCurve q) (n : Nat) : onCurve (dbl^[n] q) := by
  induction n with
  | zero => exact hq
  | succ n ih => exact Function.iterate_succ_apply' dbl n q ▸ onCurve_dbl ih

/-! ### The base point -/

theorem basePoint_canonical : basePoint.canonical := by
  simp only [Pt.canonical, basePoint]
  decide +kernel

/-- B lies on the curve (00_scope.md R9). -/
theorem onCurve_basePoint : onCurve basePoint := by
  have h : (baseX ^ 2 + baseY ^ 2) % p = (1 + curveD * baseX ^ 2 * baseY ^ 2) % p := by decide +kernel
  have hcast := congrArg (fun n : Nat => (n : ZMod p)) h
  simp only [cast_mod] at hcast
  push_cast at hcast
  simpa [onCurve, basePoint] using hcast

/-! ### The base window table -/

/-- Entry j of the base window table holds (2j+1)·B (44_scalar_mult.md R232). -/
theorem getElem_buildBtab {j : Nat} (hj : j < 32) : buildBtab[j] = (oddMultiple basePoint j).reg := by
  simp only [buildBtab, Vector.getElem_ofFn, precompVar_getD basePoint hj]

theorem val_buildBtab {j : Nat} (hj : j < 32) : (buildBtab[j]).val = oddMultiple basePoint j := by
  rw [getElem_buildBtab hj, Pt.val_reg (oddMultiple_canonical basePoint_canonical j)]

/-! ### The teeth of a comb block -/

/-- The block that starts at P, tooth by tooth: the sum of the negated teeth, the next block's first tooth, and the
doubled teeth (44_scalar_mult.md R233). -/
theorem combTeeth_eq (q : Pt) :
    combTeeth q =
      ⟨add true (dbl^[72] q) (add true (dbl^[54] q) (add true (dbl^[36] q) (add true (dbl^[18] q)
          (add true q neutral)))),
        dbl^[90] q, [dbl q, dbl (dbl^[18] q), dbl (dbl^[36] q), dbl (dbl^[54] q), dbl (dbl^[72] q)]⟩ := by
  have htooth (c : CombState) : combTooth c = ⟨add true c.pt c.sum, dbl^[18] c.pt, c.ds ++ [dbl c.pt]⟩ := by
    rw [combTooth, times_eq_iterate, ← Function.iterate_succ_apply]
  simp only [combTeeth, times, htooth, ← Function.iterate_add_apply, Nat.reduceAdd, List.nil_append,
    List.cons_append]

/-- The first tooth of block b is B doubled 90·b times (44_scalar_mult.md R234). -/
theorem combStates_getD {n b : Nat} (hb : b < n) (q : Pt) (c : CombState) :
    (combStates n q).getD b c = combTeeth (dbl^[90 * b] q) := by
  induction n generalizing b q with
  | zero => omega
  | succ n ih =>
    cases b with
    | zero => rfl
    | succ b =>
      have hnext : (combTeeth q).pt = dbl^[90] q := by rw [combTeeth_eq]
      rw [combStates, List.getD_cons_succ, ih (by omega), hnext, ← Function.iterate_add_apply, Nat.mul_succ]

/-! ### Signed sums -/

/-- The list doubled by each tooth in turn (44_scalar_mult.md R233). -/
def signedSums (a : Pt) (ds : List Pt) : List Pt := ds.foldl (fun q d => q ++ q.map (add false d)) [a]

theorem combPoints_eq (c : CombState) : combPoints c = signedSums c.sum (c.ds.take 4) := rfl

theorem signedSums_concat (a : Pt) (ds : List Pt) (d : Pt) :
    signedSums a (ds ++ [d]) = signedSums a ds ++ (signedSums a ds).map (add false d) := by
  simp only [signedSums, List.foldl_append, List.foldl_cons, List.foldl_nil]

theorem signedSums_length (a : Pt) (ds : List Pt) : (signedSums a ds).length = 2 ^ ds.length := by
  induction ds using List.reverseRecOn with
  | nil => rfl
  | append_singleton ds d ih =>
    rw [signedSums_concat, List.length_append, List.length_map, ih, List.length_append, List.length_singleton]
    ring

theorem signedSums_getD_zero (a : Pt) (ds : List Pt) : (signedSums a ds).getD 0 neutral = a := by
  induction ds using List.reverseRecOn with
  | nil => rfl
  | append_singleton ds d ih =>
    have hlen : 0 < (signedSums a ds).length := by
      rw [signedSums_length]
      positivity
    rw [signedSums_concat, List.getD_append _ _ _ _ hlen, ih]

/-- Tooth t maps the first 2^t sums to the next 2^t (44_scalar_mult.md R233). -/
theorem signedSums_getD_add (a : Pt) (ds : List Pt) {t j : Nat} (ht : t < ds.length) (hj : j < 2 ^ t) :
    (signedSums a ds).getD (2 ^ t + j) neutral = add false ds[t] ((signedSums a ds).getD j neutral) := by
  induction ds using List.reverseRecOn with
  | nil => simp at ht
  | append_singleton ds d ih =>
    have hlen := signedSums_length a ds
    rw [List.length_append, List.length_singleton] at ht
    have hpow : 2 ^ t ≤ 2 ^ ds.length := Nat.pow_le_pow_right (by decide) (by omega)
    rw [signedSums_concat, List.getD_append _ _ _ j (by omega)]
    rcases Nat.lt_succ_iff_lt_or_eq.mp ht with hlt | rfl
    case inl =>
      have hdouble : 2 * 2 ^ t ≤ 2 ^ ds.length := by
        rw [← pow_succ']
        exact Nat.pow_le_pow_right (by decide) hlt
      rw [List.getD_append _ _ _ _ (by omega), ih hlt, List.getElem_append_left hlt]
    case inr =>
      rw [List.getD_append_right _ _ _ _ (by omega), hlen, Nat.add_sub_cancel_left, List.getElem_concat_length rfl,
        List.getD_eq_getElem _ _ (by rw [List.length_map]; omega), List.getElem_map,
        List.getD_eq_getElem _ _ (by omega)]

/-! ### The comb table -/

/-- The projective points of block b of the comb table (44_scalar_mult.md R233). -/
def combBlockPoint (b i : Nat) : Pt := (combPoints (combTeeth (dbl^[90 * b] basePoint))).getD i neutral

theorem tooth_eq (b t : Nat) : tooth b t = dbl^[18 * t] (dbl^[90 * b] basePoint) := by
  rw [← Function.iterate_add_apply, Nat.add_comm]
  rfl

theorem isCombBlock_combBlockPoint (b : Nat) : isCombBlock b (combBlockPoint b) := by
  have hpoint (i : Nat) : combBlockPoint b i =
      (signedSums (combTeeth (dbl^[90 * b] basePoint)).sum
        ((combTeeth (dbl^[90 * b] basePoint)).ds.take 4)).getD i neutral := rfl
  constructor
  case left =>
    rw [hpoint, signedSums_getD_zero, combTeeth_eq]
    simp only [tooth_eq]
    rfl
  case right =>
    intro t j ht hj
    simp only [hpoint]
    rw [combTeeth_eq, signedSums_getD_add _ _ ht hj, tooth_eq]
    congr 1
    interval_cases t <;> rfl

theorem getElem_buildCtab (b : Fin 5) (i : Fin 16) : buildCtab[b][i] = affineEntry (combBlockPoint b i) := by
  simp only [buildCtab, combBlock, Fin.getElem_fin, Vector.getElem_ofFn, combStates_getD b.isLt, combBlockPoint]

/-- The 80 inversions of the table build, by their evaluation: none meets Z ≡ 0 (10_state.md R49). -/
theorem combStates_invertible :
    ((combStates 5 basePoint).all fun c => (combPoints c).all fun q => decide (fmul q.z (finv q.z) = 1)) = true := by
  decide +kernel

theorem combPoints_combTeeth_length (q : Pt) : (combPoints (combTeeth q)).length = 16 := by
  rw [combPoints_eq, signedSums_length, combTeeth_eq]
  rfl

theorem combStates_length (n : Nat) (q : Pt) : (combStates n q).length = n := by
  induction n generalizing q with
  | zero => rfl
  | succ n ih => rw [combStates, List.length_cons, ih]

theorem combBlockPoint_invertible (b : Fin 5) (i : Fin 16) :
    fmul (combBlockPoint b i).z (finv (combBlockPoint b i).z) = 1 := by
  have hall := combStates_invertible
  simp only [List.all_eq_true, decide_eq_true_eq] at hall
  have hstate : combTeeth (dbl^[90 * b.val] basePoint) ∈ combStates 5 basePoint := by
    have hb : b.val < (combStates 5 basePoint).length := b.isLt.trans_eq (combStates_length 5 basePoint).symm
    have hmem := List.getElem_mem hb
    rwa [← List.getD_eq_getElem _ ⟨neutral, neutral, []⟩ hb, combStates_getD b.isLt] at hmem
  have hi : i.val < (combPoints (combTeeth (dbl^[90 * b.val] basePoint))).length :=
    i.isLt.trans_eq (combPoints_combTeeth_length _).symm
  have hmem := List.getElem_mem hi
  rw [← List.getD_eq_getElem _ neutral hi] at hmem
  exact hall _ hstate _ hmem

theorem onCurve_tooth (b t : Nat) : onCurve (tooth b t) := onCurve_iterate_dbl onCurve_basePoint _

/-- The points of a comb block are sums of teeth (44_scalar_mult.md R233). -/
theorem onCurve_of_isCombBlock {b : Nat} {q : Nat → Pt} (h : isCombBlock b q) {i : Nat} (hi : i < 16) :
    onCurve (q i) := by
  obtain ⟨hzero, hadd⟩ := h
  have hcurve0 : onCurve (q 0) := by
    rw [hzero]
    exact onCurve_add _ (onCurve_tooth b 4) (onCurve_add _ (onCurve_tooth b 3) (onCurve_add _ (onCurve_tooth b 2)
      (onCurve_add _ (onCurve_tooth b 1) (onCurve_add _ (onCurve_tooth b 0) onCurve_neutral))))
  have hfirst : ∀ t ≤ 4, ∀ j < 2 ^ t, onCurve (q j) := by
    intro t
    induction t with
    | zero =>
      intro _ j hj
      obtain rfl : j = 0 := by simpa using hj
      exact hcurve0
    | succ t ih =>
      intro ht j hj
      by_cases hlow : j < 2 ^ t
      · exact ih (by omega) j hlow
      · rw [pow_succ] at hj
        obtain ⟨k, rfl⟩ := Nat.exists_eq_add_of_le (Nat.not_lt.mp hlow)
        rw [hadd t k (by omega) (by omega)]
        exact onCurve_add _ (onCurve_dbl (onCurve_tooth b t)) (ih (by omega) k (by omega))
  exact hfirst 4 le_rfl i hi

/-- Dividing by an invertible Z keeps the curve equation. -/
theorem onCurve_affine {q : Pt} (hq : onCurve q) (hz : fmul q.z (finv q.z) = 1) :
    onCurve ⟨dividedBy q.x q.z, dividedBy q.y q.z, 1⟩ := by
  have hinv : (q.z : ZMod p) * (finv q.z : ZMod p) = 1 := by rw [← cast_fmul, hz, Nat.cast_one]
  unfold onCurve at hq ⊢
  rw [← fmul_finv, ← fmul_finv]
  simp only [cast_fmul, Nat.cast_one, one_pow, mul_one]
  generalize (finv q.z : ZMod p) = w at *
  generalize (q.x : ZMod p) = x at *
  generalize (q.y : ZMod p) = y at *
  generalize (q.z : ZMod p) = z at *
  have hinv2 : z ^ 2 * w ^ 2 = 1 := by rw [← mul_pow, hinv, one_pow]
  linear_combination w ^ 4 * hq + (1 + z ^ 2 * w ^ 2 - w ^ 2 * (x ^ 2 + y ^ 2)) * hinv2

theorem toNat_affineEntry (q : Pt) :
    (affineEntry q).x.toNat = dividedBy q.x q.z ∧ (affineEntry q).y.toNat = dividedBy q.y q.z := by
  simp only [affineEntry, affine, fmul_finv, toNat_elemOf (dividedBy_lt _ _), and_self]

theorem mod_p_ne_zero_of_invertible {z : Nat} (hz : fmul z (finv z) = 1) : z % p ≠ 0 := by
  intro h0
  rw [fmul, Nat.mul_mod, h0, Nat.zero_mul, Nat.zero_mod] at hz
  exact absurd hz Nat.zero_ne_one

/-- An entry of the comb table lies on the curve with Z = 1. -/
theorem onCurve_buildCtab (b : Fin 5) (i : Fin 16) :
    onCurve ⟨(buildCtab[b][i]).x.toNat, (buildCtab[b][i]).y.toNat, 1⟩ := by
  obtain ⟨hx, hy⟩ := toNat_affineEntry (combBlockPoint b i)
  rw [getElem_buildCtab, hx, hy]
  exact onCurve_affine (onCurve_of_isCombBlock (isCombBlock_combBlockPoint b) i.isLt) (combBlockPoint_invertible b i)

/-! ### The multipliers -/

theorem onCurve_lookup (b : Fin 5) (i : Fin 16) :
    onCurve ⟨(lookup buildCtab b i).1, (lookup buildCtab b i).2, 1⟩ := by
  obtain ⟨hx, hy⟩ := toNat_affineEntry (combBlockPoint b i)
  have hcurve := onCurve_buildCtab b i
  rw [getElem_buildCtab, hx, hy] at hcurve
  simp only [lookup, fieldVal]
  rw [getElem_buildCtab, hx, hy, Nat.mod_eq_of_lt (dividedBy_lt _ _), Nat.mod_eq_of_lt (dividedBy_lt _ _)]
  exact hcurve

theorem onCurve_combStep (m c : Nat) {r : Pt} (hr : onCurve r) (b : Fin 5) :
    onCurve (combStep buildCtab m c r b) := by
  have hentry := onCurve_lookup b (combIndex (combDigit m c b.val))
  simp only [combStep, addp]
  refine onCurve_add false ?_ hr
  split
  · exact onCurve_fneg hentry
  · exact hentry

theorem onCurve_combColumn (m c : Nat) {r : Pt} (hr : onCurve r) : onCurve (combColumn buildCtab m c r) :=
  List.foldlRecOn _ _ hr fun _ h b _ => onCurve_combStep m c h b

theorem onCurve_combLoop (m c : Nat) {r : Pt} (hr : onCurve r) : onCurve (combLoop buildCtab m c r) := by
  induction c generalizing r with
  | zero => exact onCurve_combColumn m 0 hr
  | succ c ih => exact ih (onCurve_dbl (onCurve_combColumn m (c + 1) hr))

/-- Every entry of a list lies on the curve, and so does what a read past its end gives (log 17). -/
theorem onCurve_getD {l : List Pt} (hl : ∀ q ∈ l, onCurve q) (k : Nat) : onCurve (l.getD k neutral) := by
  rcases Nat.lt_or_ge k l.length with hk | hk
  · rw [List.getD_eq_getElem _ _ hk]
    exact hl _ (List.getElem_mem hk)
  · rw [List.getD_eq_default _ _ hk]
    exact onCurve_neutral

theorem onCurve_strausAdd {table : List Pt} (ht : ∀ q ∈ table, onCurve q) (d : Int) {r : Pt} (hr : onCurve r) :
    onCurve (strausAdd table d r) := by
  unfold strausAdd
  split
  · exact hr
  · exact onCurve_add _ (onCurve_getD ht _) hr

theorem onCurve_strausLoop {tb tp : List Pt} (hb : ∀ q ∈ tb, onCurve q) (hp : ∀ q ∈ tp, onCurve q)
    (ds : List (Int × Int)) {r : Pt} (hr : onCurve r) : onCurve (strausLoop tb tp ds r) := by
  have hboth (d : Int × Int) {r : Pt} (hr : onCurve r) : onCurve (strausBoth tb tp d r) :=
    onCurve_strausAdd hp d.2 (onCurve_strausAdd hb d.1 hr)
  induction ds generalizing r with
  | nil => exact hr
  | cons d ds ih =>
    cases ds with
    | nil => exact hboth d hr
    | cons e ds => exact ih (onCurve_dbl (hboth d hr))

theorem onCurve_of_mem_oddMultiplesFrom {d2 : Pt} (hd : onCurve d2) {n : Nat} {t : Pt} (ht : onCurve t) :
    ∀ q ∈ oddMultiplesFrom d2 n t, onCurve q := by
  induction n generalizing t with
  | zero => exact nofun
  | succ n ih => exact List.forall_mem_cons.mpr ⟨ht, ih (onCurve_add false hd ht)⟩

theorem onCurve_of_mem_buildBtab : ∀ q ∈ buildBtab.toList.map PointReg.val, onCurve q := by
  intro q hq
  obtain ⟨v, hv, rfl⟩ := List.mem_map.mp hq
  obtain ⟨j, hj, rfl⟩ := Vector.mem_iff_getElem.mp (Vector.mem_toList_iff.mp hv)
  rw [val_buildBtab hj]
  exact onCurve_oddMultiple onCurve_basePoint j

end Sys2Proof.Machine

namespace Sys2Proof.Proofs

open Sys2Proof.Machine

/-- Settles O46: the window table holds the odd multiples of B, the comb table the affine forms of the signed sums
of the doubled teeth, whose Z are invertible. -/
theorem windowAndCombTables : Obligations.WindowAndCombTables := by
  refine ⟨getElem_buildBtab (by decide), fun j hj => ?next, fun j => ?window, fun b => ?comb⟩
  case next =>
    rw [val_buildBtab hj, val_buildBtab (by omega), oddMultiple_succ]
    rfl
  case window =>
    refine ⟨?_, ?_⟩
    · exact getElem_buildBtab j.isLt ▸ Pt.allCanonical_reg (oddMultiple_canonical basePoint_canonical j)
    · exact val_buildBtab j.isLt ▸ onCurve_oddMultiple onCurve_basePoint j
  case comb =>
    refine ⟨combBlockPoint b, isCombBlock_combBlockPoint b, fun i => ?_⟩
    obtain ⟨hx, hy⟩ := toNat_affineEntry (combBlockPoint b i)
    refine ⟨mod_p_ne_zero_of_invertible (combBlockPoint_invertible b i), ?_, ?_, ?_, ?_, onCurve_buildCtab b i⟩ <;>
      rw [getElem_buildCtab]
    · exact hx
    · exact hy
    · exact hx.trans_lt (dividedBy_lt _ _)
    · exact hy.trans_lt (dividedBy_lt _ _)

/-- Settles O50: the multipliers add entries of tables whose points lie on the curve, and double. -/
theorem multipliersStayOnTheCurve : Obligations.MultipliersStayOnTheCurve :=
  ⟨fun _ => onCurve_combLoop _ _ onCurve_neutral, fun _ _ _ hq =>
    onCurve_strausLoop onCurve_of_mem_buildBtab (onCurve_of_mem_oddMultiplesFrom (onCurve_dbl hq) hq) _
      onCurve_neutral⟩

end Sys2Proof.Proofs

/-! PROOFS. The wNAF encoder (44_scalar_mult.md R236, R237, R243): one step of the encoder as exact arithmetic, the
digits as a list with the properties of a wNAF, their uniqueness, and the statements on WNAF. -/

namespace Sys2Proof.Machine

/-! ### One step of the encoder -/

section Step

variable {n w : Nat}

theorem wnafDigit_of_even (h : n % 2 = 0) : wnafDigit n w = 0 := if_neg (by omega)

theorem wnafNext_of_even (h : n % 2 = 0) : wnafNext n w = n / 2 := if_neg (by omega)

/-- The low w bits of an odd n, as the digit takes them (44_scalar_mult.md R236). -/
theorem wnafDigit_of_odd (h : n % 2 = 1) :
    wnafDigit n w = if 2 ^ (w - 1) ≤ n % 2 ^ w then ((n % 2 ^ w : Nat) : Int) - (2 ^ w : Nat) else (n % 2 ^ w : Nat) :=
  if_pos h

theorem wnafNext_of_odd (h : n % 2 = 1) :
    wnafNext n w = if 2 ^ (w - 1) ≤ n % 2 ^ w then (n - n % 2 ^ w + 2 ^ w) / 2 else (n - n % 2 ^ w) / 2 :=
  if_pos h

/-- 2^w is twice 2^(w−1), and the low w bits of an odd number are odd. -/
theorem two_pow_width (hw : 1 ≤ w) : 2 ^ w = 2 * 2 ^ (w - 1) := by
  rw [← pow_succ', Nat.sub_add_cancel hw]

theorem odd_mod_two_pow (hw : 1 ≤ w) (h : n % 2 = 1) : n % 2 ^ w % 2 = 1 := by
  rw [Nat.mod_mod_of_dvd n ((dvd_pow_self 2 (by omega)))]
  exact h

/-- The step is exact: n is its digit plus twice the next n (44_scalar_mult.md R236). -/
theorem wnafDigit_add_next (hw : 1 ≤ w) : wnafDigit n w + 2 * (wnafNext n w : Int) = n := by
  rcases Nat.mod_two_eq_zero_or_one n with h | h
  · rw [wnafDigit_of_even h, wnafNext_of_even h]
    omega
  · have hodd := odd_mod_two_pow hw h
    have hpow := two_pow_width hw
    have hle := Nat.mod_le n (2 ^ w)
    rw [wnafDigit_of_odd h, wnafNext_of_odd h]
    generalize n % 2 ^ w = r at *
    split <;> omega

/-- A nonzero digit is odd and has at most w−1 bits (44_scalar_mult.md R237). -/
theorem wnafDigit_bound (hw : 2 ≤ w) (h : wnafDigit n w ≠ 0) :
    wnafDigit n w % 2 = 1 ∧ (wnafDigit n w).natAbs ≤ 2 ^ (w - 1) - 1 := by
  rcases Nat.mod_two_eq_zero_or_one n with h0 | h1
  · exact absurd (wnafDigit_of_even h0) h
  · have hodd := odd_mod_two_pow (w := w) (by omega) h1
    have hpow := two_pow_width (w := w) (by omega)
    have hhalf := two_pow_width (w := w - 1) (by omega)
    have hlt : n % 2 ^ w < 2 ^ w := Nat.mod_lt _ (by positivity)
    rw [wnafDigit_of_odd h1]
    generalize n % 2 ^ w = r at *
    generalize 2 ^ w = P at *
    split <;> omega

/-- A digit of n that keeps n's value mod 2^w within its bound is the encoder's (44_scalar_mult.md R236). -/
theorem eq_wnafDigit (hw : 1 ≤ w) {d S : Int} (hsum : d + 2 ^ w * S = n) (hodd : n % 2 = 1)
    (hbound : d.natAbs ≤ 2 ^ (w - 1) - 1) : d = wnafDigit n w := by
  have hpow := two_pow_width hw
  have hpos : 0 < 2 ^ (w - 1) := by positivity
  have hmod : ((n % 2 ^ w : Nat) : Int) = d % ((2 ^ w : Nat) : Int) := by
    rw [Int.natCast_mod, ← hsum]
    push_cast
    rw [Int.add_mul_emod_self_left]
  rw [wnafDigit_of_odd hodd]
  generalize n % 2 ^ w = r at *
  generalize 2 ^ w = P at *
  generalize 2 ^ (w - 1) = H at *
  rcases lt_or_ge d 0 with hneg | hnonneg
  · rw [← Int.add_emod_right, Int.emod_eq_of_lt (by omega) (by omega)] at hmod
    split <;> omega
  · rw [Int.emod_eq_of_lt hnonneg (by omega)] at hmod
    split <;> omega

/-- After an odd n the next w−1 digits have nothing left (44_scalar_mult.md R237). -/
theorem two_pow_dvd_wnafNext (hw : 1 ≤ w) (h : n % 2 = 1) : 2 ^ (w - 1) ∣ wnafNext n w := by
  have hpow := two_pow_width hw
  obtain ⟨c, hc⟩ : ∃ c, n - n % 2 ^ w = 2 ^ w * c := ⟨n / 2 ^ w, by have := Nat.div_add_mod n (2 ^ w); omega⟩
  rw [wnafNext_of_odd h, hc]
  generalize 2 ^ (w - 1) = H at *
  rw [hpow]
  split
  · exact ⟨c + 1, by rw [show 2 * H * c + 2 * H = 2 * (H * (c + 1)) by ring, Nat.mul_div_cancel_left _ (by decide)]⟩
  · exact ⟨c, by rw [mul_assoc, Nat.mul_div_cancel_left _ (by decide)]⟩

/-- Each step halves a power-of-two bound on n. -/
theorem wnafNext_le (hw : 2 ≤ w) {m : Nat} (h : n ≤ 2 ^ (m + 1)) : wnafNext n w ≤ 2 ^ m := by
  have hm : 2 ^ (m + 1) = 2 * 2 ^ m := pow_succ' 2 m
  rcases Nat.mod_two_eq_zero_or_one n with h0 | h1
  · rw [wnafNext_of_even h0]
    omega
  · rw [wnafNext_of_odd h1]
    split
    case isFalse => omega
    case isTrue hhigh =>
      rcases Nat.lt_or_ge (m + 1) w with hlt | hge
      case inl =>
        have hle : 2 ^ (m + 1) ≤ 2 ^ (w - 1) := Nat.pow_le_pow_right (by decide) (by omega)
        have := Nat.mod_le n (2 ^ w)
        omega
      case inr =>
        obtain ⟨c, hc⟩ : 2 ^ w ∣ 2 ^ (m + 1) := pow_dvd_pow 2 hge
        have hdiv := Nat.div_add_mod n (2 ^ w)
        have hlt : n < 2 ^ w * c := by omega
        have hq : n / 2 ^ w < c := Nat.div_lt_of_lt_mul hlt
        have hstep : 2 ^ w * (n / 2 ^ w) + 2 ^ w ≤ 2 ^ w * c := by
          rw [← Nat.mul_succ]
          exact Nat.mul_le_mul_left _ hq
        omega

theorem wnafNext_of_le_one (hw : 2 ≤ w) (h : n ≤ 1) : wnafNext n w = 0 := by
  have hpow : 2 ^ 1 ≤ 2 ^ (w - 1) := Nat.pow_le_pow_right (by decide) (by omega)
  rcases Nat.mod_two_eq_zero_or_one n with h0 | h1
  · rw [wnafNext_of_even h0]
    omega
  · have hmod := Nat.mod_le n (2 ^ w)
    rw [wnafNext_of_odd h1, if_neg (by omega)]
    omega

end Step

/-! ### The digits -/

section Digits

variable {w : Nat}

/-- Digit j is that of the n left after j steps. -/
theorem wnafDigits_getD {fuel j : Nat} (hj : j < fuel) (n : Nat) :
    (wnafDigits fuel n w).getD j 0 = wnafDigit ((wnafNext · w)^[j] n) w := by
  induction fuel generalizing j n with
  | zero => omega
  | succ fuel ih =>
    cases j with
    | zero => rfl
    | succ j => rw [wnafDigits, List.getD_cons_succ, ih (by omega), Function.iterate_succ_apply]

theorem iterate_wnafNext_le (hw : 2 ≤ w) {m n : Nat} (h : n ≤ 2 ^ m) : (wnafNext · w)^[m + 1] n = 0 := by
  induction m generalizing n with
  | zero => exact wnafNext_of_le_one hw h
  | succ m ih => exact ih (wnafNext_le hw h)

/-- The value of a digit string, least significant digit first. -/
def digitSum : List Int → Int
  | [] => 0
  | d :: ds => d + 2 * digitSum ds

theorem digitSum_wnafDigits (hw : 1 ≤ w) (fuel n : Nat) :
    digitSum (wnafDigits fuel n w) + 2 ^ fuel * ((wnafNext · w)^[fuel] n : Int) = n := by
  induction fuel generalizing n with
  | zero => simp [wnafDigits, digitSum]
  | succ fuel ih =>
    have hnext := ih (wnafNext n w)
    have hstep := wnafDigit_add_next (n := n) hw
    rw [wnafDigits, digitSum, Function.iterate_succ_apply, pow_succ']
    linear_combination hstep + 2 * hnext

theorem digitSum_eq_sum_range (l : List Int) : digitSum l = ∑ k ∈ Finset.range l.length, l.getD k 0 * 2 ^ k := by
  induction l with
  | nil => rfl
  | cons d ds ih =>
    rw [digitSum, ih, List.length_cons, Finset.sum_range_succ', Finset.mul_sum, add_comm]
    congr 1
    · refine Finset.sum_congr rfl fun k _ => ?_
      rw [List.getD_cons_succ]
      ring
    · simp

/-- A string whose first m digits are 0 has a value divisible by 2^m. -/
theorem two_pow_dvd_digitSum {m : Nat} {l : List Int} (h : ∀ j < m, l.getD j 0 = 0) : 2 ^ m ∣ digitSum l := by
  induction m generalizing l with
  | zero => simp
  | succ m ih =>
    cases l with
    | nil => exact dvd_zero _
    | cons d ds =>
      have hd : d = 0 := h 0 (by omega)
      have htail : 2 ^ m ∣ digitSum ds := ih fun j hj => by simpa using h (j + 1) (by omega)
      rw [digitSum, hd, zero_add, pow_succ']
      exact mul_dvd_mul_left 2 htail

/-- A value divisible by 2^m has m digits 0 first. -/
theorem wnafDigits_getD_of_dvd {m n : Nat} (h : 2 ^ m ∣ n) (fuel : Nat) {j : Nat} (hj : j < m) :
    (wnafDigits fuel n w).getD j 0 = 0 := by
  induction m generalizing fuel n j with
  | zero => omega
  | succ m ih =>
    obtain ⟨c, rfl⟩ := h
    have heven : 2 ^ (m + 1) * c % 2 = 0 := by rw [pow_succ', mul_assoc, Nat.mul_mod_right]
    cases fuel with
    | zero => rfl
    | succ fuel =>
      cases j with
      | zero => exact wnafDigit_of_even heven
      | succ j =>
        rw [wnafDigits, List.getD_cons_succ, wnafNext_of_even heven, pow_succ', mul_assoc,
          Nat.mul_div_cancel_left _ (by decide)]
        exact ih (dvd_mul_right _ _) fuel (by omega)

/-- The properties of a wNAF, of a digit string (44_scalar_mult.md R237). -/
structure IsWnafDigits (n : Int) (w : Nat) (l : List Int) : Prop where
  sum : digitSum l = n
  odd : ∀ j, l.getD j 0 ≠ 0 → l.getD j 0 % 2 = 1 ∧ (l.getD j 0).natAbs ≤ 2 ^ (w - 1) - 1
  sparse : ∀ j k, j < k → k < j + w → l.getD j 0 ≠ 0 → l.getD k 0 = 0

theorem IsWnafDigits.tail {n m d : Int} {ds : List Int} (h : IsWnafDigits n w (d :: ds)) (hm : digitSum ds = m) :
    IsWnafDigits m w ds where
  sum := hm
  odd j := by simpa using h.odd (j + 1)
  sparse j k hjk hkw := by simpa using h.sparse (j + 1) (k + 1) (by omega) (by omega)

/-- The encoder's digits are odd, bounded and sparse at every position. -/
theorem wnafDigits_properties (hw : 2 ≤ w) (fuel n : Nat) :
    IsWnafDigits (digitSum (wnafDigits fuel n w)) w (wnafDigits fuel n w) := by
  induction fuel generalizing n with
  | zero => exact ⟨rfl, fun j hj => absurd rfl hj, fun j k _ _ hj => absurd rfl hj⟩
  | succ fuel ih =>
    have htail := ih (wnafNext n w)
    refine ⟨rfl, fun j hj => ?_, fun j k hjk hkw hj => ?_⟩
    · cases j with
      | zero => exact wnafDigit_bound hw hj
      | succ j => exact htail.odd j hj
    · obtain ⟨k, rfl⟩ := Nat.exists_eq_succ_of_ne_zero (Nat.ne_zero_of_lt hjk)
      cases j with
      | zero =>
        have hodd : n % 2 = 1 := by
          by_contra h
          exact hj (wnafDigit_of_even (by omega))
        exact wnafDigits_getD_of_dvd (two_pow_dvd_wnafNext (by omega) hodd) fuel (by omega)
      | succ j => exact htail.sparse j k (by omega) (by omega) hj

/-- The first digit of a wNAF of n is the encoder's, and the rest is a wNAF of the next n (44_scalar_mult.md
R237). -/
theorem IsWnafDigits.head {n : Nat} {d : Int} {ds : List Int} (hw : 1 ≤ w) (h : IsWnafDigits n w (d :: ds)) :
    d = wnafDigit n w ∧ digitSum ds = wnafNext n w := by
  have hsum : d + 2 * digitSum ds = n := h.sum
  have hstep := wnafDigit_add_next (n := n) hw
  have hhead : d = wnafDigit n w := by
    rcases Nat.mod_two_eq_zero_or_one n with h0 | h1
    · rw [wnafDigit_of_even h0]
      by_contra hd
      have hodd := (h.odd 0 hd).1
      simp only [List.getD_cons_zero] at hodd
      omega
    · have hd : d ≠ 0 := by omega
      obtain ⟨S, hS⟩ : (2 : Int) ^ (w - 1) ∣ digitSum ds :=
        two_pow_dvd_digitSum fun j hj => by simpa using h.sparse 0 (j + 1) (by omega) (by omega) hd
      have hpow : (2 : Int) ^ w = 2 * 2 ^ (w - 1) := by rw [← pow_succ', Nat.sub_add_cancel hw]
      refine eq_wnafDigit (S := S) hw ?_ h1 (h.odd 0 hd).2
      rw [← hsum, hS, hpow, mul_assoc]
  exact ⟨hhead, by omega⟩

/-- A wNAF of n is the string that the encoder gives (44_scalar_mult.md R237). -/
theorem IsWnafDigits.eq_wnafDigits {n : Nat} {l : List Int} (hw : 1 ≤ w) (h : IsWnafDigits n w l) :
    l = wnafDigits l.length n w := by
  induction l generalizing n with
  | nil => rfl
  | cons d ds ih =>
    obtain ⟨hd, hsum⟩ := h.head hw
    rw [List.length_cons, wnafDigits, ← hd, ← ih (h.tail hsum)]

end Digits

/-! ### The digits as bytes -/

section DigitBytes

variable {w : Nat}

/-- The digits that a byte string holds. -/
def byteDigits (W : Vector Byte 448) : List Int := W.toList.map BitVec.toInt

theorem byteDigits_length (W : Vector Byte 448) : (byteDigits W).length = 448 := by simp [byteDigits]

theorem byteDigits_getD (W : Vector Byte 448) (k : Fin 448) : (byteDigits W).getD k 0 = W[k].toInt := by
  simp [byteDigits]

theorem byteDigits_getD_of_ge (W : Vector Byte 448) {k : Nat} (hk : 448 ≤ k) : (byteDigits W).getD k 0 = 0 :=
  List.getD_eq_default _ _ (by rwa [byteDigits_length])

theorem toInt_ne_zero_iff (b : Byte) : b.toInt ≠ 0 ↔ b ≠ 0#8 :=
  not_congr ⟨fun h => BitVec.eq_of_toInt_eq h, fun h => by rw [h]; rfl⟩

theorem digitSum_byteDigits (W : Vector Byte 448) :
    digitSum (byteDigits W) = ∑ k : Fin 448, W[k].toInt * 2 ^ k.val := by
  rw [digitSum_eq_sum_range, byteDigits_length, ← Fin.sum_univ_eq_sum_range (fun k => (byteDigits W).getD k 0 * 2 ^ k)]
  exact Finset.sum_congr rfl fun k _ => by rw [byteDigits_getD]

/-- The properties of the bytes are those of their digits. -/
theorem isWnaf_iff (n w : Nat) (W : Vector Byte 448) : isWnaf n w W ↔ IsWnafDigits n w (byteDigits W) := by
  have hdigit (j : Nat) (hj : (byteDigits W).getD j 0 ≠ 0) : ∃ k : Fin 448, k.val = j ∧ W[k] ≠ 0#8 := by
    have hlt : j < 448 := by
      by_contra hge
      exact hj (byteDigits_getD_of_ge W (Nat.not_lt.mp hge))
    refine ⟨⟨j, hlt⟩, rfl, (toInt_ne_zero_iff _).mp ?_⟩
    rwa [← byteDigits_getD W ⟨j, hlt⟩]
  constructor
  case mp =>
    rintro ⟨hsum, hodd, hsparse⟩
    refine ⟨(digitSum_byteDigits W).trans hsum, fun j hj => ?_, fun j k hjk hkw hj => ?_⟩
    · obtain ⟨j, rfl, hne⟩ := hdigit j hj
      rw [byteDigits_getD]
      exact hodd j hne
    · obtain ⟨j, rfl, hne⟩ := hdigit j hj
      by_contra hk
      obtain ⟨k, rfl, hne'⟩ := hdigit k hk
      exact hne' (hsparse j k hjk hkw hne)
  case mpr =>
    rintro ⟨hsum, hodd, hsparse⟩
    refine ⟨(digitSum_byteDigits W).symm.trans hsum, fun k hk => ?_, fun j k hjk hkw hj => ?_⟩
    · rw [← byteDigits_getD]
      exact hodd k (by rwa [byteDigits_getD, toInt_ne_zero_iff])
    · have hzero := hsparse j k hjk hkw (by rwa [byteDigits_getD, toInt_ne_zero_iff])
      rw [byteDigits_getD] at hzero
      by_contra hne
      exact (toInt_ne_zero_iff _).mpr hne hzero

theorem getElem_wnafBytes (n w : Nat) (k : Fin 448) :
    (wnafBytes n w)[k] = BitVec.ofInt 8 ((wnafList n w).getD k 0) := by
  have hk : k.val < (wnafList n w).length := (wnafDigits_length 448 n w).symm ▸ k.isLt
  simp [wnafBytes, List.getElem?_eq_getElem hk]

/-- Digits of width at most 8 fit a signed byte (10_state.md R38). -/
theorem toInt_ofInt_digit (hw8 : w ≤ 8) {d : Int} (hd : d ≠ 0 → d.natAbs ≤ 2 ^ (w - 1) - 1) :
    (BitVec.ofInt 8 d).toInt = d := by
  have hpow : 2 ^ (w - 1) ≤ 2 ^ 7 := Nat.pow_le_pow_right (by decide) (by omega)
  have hbound : d.natAbs ≤ 127 := by
    by_cases h0 : d = 0
    · simp [h0]
    · have := hd h0
      omega
  rw [BitVec.toInt_ofInt, Int.bmod_eq_of_le (by omega) (by omega)]

theorem byteDigits_wnafBytes (hw : 2 ≤ w) (hw8 : w ≤ 8) (n : Nat) : byteDigits (wnafBytes n w) = wnafList n w := by
  have hlen : (wnafList n w).length = 448 := wnafDigits_length 448 n w
  refine List.ext_getElem ((byteDigits_length _).trans hlen.symm) fun k hk hk' => ?_
  have hk448 : k < 448 := hlen ▸ hk'
  rw [← List.getD_eq_getElem _ 0 hk, ← List.getD_eq_getElem _ 0 hk', byteDigits_getD _ ⟨k, hk448⟩, getElem_wnafBytes]
  exact toInt_ofInt_digit hw8 fun h => ((wnafDigits_properties hw 448 n).odd k h).2

/-- The encoder gives a wNAF of every scalar in range (44_scalar_mult.md R237). -/
theorem isWnaf_wnafBytes (hw : 2 ≤ w) (hw8 : w ≤ 8) {n : Nat} (hn : n < 2 ^ 446) : isWnaf n w (wnafBytes n w) := by
  have hdone : (wnafNext · w)^[448] n = 0 := by
    rw [Function.iterate_succ_apply', iterate_wnafNext_le hw hn.le]
    exact wnafNext_of_le_one hw (by decide)
  have hsum := digitSum_wnafDigits (w := w) (by omega) 448 n
  rw [hdone, Nat.cast_zero, mul_zero, add_zero] at hsum
  rw [isWnaf_iff, byteDigits_wnafBytes hw hw8]
  exact hsum ▸ wnafDigits_properties hw 448 n

/-- A scalar in range has no digit at position 447 (44_scalar_mult.md R237). -/
theorem wnafList_last (hw : 2 ≤ w) {n : Nat} (hn : n < 2 ^ 446) : (wnafList n w).getD 447 0 = 0 := by
  rw [wnafList, wnafDigits_getD (by decide), iterate_wnafNext_le hw hn.le]
  exact wnafDigit_of_even rfl

end DigitBytes

theorem legalWidth_iff (width : Fin 16) : legalWidth width = true ↔ 2 ≤ width.val ∧ width.val ≤ 8 := by
  rw [legalWidth, decide_eq_true_iff]

end Sys2Proof.Machine

namespace Sys2Proof.Proofs

open Sys2Proof.Machine

/-- Settles O47: a scalar in range is encoded by a wNAF, and the two checks come first. -/
theorem wnafCommand : Obligations.WnafCommand := by
  intro d a width s
  refine ⟨fun hw hn => ?inRange, fun hw hn => ?outOfRange, fun hw => ?illegal⟩
  case inRange =>
    obtain ⟨h2, h8⟩ := hw
    have hexec := exec_wnaf_of_inRange (s := s) ((legalWidth_iff width).mpr ⟨h2, h8⟩) d (a := a) (scalarRange_eq ▸ hn)
    refine ⟨_, hexec, endsWith_complete _,
      ((changesOnly_refl _ s).setW (List.mem_singleton_self d) _).complete, ?_⟩
    rw [State.getW_complete, State.getW_setW_same]
    refine ⟨isWnaf_wnafBytes h2 h8 hn, ?_⟩
    have hlast : (wnafList (s.sval a) width).getD 447 0 = 0 := wnafList_last h2 hn
    exact (getElem_wnafBytes _ _ 447).trans (congrArg (BitVec.ofInt 8) hlast)
  case outOfRange =>
    exact exec_wnaf_of_outOfRange ((legalWidth_iff width).mpr hw) d (a := a) (scalarRange_eq.symm ▸ hn)
  case illegal =>
    exact exec_wnaf_of_illegalWidth (eq_false_of_ne_true (mt (legalWidth_iff width).mp hw)) d a s

/-- Settles O48: the digits of a wNAF are the encoder's one by one, and a byte is its digit. -/
theorem wnafIsUnique : Obligations.WnafIsUnique := by
  intro n w V hw hw8 _ hV
  have hdigits := ((isWnaf_iff n w V).mp hV).eq_wnafDigits (by omega)
  rw [byteDigits_length] at hdigits
  refine Vector.ext fun k hk => ?_
  have hbyte := getElem_wnafBytes n w ⟨k, hk⟩
  rw [wnafList, ← hdigits, byteDigits_getD, BitVec.ofInt_toInt] at hbyte
  exact hbyte.symm

end Sys2Proof.Proofs

/-! PROOFS. The comb multiplier's recoding and its run (44_scalar_mult.md R238, R239). -/

namespace Sys2Proof.Machine

open Sys2Proof.Config

/-! ### The signed digits of the recoded scalar -/

theorem bitOf_lt_two (m j : Nat) : bitOf m j < 2 := Nat.mod_lt _ (by decide)

/-- The digits 2·m_j − 1 of the low n bits of m. -/
theorem sum_signedBits (m n : Nat) :
    ∑ j ∈ Finset.range n, (2 * (bitOf m j : Int) - 1) * 2 ^ j = 2 * ((m % 2 ^ n : Nat) : Int) - 2 ^ n + 1 := by
  induction n with
  | zero => simp [Nat.mod_one]
  | succ n ih =>
    rw [Finset.sum_range_succ, ih, Nat.mod_pow_succ, bitOf]
    push_cast
    ring

/-- The odd value that COMB recodes (44_scalar_mult.md R238). -/
def combOdd (k : Nat) : Nat := if k % 2 = 1 then k else k + groupOrder

theorem groupOrder_odd : groupOrder % 2 = 1 := by decide +kernel

theorem combOdd_odd (k : Nat) : combOdd k % 2 = 1 := by
  have := groupOrder_odd
  unfold combOdd
  split <;> omega

theorem combOdd_lt {k N : Nat} (hk : k < N) (hL : groupOrder < N) : combOdd k < 2 * N := by
  unfold combOdd
  split <;> omega

theorem cast_combOdd (k : Nat) : (combOdd k : Int) = if k % 2 = 1 then (k : Int) else k + groupOrder := by
  unfold combOdd
  split <;> simp

/-- The recoding of an odd value below 2^n in n bits, for every n. -/
theorem recode_lt {k1 N : Nat} (hk : k1 < 2 * N) : (k1 + 2 * N) / 2 < 2 * N := by omega

theorem two_mul_recode {k1 N : Nat} (hodd : k1 % 2 = 1) :
    2 * (((k1 + 2 * N) / 2 : Nat) : Int) - (2 * N : Nat) + 1 = k1 := by omega

theorem combRecode_eq (k : Nat) : combRecode k = (combOdd k + 2 * 2 ^ 449) / 2 := by
  rw [combRecode, combOdd, ← pow_succ']

theorem combRecode_lt {k : Nat} (hk : k < 2 ^ 448) : combRecode k < 2 ^ 450 := by
  have hle (a : Nat) (ha : a ≤ 448) : 2 ^ a ≤ 2 ^ 449 := pow_le_pow_right₀ (by decide) (by omega)
  have hodd : combOdd k < 2 * 2 ^ 449 :=
    combOdd_lt (hk.trans_le (hle _ le_rfl)) (groupOrder_lt.trans_le (hle _ (by decide)))
  rw [combRecode_eq]
  exact (recode_lt hodd).trans_eq (by rw [← pow_succ'])

/-- The recoding's digits sum to the odd value (44_scalar_mult.md R239). -/
theorem sum_signedBits_combRecode {k : Nat} (hk : k < 2 ^ 448) :
    ∑ j ∈ Finset.range 450, (2 * (bitOf (combRecode k) j : Int) - 1) * 2 ^ j = combOdd k := by
  have hpow : (2 : Int) ^ 450 = (2 * 2 ^ 449 : Nat) := by rw [← pow_succ', Nat.cast_pow, Nat.cast_ofNat]
  rw [sum_signedBits, Nat.mod_eq_of_lt (combRecode_lt hk), hpow, combRecode_eq]
  exact two_mul_recode (combOdd_odd k)

/-! ### Columns of blocks of bits -/

/-- A sum over m rows of n columns. -/
theorem sum_fin_mul (f : Nat → Int) (m n : Nat) :
    ∑ j ∈ Finset.range (m * n), f j = ∑ q : Fin m, ∑ c : Fin n, f (c.val + n * q.val) := by
  rw [← Fin.sum_univ_eq_sum_range, ← finProdFinEquiv.sum_comp, Fintype.sum_prod_type]
  rfl

/-- The 450 positions as 18 columns of 5 blocks of 5 bits (44_scalar_mult.md R238). -/
theorem sum_columns (f : Nat → Int) :
    ∑ c : Fin 18, ∑ b : Fin 5, ∑ t : Fin 5, f (c.val + 18 * (5 * b.val + t.val)) = ∑ j ∈ Finset.range 450, f j := by
  have hblocks (c : Fin 18) : ∑ b : Fin 5, ∑ t : Fin 5, f (c.val + 18 * (5 * b.val + t.val)) =
      ∑ q : Fin 25, f (c.val + 18 * q.val) := by
    rw [Fin.sum_univ_eq_sum_range (fun q => f (c.val + 18 * q)) 25, sum_fin_mul _ 5 5]
    simp only [add_comm]
  rw [Finset.sum_congr rfl fun c _ => hblocks c, Finset.sum_comm, sum_fin_mul f 25 18]

/-- Bit t of a block's digit is the bit of m at the block's position t (44_scalar_mult.md R238). -/
theorem bitOf_combDigit (m c b : Nat) (t : Fin 5) :
    bitOf (combDigit m c b) t.val = bitOf m (c + 18 * (5 * b + t.val)) := by
  have hlt := bitOf_lt_two m
  have h0 := hlt (c + 18 * (5 * b))
  have h1 := hlt (c + 18 * (5 * b + 1))
  have h2 := hlt (c + 18 * (5 * b + 2))
  have h3 := hlt (c + 18 * (5 * b + 3))
  have h4 := hlt (c + 18 * (5 * b + 4))
  rw [combDigit]
  match t with
  | 0 => rw [bitOf]; simp only [Fin.val_zero, add_zero]; omega
  | 1 => rw [bitOf]; simp only [Fin.val_one]; omega
  | 2 => rw [bitOf]; simp only [Fin.val_two]; omega
  | 3 => rw [bitOf]; change _ / 2 ^ 3 % 2 = bitOf m (c + 18 * (5 * b + 3)); omega
  | 4 => rw [bitOf]; change _ / 2 ^ 4 % 2 = bitOf m (c + 18 * (5 * b + 4)); omega

theorem combDigit_eq_sum (m c b : Nat) :
    combDigit m c b = ∑ t : Fin 5, bitOf m (c + 18 * (5 * b + t.val)) * 2 ^ t.val := by
  simp only [Fin.sum_univ_five, combDigit]
  change _ = bitOf m (c + 18 * (5 * b)) * 1 + bitOf m (c + 18 * (5 * b + 1)) * 2 +
    bitOf m (c + 18 * (5 * b + 2)) * 4 + bitOf m (c + 18 * (5 * b + 3)) * 8 + bitOf m (c + 18 * (5 * b + 4)) * 16
  ring

theorem combDigit_lt (m c b : Nat) : combDigit m c b < 32 := by
  have hlt := bitOf_lt_two m
  have h0 := hlt (c + 18 * (5 * b))
  have h1 := hlt (c + 18 * (5 * b + 1))
  have h2 := hlt (c + 18 * (5 * b + 2))
  have h3 := hlt (c + 18 * (5 * b + 3))
  have h4 := hlt (c + 18 * (5 * b + 4))
  rw [combDigit]
  omega

/-! ### The run -/

/-- The sign bit and the index of a block's digit (44_scalar_mult.md R238). -/
theorem testBit_four_iff {w : Nat} (hw : w < 32) : w.testBit 4 = true ↔ 16 ≤ w := by
  decide +revert

theorem combIndex_val {w : Nat} (hw : w < 32) :
    (combIndex w).val = (w ^^^ (if w.testBit 4 then 0x1F else 0)) &&& 15 := by
  decide +revert

/-- The accumulator in a column that begins with r, before block b. -/
def combBlocks (ctab : Vector (Vector AffineReg 16) 5) (m c : Nat) (r : Pt) : Nat → Pt
  | 0 => r
  | b + 1 => combStep ctab m c (combBlocks ctab m c r b) (Fin.ofNat 5 b)

theorem combColumn_eq (ctab : Vector (Vector AffineReg 16) 5) (m c : Nat) (r : Pt) :
    combColumn ctab m c r = combBlocks ctab m c r 5 := rfl

/-- The accumulator at the start of the n-th column from the top. -/
def combStart (ctab : Vector (Vector AffineReg 16) 5) (m : Nat) : Nat → Pt
  | 0 => neutral
  | n + 1 => dbl (combColumn ctab m (17 - n) (combStart ctab m n))

theorem combLoop_combStart (ctab : Vector (Vector AffineReg 16) 5) (m : Nat) {c : Nat} (hc : c ≤ 17) :
    combLoop ctab m c (combStart ctab m (17 - c)) = combColumn ctab m 0 (combStart ctab m 17) := by
  induction c with
  | zero => rfl
  | succ c ih =>
    have hstart : combStart ctab m (17 - c) = dbl (combColumn ctab m (c + 1) (combStart ctab m (17 - (c + 1)))) := by
      rw [show 17 - c = 17 - (c + 1) + 1 by omega, combStart, show 17 - (17 - (c + 1)) = c + 1 by omega]
    rw [combLoop, ← hstart, ih (by omega)]

/-- The accumulator in column c before block b. -/
def combAcc (ctab : Vector (Vector AffineReg 16) 5) (m c b : Nat) : Pt :=
  combBlocks ctab m c (combStart ctab m (17 - c)) b

theorem comb_eq_combAcc (ctab : Vector (Vector AffineReg 16) 5) (k : Nat) :
    comb ctab k = combAcc ctab (combRecode k) 0 5 :=
  combLoop_combStart ctab (combRecode k) (le_refl 17)

theorem combStep_eq (ctab : Vector (Vector AffineReg 16) 5) (m c : Nat) (r : Pt) (b : Fin 5) :
    combStep ctab m c r b =
      add false ⟨if (combDigit m c b).testBit 4 then fneg (lookup ctab b (combIndex (combDigit m c b))).1
        else (lookup ctab b (combIndex (combDigit m c b))).1, (lookup ctab b (combIndex (combDigit m c b))).2, 1⟩ r := by
  simp only [combStep, addp, testBit_four_iff (combDigit_lt m c b)]

theorem isCombRun_combAcc (ctab : Vector (Vector AffineReg 16) 5) (m : Nat) : isCombRun ctab m (combAcc ctab m) := by
  refine ⟨rfl, fun c hc => ?column, fun c b _ => ?block⟩
  case column =>
    rw [combAcc, combBlocks, combAcc, ← combColumn_eq, show 17 - c = 17 - (c + 1) + 1 by omega, combStart,
      show 17 - (17 - (c + 1)) = c + 1 by omega]
  case block =>
    refine ⟨combDigit m c b, combIndex (combDigit m c b), _, _, combDigit_eq_sum m c b,
      combIndex_val (combDigit_lt m c b), rfl, rfl, ?_⟩
    have hb : Fin.ofNat 5 b.val = b := Fin.ofNat_val_eq_self b
    rw [combAcc, combBlocks, hb, combStep_eq]
    simp only [lookup, fneg_fieldVal]
    rfl

end Sys2Proof.Machine

namespace Sys2Proof.Proofs

open Sys2Proof.Machine

/-- Settles O49: the signed digits of the recoded scalar regrouped, and the accumulators of the run. -/
theorem combRunsOverTheRecodedScalar : Obligations.CombRunsOverTheRecodedScalar := by
  refine ⟨fun k hk => ⟨combRecode_lt hk, ?digits, ?columns⟩,
    fun ctab k => ⟨_, isCombRun_combAcc ctab (combRecode k), comb_eq_combAcc ctab k⟩⟩
  case digits =>
    rw [Fin.sum_univ_eq_sum_range (fun j => (2 * (bitOf (combRecode k) j : Int) - 1) * 2 ^ j),
      sum_signedBits_combRecode hk, cast_combOdd]
  case columns =>
    simp only [bitOf_combDigit]
    rw [sum_columns (fun j => (2 * (bitOf (combRecode k) j : Int) - 1) * 2 ^ j), sum_signedBits_combRecode hk,
      cast_combOdd]

end Sys2Proof.Proofs

/-! PROOFS. The fixed-base multiplications and KEYGEN (44_scalar_mult.md R244, R246, R247, 45_protocol.md R274):
what a stored result holds, and the statements on the three commands. -/

namespace Sys2Proof.Machine

section Stored

variable {s t : State}

/-- ZDIV after an inversion of Z, in the statements' terms. -/
theorem Pt.zeroZ_eq (r : Pt) : r.zeroZ = decide (r.z % Config.p = 0) := rfl

/-- NORM divides both coordinates by Z (44_scalar_mult.md R247). -/
theorem norm_eq (r : Pt) : norm r = ⟨dividedBy r.x r.z, dividedBy r.y r.z, 1⟩ := by
  rw [← fmul_finv, ← fmul_finv]
  rfl

/-- What a point register holds of a normalised result. -/
theorem norm_reg (r : Pt) :
    (norm r).reg.x.toNat = dividedBy r.x r.z ∧ (norm r).reg.y.toNat = dividedBy r.y r.z ∧ (norm r).reg.z = 1#448 := by
  obtain ⟨hx, hy, hz⟩ := Pt.toNat_reg (norm_canonical r)
  rw [norm_eq] at hx hy hz ⊢
  exact ⟨hx, hy, rfl⟩

theorem State.getP_putNormalized (s : State) (d : PReg) (r : Pt) : (s.putNormalized d r).getP d = (norm r).reg := by
  rw [State.putNormalized, State.getP_orZDIV, State.getP_setP_same]

theorem State.putNormalized_zdiv (s : State) (d : PReg) (r : Pt) :
    (s.putNormalized d r).zdiv = (s.zdiv || r.zeroZ) := by
  rw [State.putNormalized, State.orZDIV_zdiv, State.setP_zdiv]

theorem State.toNat_getF_putAffine_x (s : State) {dx dy : FReg} (hd : dx ≠ dy) (r : Pt) :
    ((s.putAffine dx dy r).getF dx).toNat = dividedBy r.x r.z := by
  rw [State.putAffine, State.getF_orZDIV, State.getF_setF_ne _ dy dx _ hd, State.getF_setF_same, norm_eq]
  exact toNat_elemOf (dividedBy_lt _ _)

theorem State.toNat_getF_putAffine_y (s : State) (dx dy : FReg) (r : Pt) :
    ((s.putAffine dx dy r).getF dy).toNat = dividedBy r.y r.z := by
  rw [State.putAffine, State.getF_orZDIV, State.getF_setF_same, norm_eq]
  exact toNat_elemOf (dividedBy_lt _ _)

theorem State.putAffine_zdiv (s : State) (dx dy : FReg) (r : Pt) :
    (s.putAffine dx dy r).zdiv = (s.zdiv || r.zeroZ) := by
  rw [State.putAffine, State.orZDIV_zdiv, State.setF_zdiv, State.setF_zdiv]

theorem State.getS_putEncoded (s : State) (d : SReg) (r : Pt) : (s.putEncoded d r).getS d = enc r := by
  rw [State.putEncoded, State.getS_orZDIV, State.getS_setS_same]

theorem State.putEncoded_zdiv (s : State) (d : SReg) (r : Pt) :
    (s.putEncoded d r).zdiv = (s.zdiv || r.zeroZ) := by
  rw [State.putEncoded, State.orZDIV_zdiv, State.setS_zdiv]

/-! ### Writes of a result keep the tables ready -/

theorem tablesReady.putNormalized (h : tablesReady s t) (d : PReg) (r : Pt) :
    tablesReady s (t.putNormalized d r) := by
  simpa only [tablesReady, State.putNormalized, State.orZDIV_tblv, State.orZDIV_btab, State.orZDIV_ctab,
    State.setP_tblv, State.setP_btab, State.setP_ctab] using h

theorem tablesReady.putAffine (h : tablesReady s t) (dx dy : FReg) (r : Pt) :
    tablesReady s (t.putAffine dx dy r) := by
  simpa only [tablesReady, State.putAffine, State.orZDIV_tblv, State.orZDIV_btab, State.orZDIV_ctab,
    State.setF_tblv, State.setF_btab, State.setF_ctab] using h

theorem tablesReady.putEncoded (h : tablesReady s t) (d : SReg) (r : Pt) : tablesReady s (t.putEncoded d r) := by
  simpa only [tablesReady, State.putEncoded, State.orZDIV_tblv, State.orZDIV_btab, State.orZDIV_ctab,
    State.setS_tblv, State.setS_btab, State.setS_ctab] using h

/-- The comb runs over the table in use (44_scalar_mult.md R230). -/
theorem comb_precompute (s : State) (k : Nat) : s.precompute.comb k = comb (usedCtab s) k := by
  rw [usedCtab_eq, State.comb]

end Stored

/-- A command that ends with a normalised result over built tables (44_scalar_mult.md R247). -/
theorem putNormalized_complete (s : State) (d : PReg) (r : Pt) {u : State}
    (hu : u = (s.precompute.putNormalized d r).complete) :
    endsWith .ok u ∧ changesOnly { pr := [d], zdiv := true, tables := true } s u ∧ tablesReady s u ∧
      (u.getP d).x.toNat = dividedBy r.x r.z ∧ (u.getP d).y.toNat = dividedBy r.y r.z ∧
      (u.getP d).z = 1#448 ∧ u.zdiv = (s.zdiv || decide (r.z % Config.p = 0)) := by
  subst hu
  obtain ⟨hx, hy, hz⟩ := norm_reg r
  refine ⟨endsWith_complete _,
    ((changesOnly_precompute _ s rfl).putNormalized (List.mem_singleton_self d) rfl r).complete,
    ((tablesReady_precompute s).putNormalized d r).complete, ?_⟩
  rw [State.getP_complete, State.getP_putNormalized, State.complete_zdiv, State.putNormalized_zdiv,
    State.precompute_zdiv, Pt.zeroZ_eq]
  exact ⟨hx, hy, hz, rfl⟩

/-- The scalar of KEYGEN (45_protocol.md R274). -/
theorem expand_fst (e : Str57) : (expand e).1 = secretScalar e := rfl

end Sys2Proof.Machine

namespace Sys2Proof.Proofs

open Sys2Proof.Machine

/-- Settles O51: the comb over the table in use, and what a normalised or an affine result leaves. -/
theorem fixedBaseMultiplications : Obligations.FixedBaseMultiplications := by
  refine ⟨fun d a s => ?smulb, fun dx dy a s hd => ?smulbxy, fun dx a s => exec_smulbxy_of_eq dx a s⟩
  case smulb =>
    have hexec := exec_smulb (s := s) d (a := a) (k := sdec (s.getS a)) rfl
    rw [comb_precompute] at hexec
    generalize comb (usedCtab s) (sdec (s.getS a)) = r at hexec ⊢
    obtain ⟨hend, hframe, hready, hresult⟩ := putNormalized_complete s d r rfl
    exact ⟨_, r, hexec, hend, hframe, hready, rfl, hresult⟩
  case smulbxy =>
    have hexec := exec_smulbxy_of_ne (s := s) hd (a := a) (e := s.getS a) rfl
    rw [comb_precompute] at hexec
    generalize comb (usedCtab s) (sdec (sprune (s.getS a))) = r at hexec ⊢
    refine ⟨_, r, hexec, endsWith_complete _,
      ((changesOnly_precompute _ s rfl).putAffine (by simp) (by simp) rfl r).complete,
      ((tablesReady_precompute s).putAffine dx dy r).complete, rfl, ?_⟩
    rw [State.getF_complete, State.getF_complete, State.complete_zdiv, State.putAffine_zdiv, State.precompute_zdiv]
    exact ⟨State.toNat_getF_putAffine_x _ hd r, State.toNat_getF_putAffine_y _ dx dy r, rfl⟩

/-- Settles O56: the comb of the secret scalar, encoded. -/
theorem keyGeneration : Obligations.KeyGeneration := by
  refine ⟨decodesAs_of_row (fun _ => rfl) unusedDA_iff, fun d a s => ?_⟩
  have hexec := exec_keygen (s := s) d (a := a) (e := s.getS a) rfl
  rw [comb_precompute, expand_fst] at hexec
  generalize comb (usedCtab s) (sdec (secretScalar (s.getS a))) = r at hexec ⊢
  refine ⟨_, r, hexec, endsWith_complete _,
    ((changesOnly_precompute _ s rfl).putEncoded (List.mem_singleton_self d) rfl r).complete,
    ((tablesReady_precompute s).putEncoded d r).complete, rfl, ?_⟩
  rw [State.getS_complete, State.getS_putEncoded, State.complete_zdiv, State.putEncoded_zdiv, State.precompute_zdiv]
  exact ⟨rfl, rfl⟩

end Sys2Proof.Proofs

/-! PROOFS. The two-scalar multiplier: its run from the highest nonzero position down, and the statement on SMULSV
(44_scalar_mult.md R240, R245). -/

namespace Sys2Proof.Machine

/-! ### The positions of the run -/

section Positions

variable (g : Nat → Int × Int)

/-- The values of g at position n and below, from n down. -/
def downFrom : Nat → List (Int × Int)
  | 0 => [g 0]
  | n + 1 => g (n + 1) :: downFrom n

theorem take_reverse_eq_downFrom {l : List (Int × Int)} (hl : ∀ k (hk : k < l.length), l[k] = g k) {n : Nat}
    (hn : n < l.length) : (l.take (n + 1)).reverse = downFrom g n := by
  induction n with
  | zero => rw [← List.take_concat_get' _ _ hn, List.take_zero, hl 0 hn]; rfl
  | succ n ih =>
    rw [← List.take_concat_get' _ _ hn, List.reverse_append, ih (by omega), hl (n + 1) hn]
    rfl

/-- The highest position up to n with a nonzero digit, or 0 (44_scalar_mult.md R240). -/
def topPosition : Nat → Nat
  | 0 => 0
  | n + 1 => if (g (n + 1)).1 = 0 ∧ (g (n + 1)).2 = 0 then topPosition n else n + 1

theorem topPosition_le (n : Nat) : topPosition g n ≤ n := by
  induction n with
  | zero => exact le_refl 0
  | succ n ih =>
    rw [topPosition]
    split <;> omega

theorem zero_above_topPosition {n i : Nat} (htop : topPosition g n < i) (hi : i ≤ n) :
    (g i).1 = 0 ∧ (g i).2 = 0 := by
  induction n with
  | zero => omega
  | succ n ih =>
    rw [topPosition] at htop
    split at htop
    case isFalse => omega
    case isTrue hzero =>
      rcases Nat.le_succ_iff.mp hi with hle | rfl
      · exact ih htop hle
      · exact hzero

theorem nonzero_at_topPosition (n : Nat) (h : topPosition g n ≠ 0) :
    (g (topPosition g n)).1 ≠ 0 ∨ (g (topPosition g n)).2 ≠ 0 := by
  induction n with
  | zero => exact absurd rfl h
  | succ n ih =>
    rw [topPosition] at h ⊢
    split
    case isTrue hzero => exact ih (by rwa [if_pos hzero] at h)
    case isFalse hne => exact not_and_or.mp hne

/-- The model skips to the highest nonzero position. -/
theorem strausSkip_downFrom (n : Nat) : strausSkip (downFrom g n) = downFrom g (topPosition g n) := by
  induction n with
  | zero => rfl
  | succ n ih =>
    have hskip : strausSkip (downFrom g (n + 1)) =
        if (g (n + 1)).1 = 0 ∧ (g (n + 1)).2 = 0 then strausSkip (downFrom g n) else downFrom g (n + 1) := by
      cases n <;> rfl
    rw [hskip, ih, topPosition]
    split <;> rfl

end Positions

/-! ### The accumulators -/

section Run

variable (tb tp : List Pt) (g : Nat → Int × Int) (top : Nat)

/-- The accumulator after the k-th position below the top. -/
def strausAccBelow : Nat → Pt
  | 0 => strausBoth tb tp (g top) neutral
  | k + 1 => strausBoth tb tp (g (top - (k + 1))) (dbl (strausAccBelow k))

/-- The accumulator after position i. -/
def strausAcc (i : Nat) : Pt := strausAccBelow tb tp g top (top - i)

theorem strausAcc_eq {i : Nat} (hi : i ≤ top) :
    strausAcc tb tp g top i =
      strausBoth tb tp (g i) (if i = top then neutral else dbl (strausAcc tb tp g top (i + 1))) := by
  rcases Nat.eq_or_lt_of_le hi with rfl | hlt
  · rw [strausAcc, Nat.sub_self, strausAccBelow, if_pos rfl]
  · rw [strausAcc, show top - i = top - (i + 1) + 1 by omega, strausAccBelow, if_neg hlt.ne,
      show top - (top - (i + 1) + 1) = i by omega, strausAcc]

/-- The model's loop goes through the accumulators. -/
theorem strausLoop_downFrom {i : Nat} (hi : i ≤ top) :
    strausLoop tb tp (downFrom g i) (if i = top then neutral else dbl (strausAcc tb tp g top (i + 1))) =
      strausAcc tb tp g top 0 := by
  induction i with
  | zero => exact (strausAcc_eq tb tp g top hi).symm
  | succ i ih =>
    have hloop (r : Pt) : strausLoop tb tp (downFrom g (i + 1)) r =
        strausLoop tb tp (downFrom g i) (dbl (strausBoth tb tp (g (i + 1)) r)) := by
      cases i <;> rfl
    rw [hloop, ← strausAcc_eq tb tp g top hi]
    have hnext := ih (by omega)
    rwa [if_neg (by omega)] at hnext

end Run

/-! ### The run over the digit bytes -/

/-- One digit, as its byte stores it (44_scalar_mult.md R240). -/
theorem strausAdd_eq_addDigit (table : List Pt) {d : Byte} {D : Int} (h : d.toInt = D) (r : Pt) :
    strausAdd table D r = addDigit (table.getD · neutral) d r := by
  subst h
  by_cases hd : d = 0#8
  · rw [addDigit, if_pos hd, hd]
    rfl
  · rw [addDigit, if_neg hd, strausAdd, if_neg ((toInt_ne_zero_iff d).mpr hd)]

theorem toInt_wnafBytes {w : Nat} (hw : 2 ≤ w) (hw8 : w ≤ 8) (n : Nat) (i : Fin 448) :
    (wnafBytes n w)[i].toInt = (wnafList n w).getD i 0 := by
  rw [← byteDigits_getD, byteDigits_wnafBytes hw hw8]

/-- The digit pair at a position. -/
def digitPair (nb np k : Nat) : Int × Int := ((wnafList nb 7).getD k 0, (wnafList np 5).getD k 0)

theorem strausDigits_eq (nb np : Nat) :
    strausDigits (wnafList nb 7) (wnafList np 5) = downFrom (digitPair nb np) 446 := by
  have hb : (wnafList nb 7).length = 448 := wnafDigits_length 448 nb 7
  have hp : (wnafList np 5).length = 448 := wnafDigits_length 448 np 5
  have hzip : ((wnafList nb 7).zip (wnafList np 5)).length = 448 := by rw [List.length_zip, hb, hp]; rfl
  refine take_reverse_eq_downFrom _ (fun k hk => ?_) (by rw [hzip]; decide)
  rw [List.getElem_zip, digitPair, List.getD_eq_getElem _ _ (by omega), List.getD_eq_getElem _ _ (by omega)]

/-- The base point's entries of the run. -/
def windowEntry (btab : Vector PointReg 32) (j : Nat) : Pt := (btab.toList.map PointReg.val).getD j neutral

theorem windowEntry_eq (btab : Vector PointReg 32) (j : Fin 32) : windowEntry btab j.val = (btab[j]).val := by
  simp [windowEntry]

/-- The entries of the run's point. -/
def pointEntry (q : Pt) (j : Nat) : Pt := (precompVar q 8).getD j neutral

theorem pointEntry_succ (q : Pt) {j : Nat} (hj : j < 7) :
    pointEntry q (j + 1) = add false (dbl q) (pointEntry q j) := by
  rw [pointEntry, pointEntry, precompVar_getD q (by omega), precompVar_getD q (by omega), oddMultiple_succ]

section

variable (btab : Vector PointReg 32) (nb np : Nat) (q : Pt)

/-- The highest position with a nonzero digit of either scalar, or 0. -/
def strausTop : Nat := topPosition (digitPair nb np) 446

theorem digit_ne_zero_at_strausTop (h : strausTop nb np ≠ 0) :
    (digitPair nb np (strausTop nb np)).1 ≠ 0 ∨ (digitPair nb np (strausTop nb np)).2 ≠ 0 := by
  unfold strausTop at h ⊢
  exact nonzero_at_topPosition _ 446 h

/-- The accumulator of STRAUS after position i. -/
def strausRun (i : Nat) : Pt :=
  strausAcc (btab.toList.map PointReg.val) (precompVar q 8) (digitPair nb np) (strausTop nb np) i

theorem straus_eq_strausRun : straus btab nb np q = strausRun btab nb np q 0 := by
  have hloop := strausLoop_downFrom (btab.toList.map PointReg.val) (precompVar q 8) (digitPair nb np)
    (strausTop nb np) le_rfl
  rw [if_pos rfl] at hloop
  rw [straus, strausDigits_eq, strausSkip_downFrom]
  exact hloop

theorem isStrausRun_strausRun (hnb : nb < Config.scalarRange) (hnp : np < Config.scalarRange) :
    isStrausRun (windowEntry btab) (pointEntry q) (wnafBytes nb 7) (wnafBytes np 5) (strausTop nb np)
      (strausRun btab nb np q) := by
  rw [scalarRange_eq] at hnb hnp
  have hV (i : Fin 448) : (wnafBytes nb 7)[i].toInt = (digitPair nb np i).1 :=
    toInt_wnafBytes (by decide) (by decide) nb i
  have hU (i : Fin 448) : (wnafBytes np 5)[i].toInt = (digitPair nb np i).2 :=
    toInt_wnafBytes (by decide) (by decide) np i
  refine ⟨topPosition_le _ 446, fun i hi => ?above, fun i hi => ?top, fun i hi => ?step⟩
  case above =>
    have hzero : (digitPair nb np i).1 = 0 ∧ (digitPair nb np i).2 = 0 := by
      rcases Nat.lt_or_ge 446 i with hlast | hle
      · have hb := wnafList_last (w := 7) (by decide) hnb
        have hp := wnafList_last (w := 5) (by decide) hnp
        simp only [show i.val = 447 by omega, digitPair, hb, hp, and_self]
      · exact zero_above_topPosition (digitPair nb np) hi hle
    obtain ⟨hb, hp⟩ := hzero
    exact ⟨by_contra fun h => (toInt_ne_zero_iff _).mpr h ((hV i).trans hb),
      by_contra fun h => (toInt_ne_zero_iff _).mpr h ((hU i).trans hp)⟩
  case top =>
    by_cases htop : strausTop nb np = 0
    · exact .inl htop
    · rw [← toInt_ne_zero_iff, ← toInt_ne_zero_iff, hV, hU, hi]
      exact .inr (digit_ne_zero_at_strausTop nb np htop)
  case step =>
    rw [strausRun, strausAcc_eq _ _ _ _ hi, strausBoth, strausAdd_eq_addDigit _ (hU i), strausAdd_eq_addDigit _ (hV i)]
    rfl

end

end Sys2Proof.Machine

namespace Sys2Proof.Proofs

open Sys2Proof.Machine

/-- Settles O52: SMULSV past its check stores the normalised result, and STRAUS goes through the accumulators of
its run. -/
theorem twoScalarMultiplication : Obligations.TwoScalarMultiplication := by
  refine ⟨fun d nb np q s => ⟨fun hnb hnp => ?inRange, fun h => ?outOfRange⟩, fun btab nb np q hnb hnp => ?run⟩
  case inRange =>
    rw [← scalarRange_eq] at hnb hnp
    have hexec := exec_smulsv_of_inRange (s := s) d (n := sdec (s.getS nb)) (m := sdec (s.getS np)) (P := s.pval q)
      rfl rfl rfl (by omega)
    rw [← usedBtab_eq] at hexec
    generalize straus (usedBtab s) (sdec (s.getS nb)) (sdec (s.getS np)) (s.pval q) = r at hexec ⊢
    obtain ⟨hend, hframe, hready, hresult⟩ := putNormalized_complete s d r rfl
    exact ⟨_, r, hexec, hend, hframe, hready, rfl, hresult⟩
  case outOfRange =>
    rw [← scalarRange_eq] at h
    exact exec_smulsv_of_outOfRange d q h
  case run =>
    rw [← scalarRange_eq] at hnb hnp
    exact ⟨strausTop nb np, windowEntry btab, pointEntry q, strausRun btab nb np q, windowEntry_eq btab, rfl,
      fun j => pointEntry_succ q, isStrausRun_strausRun btab nb np q hnb hnp, straus_eq_strausRun btab nb np q⟩

end Sys2Proof.Proofs

/-! PROOFS. XOFH (45_protocol.md R270, R277): how many bytes the XOF returns, that a shorter request is the beginning
of a longer one, and the statement on the command. -/

namespace Sys2Proof.Machine

theorem squeezeBlock_length (a : Lanes) : (squeezeBlock a).length = xofRate := by
  simp [squeezeBlock, Plane.toList, leBytes_length, xofRate]

theorem squeeze_length (n : Nat) (a : Lanes) : (squeeze n a).length = xofRate * n := by
  induction n generalizing a with
  | zero => rfl
  | succ n ih => rw [squeeze, List.length_append, squeezeBlock_length, ih, Nat.mul_succ, Nat.add_comm]

/-- More blocks continue the blocks before them. -/
theorem squeeze_add (k n : Nat) (a : Lanes) : ∃ rest, squeeze (k + n) a = squeeze k a ++ rest := by
  induction k generalizing a with
  | zero => exact ⟨_, rfl⟩
  | succ k ih =>
    obtain ⟨rest, hrest⟩ := ih (keccakF a)
    exact ⟨rest, by rw [Nat.succ_add, squeeze, squeeze, hrest, List.append_assoc]⟩

/-- The blocks that a request of n bytes takes hold n bytes. -/
theorem le_xofBlocks (n : Nat) : n ≤ xofRate * ((n + xofRate - 1) / xofRate) := by
  have hrate : xofRate = 136 := rfl
  rw [hrate]
  omega

theorem xof_length (m : Bytes) (n : Nat) : (xof m n).length = n := by
  rw [xof, List.length_take, squeeze_length]
  exact Nat.min_eq_left (le_xofBlocks n)

/-- A shorter request is the beginning of a longer one (45_protocol.md R270). -/
theorem take_xof (m : Bytes) {k n : Nat} (hk : k ≤ n) : (xof m n).take k = xof m k := by
  have hblocks : (k + xofRate - 1) / xofRate ≤ (n + xofRate - 1) / xofRate := Nat.div_le_div_right (by omega)
  obtain ⟨more, hmore⟩ := Nat.exists_eq_add_of_le hblocks
  simp only [xof, List.take_take, Nat.min_eq_left hk, hmore]
  generalize absorb _ _ _ = a
  obtain ⟨rest, hrest⟩ := squeeze_add ((k + xofRate - 1) / xofRate) more a
  rw [hrest, List.take_append_of_le_length ((le_xofBlocks k).trans_eq (squeeze_length _ a).symm)]

theorem lowHalf_toList {h : Bytes} (hl : h.length = 114) : (lowHalf h).toList = h.take 57 :=
  str57_toList _ (by rw [List.length_take, hl]; rfl)

theorem highHalf_toList {h : Bytes} (hl : h.length = 114) : (highHalf h).toList = h.drop 57 :=
  str57_toList _ (by rw [List.length_drop, hl])

theorem xofhRule_iff (f : Fields) :
    (decide (f.ra = 0) && onlyDAB f && decide (f.flg = 0#8) && decide (f.rd ≠ f.rb)) = true ↔
      f.ra = 0 ∧ f.rc = 0 ∧ f.flg = 0#8 ∧ f.rd ≠ f.rb := by
  simp [onlyDAB, and_assoc]

end Sys2Proof.Machine

namespace Sys2Proof.Proofs

open Sys2Proof.Machine

/-- Settles O54: the two halves of the 114 bytes in the two destinations. -/
theorem hashCommand : Obligations.HashCommand := by
  refine ⟨⟨decodesAs_of_row (fun _ => rfl) xofhRule_iff,
    fun lo hi s hd => ⟨fun hfits => ?fits, exec_xofh_of_msgLen hd⟩⟩,
    fun m n k => ⟨xof_length m n, take_xof m⟩⟩
  have hlen := xof_length s.message 114
  have hexec := exec_xofh_of_fits hd hfits
  generalize xof s.message 114 = h at hlen hexec ⊢
  refine ⟨_, hexec, endsWith_complete _,
    (((changesOnly_refl _ s).setS (by simp) _).setS (by simp) _).complete, ?_, ?_⟩
  · rw [State.getS_complete, State.getS_setS_ne _ hi lo _ hd, State.getS_setS_same, lowHalf_toList hlen]
  · rw [State.getS_complete, State.getS_setS_same, highHalf_toList hlen]

end Sys2Proof.Proofs

/-! PROOFS. SIGN (45_protocol.md R275): the signature in the statements' terms, and the statements on it. -/

namespace Sys2Proof.Machine

variable {s t : State} {ph : Bool}

theorem message_precompute (s : State) : s.precompute.message = s.message := by
  rw [State.message, State.precompute_msgbuf, State.precompute_msgLen, State.message]

theorem context_precompute (s : State) : s.precompute.context = s.context := by
  rw [State.context, State.precompute_ctxbuf, State.precompute_ctxLen, State.context]

/-- The challenge of the statements, whose bytes are grouped to the left (45_protocol.md R275, R276). -/
theorem challenge_eq (s : State) (ph : Bool) (r pk : Str57) : s.challenge ph r pk = challengeScalar s ph r pk := by
  rw [State.challenge, challengeScalar, List.append_assoc, List.append_assoc]

theorem challenge_precompute (s : State) (ph : Bool) (r pk : Str57) :
    s.precompute.challenge ph r pk = challengeScalar s ph r pk := by
  rw [← challenge_eq, State.challenge, State.challenge, message_precompute, context_precompute]

/-- The nonce scalar of the statements, whose bytes are grouped to the left (45_protocol.md R275). -/
theorem nonce_eq (s : State) (ph : Bool) (sk : Str57) :
    sred (xof (dom4 ph s.context ++ ((expand sk).2 ++ s.message)) 114) = nonceScalar s ph sk := by
  rw [nonceScalar, List.append_assoc]
  rfl

/-- The public key that SIGN hashes: the supplied one, else the one recomputed (45_protocol.md R275). -/
def hashedKey (s : State) (sup : Option SReg) (q : Pt) : Str57 :=
  match sup with
  | some c => s.getS c
  | none => enc q

/-- The signature over the table in use (45_protocol.md R275). -/
theorem signature_precompute {sk : SReg} {q rPt : Pt}
    (hq : comb (usedCtab s) (sdec (secretScalar (s.getS sk))) = q)
    (hr : comb (usedCtab s) (sdec (nonceScalar s ph (s.getS sk))) = rPt) (sup : Option SReg) :
    s.precompute.signature sk sup ph =
      ⟨enc rPt, scalc (nonceScalar s ph (s.getS sk)) (challengeScalar s ph (enc rPt) (hashedKey s sup q))
        (secretScalar (s.getS sk)), rPt.zeroZ || (sup.isNone && q.zeroZ)⟩ := by
  subst hq hr
  simp only [State.signature, comb_precompute, State.getS_precompute, message_precompute, context_precompute,
    challenge_precompute, nonce_eq, expand_fst]
  cases sup with
  | none => rw [hashedKey]
  | some c => rw [hashedKey]

section PutSignature

variable {dR dS : SReg} (g : Signature)

theorem exec_sign_eq_putSignature (hd : dR ≠ dS) {sk : SReg} {sup : Option SReg} (h : argumentsPass s ph)
    (hg : s.precompute.signature sk sup ph = g) :
    exec (.sign dR dS sk sup ph) s = .next (s.precompute.putSignature dR dS g).complete := by
  rw [exec_sign_of_argumentsPass hd sk sup h, hg, State.putSignature]

theorem State.getS_putSignature_r (s : State) (hd : dR ≠ dS) : (s.putSignature dR dS g).getS dR = g.r := by
  rw [State.putSignature, State.getS_orZDIV, State.getS_setS_ne _ dS dR _ hd, State.getS_setS_same]

theorem State.getS_putSignature_t (s : State) (dR dS : SReg) : (s.putSignature dR dS g).getS dS = g.t := by
  rw [State.putSignature, State.getS_orZDIV, State.getS_setS_same]

theorem State.putSignature_zdiv (s : State) (dR dS : SReg) :
    (s.putSignature dR dS g).zdiv = (s.zdiv || g.zdiv) := by
  rw [State.putSignature, State.orZDIV_zdiv, State.setS_zdiv, State.setS_zdiv]

theorem State.putSignature_cf (s : State) (dR dS : SReg) : (s.putSignature dR dS g).cf = s.cf := by
  rw [State.putSignature, State.orZDIV_cf, State.setS_cf, State.setS_cf]

theorem State.putSignature_tblv (s : State) (dR dS : SReg) : (s.putSignature dR dS g).tblv = s.tblv := by
  rw [State.putSignature, State.orZDIV_tblv, State.setS_tblv, State.setS_tblv]

theorem changesOnly.putSignature {w : Writes} (h : changesOnly w s t) (hR : dR ∈ w.sr) (hS : dS ∈ w.sr)
    (hz : w.zdiv = true) : changesOnly w s (t.putSignature dR dS g) :=
  ((h.setS hR _).setS hS _).orZDIV hz _

theorem tablesReady.putSignature (h : tablesReady s t) (dR dS : SReg) : tablesReady s (t.putSignature dR dS g) := by
  simpa only [tablesReady, State.putSignature, State.orZDIV_tblv, State.orZDIV_btab, State.orZDIV_ctab,
    State.setS_tblv, State.setS_btab, State.setS_ctab] using h

end PutSignature

/-- The public key that KEYGEN leaves is the one that SIGN recomputes (45_protocol.md R274, R275). -/
theorem getS_keygen {c sk : SReg} {k : State} (h : exec (.keygen c sk) s = .next k) :
    k.getS c = enc (comb (usedCtab s) (sdec (secretScalar (s.getS sk)))) := by
  rw [exec_keygen (s := s) c (a := sk) (e := s.getS sk) rfl, comb_precompute, expand_fst] at h
  generalize comb (usedCtab s) (sdec (secretScalar (s.getS sk))) = q at h ⊢
  obtain rfl := Host.Outcome.next.inj h
  rw [State.getS_complete, State.getS_putEncoded]

end Sys2Proof.Machine

namespace Sys2Proof.Proofs

open Sys2Proof.Machine

/-- Settles O57: SIGN past its checks stores the signature over the table in use. -/
theorem signing : Obligations.Signing := by
  intro dR dS sk sup ph s hd hpass
  have hsignature (q rPt : Pt) := signature_precompute (s := s) (ph := ph) (sk := sk) (q := q) (rPt := rPt)
  generalize comb (usedCtab s) (sdec (secretScalar (s.getS sk))) = q at hsignature ⊢
  generalize comb (usedCtab s) (sdec (nonceScalar s ph (s.getS sk))) = rPt at hsignature ⊢
  have hexec := exec_sign_eq_putSignature _ hd hpass (hsignature q rPt rfl rfl sup)
  refine ⟨_, q, rPt, hashedKey s sup q, enc rPt, hexec, endsWith_complete _,
    ((changesOnly_precompute _ s rfl).putSignature _ (by simp) (by simp) rfl).complete,
    ((tablesReady_precompute s).putSignature _ dR dS).complete, rfl, ?none, ?some, rfl, rfl, ?_⟩
  case none => rintro rfl; rfl
  case some => rintro c rfl; rfl
  rw [State.getS_complete, State.getS_complete, State.complete_zdiv, State.getS_putSignature_r _ _ hd,
    State.getS_putSignature_t, State.putSignature_zdiv, State.precompute_zdiv, Bool.or_assoc]
  exact ⟨rfl, rfl, rfl⟩

/-- Settles O58: the supplied key is the string that SIGN recomputes without it. -/
theorem suppliedKeyGivesTheSameSignature : Obligations.SuppliedKeyGivesTheSameSignature := by
  rintro dR dS sk c ph s hd hpass ⟨k, hkeygen, hkey⟩
  rw [getS_keygen hkeygen] at hkey
  have hsignature (q rPt : Pt) := signature_precompute (s := s) (ph := ph) (sk := sk) (q := q) (rPt := rPt)
  generalize comb (usedCtab s) (sdec (secretScalar (s.getS sk))) = q at hsignature hkey
  generalize comb (usedCtab s) (sdec (nonceScalar s ph (s.getS sk))) = rPt at hsignature
  have hsame : hashedKey s (some c) q = hashedKey s none q := hkey
  have hnone := hsignature q rPt rfl rfl none
  have hsome := hsignature q rPt rfl rfl (some c)
  rw [hsame] at hsome
  generalize scalc _ _ _ = tb at hnone hsome
  generalize enc rPt = rb at hnone hsome
  refine ⟨_, _, exec_sign_eq_putSignature _ hd hpass hnone, exec_sign_eq_putSignature _ hd hpass hsome, ?_⟩
  refine ⟨?r, ?t, ?cf, ?tblv⟩
  case r =>
    rw [State.getS_complete, State.getS_complete, State.getS_putSignature_r _ _ hd, State.getS_putSignature_r _ _ hd]
  case t =>
    rw [State.getS_complete, State.getS_complete, State.getS_putSignature_t, State.getS_putSignature_t]
  case cf =>
    rw [State.complete_cf, State.complete_cf, State.putSignature_cf, State.putSignature_cf]
  case tblv =>
    rw [State.complete_tblv, State.complete_tblv, State.putSignature_tblv, State.putSignature_tblv]

end Sys2Proof.Proofs

/-! PROOFS. VERIFY (45_protocol.md R276, R281): its early checks and its verdict, and the two statements on it. -/

namespace Sys2Proof.Machine

variable {s t : State} {ph : Bool} {r sv pk : SReg}

theorem verifyRule_iff (f : Fields) :
    (decide (f.rd = 0) && flagOnly f) = true ↔ f.rd = 0 ∧ f.flg.extractLsb' 1 7 = 0#7 := by
  simp [flagOnly]

/-- VERIFY that fails an early check ends with CF = 0 alone (45_protocol.md R276). -/
theorem exec_verify_of_rejected (hpass : argumentsPass s ph) (h : ¬ s.passesEarlyChecks r sv pk) :
    exec (.verify r sv pk ph) s = .next (s.setCF false).complete := by
  rw [exec_verify_of_argumentsPass r sv pk hpass, State.verified_of_rejected h]

theorem setCF_complete_changesOnly (s : State) (b : Bool) : changesOnly { cf := true } s (s.setCF b).complete :=
  ((changesOnly_refl _ s).setCF rfl b).complete

/-- VERIFY past its early checks ends with the verdict on the recomputed R (45_protocol.md R276). -/
theorem exec_verify_of_accepted (hpass : argumentsPass s ph) {A q : Pt} (h : s.passesEarlyChecks r sv pk)
    (hA : decpt (s.getS pk) true = some A)
    (hq : straus (usedBtab s) (sdec (s.getS sv)) (sdec (challengeScalar s ph (s.getS r) (s.getS pk))) A = q) :
    exec (.verify r sv pk ph) s = .next (s.precompute.putVerdict (s.getS r) q).complete := by
  rw [exec_verify_of_argumentsPass r sv pk hpass, State.verified_of_accepted h hA, ← usedBtab_eq, challenge_eq,
    State.sval, hq]

theorem State.putVerdict_cf (s : State) (e : Str57) (q : Pt) : (s.putVerdict e q).cf = decide (enc q = e) := by
  rw [State.putVerdict, State.putFlags, State.orZDIV_cf, State.setCF_cf]

theorem State.putVerdict_zdiv (s : State) (e : Str57) (q : Pt) :
    (s.putVerdict e q).zdiv = (s.zdiv || q.zeroZ) := by
  rw [State.putVerdict, State.putFlags, State.orZDIV_zdiv, State.setCF_zdiv]

theorem changesOnly.putVerdict {w : Writes} (h : changesOnly w s t) (hc : w.cf = true) (hz : w.zdiv = true)
    (e : Str57) (q : Pt) : changesOnly w s (t.putVerdict e q) :=
  (h.setCF hc _).orZDIV hz _

theorem tablesReady.putVerdict (h : tablesReady s t) (e : Str57) (q : Pt) : tablesReady s (t.putVerdict e q) := by
  simpa only [tablesReady, State.putVerdict, State.putFlags, State.orZDIV_tblv, State.orZDIV_btab,
    State.orZDIV_ctab, State.setCF_tblv, State.setCF_btab, State.setCF_ctab] using h

/-- A key that decodes has y below p and an x on the curve (43_point.md R196). -/
theorem encodesPoint_of_decpt_isSome {e : Str57} {neg : Bool} (h : (decpt e neg).isSome = true) : encodesPoint e := by
  by_contra hnot
  rw [decpt_of_not_encodesPoint hnot] at h
  exact Bool.false_ne_true h

/-- The malformed inputs fail the early checks (45_protocol.md R281). -/
theorem not_passesEarlyChecks_of_malformed
    (h : (s.getS sv)[56] ≠ 0#8 ∨ Config.groupOrder ≤ sdec (s.getS sv) ∨ Config.p ≤ sdec (s.getS r) ∨
      Config.p ≤ sdec (s.getS pk) ∨ ∀ x : Nat, ¬ onCurve ⟨x, sdec (s.getS pk), 1⟩) :
    ¬ s.passesEarlyChecks r sv pk := by
  rintro ⟨hr, hsv, hpk⟩
  obtain ⟨_, hr⟩ := (chkpt_iff _).mp hr
  obtain ⟨htop, hsv⟩ := (schk_iff _).mp hsv
  have hkey := encodesPoint_of_decpt_isSome hpk
  obtain ⟨_, hy, _⟩ := id hkey
  rcases h with h | h | h | h | h
  · exact h htop
  · exact Nat.not_lt.mpr h hsv
  · exact Nat.not_lt.mpr h hr
  · exact Nat.not_lt.mpr h hy
  · exact h _ (onCurve_decoded hkey true)

end Sys2Proof.Machine

namespace Sys2Proof.Proofs

open Sys2Proof.Machine

/-- Settles O59: CF = 0 alone on a failed early check, else the verdict on the recomputed R. -/
theorem verification : Obligations.Verification := by
  refine ⟨decodesAs_of_row (fun _ => rfl) verifyRule_iff, fun r sv pk ph s hpass => ?_⟩
  by_cases h : s.passesEarlyChecks r sv pk
  case neg =>
    refine ⟨_, exec_verify_of_rejected hpass h, endsWith_complete _,
      fun _ => ⟨rfl, setCF_complete_changesOnly s false⟩, fun A hr hsv hA => ?_⟩
    exact absurd ⟨hr, hsv, by rw [hA]; rfl⟩ h
  case pos =>
    obtain ⟨A, hA⟩ := Option.isSome_iff_exists.mp h.2.2
    have hexec (q : Pt) := exec_verify_of_accepted (q := q) hpass h hA
    generalize hq : straus (usedBtab s) (sdec (s.getS sv))
      (sdec (challengeScalar s ph (s.getS r) (s.getS pk))) A = q at hexec
    refine ⟨_, hexec q rfl, endsWith_complete _, fun hnot => absurd h hnot, fun A' _ _ hA' => ⟨q, ?_,
      ((changesOnly_precompute _ s rfl).putVerdict rfl rfl _ q).complete,
      ((tablesReady_precompute s).putVerdict _ q).complete, ?_, ?_⟩⟩
    · obtain rfl : A = A' := Option.some.inj (hA.symm.trans hA')
      exact hq.symm
    · rw [State.complete_cf, State.putVerdict_cf, decide_eq_true_iff]
    · rw [State.complete_zdiv, State.putVerdict_zdiv, State.precompute_zdiv, Pt.zeroZ_eq]

/-- Settles O60: each malformed input fails one of the early checks. -/
theorem malformedSignaturesAreRejected : Obligations.MalformedSignaturesAreRejected :=
  fun _ _ _ _ s hpass h => ⟨_, exec_verify_of_rejected hpass (not_passesEarlyChecks_of_malformed h),
    endsWith_complete _, rfl, setCF_complete_changesOnly s false⟩

end Sys2Proof.Proofs
